-- ==== Sys2Proof/Word.lean ====
section
/-! DEFINITION. The words of the frame codec: a byte is 8 bits, a 16-bit field is a `Half` (00_scope R8). -/

namespace Sys2Proof

/-- A byte, 8 bits (R8). -/
abbrev Byte := BitVec 8

/-- A 16-bit unsigned quantity: transaction id, checksum, MBAP length field (R8). -/
abbrev Half := BitVec 16

end Sys2Proof
end

