-- ==== Sys2Proof/Syntax.lean ====
section
/-! DEFINITION. The commands of the block and the function codes inside frames: one constructor of `Instr`
for each row of the opcode table. -/

namespace Sys2Proof

/-- `VARIANT` (R7, R33). -/
inductive Variant where
  | rtu
  | tcp
deriving DecidableEq, Repr

/-- The direction of a frame: from a controller, or from a device (R16). -/
inductive Direction where
  | req
  | rsp
deriving DecidableEq, Repr

/-- The three RTU payload shapes (R104). -/
inductive Shape where
  | fixed4
  | hdr4Len
  | len
deriving DecidableEq, Repr

/-- The eight function codes, `FC_SET` (R95 to R103). -/
inductive FunctionCode where
  | readCoils
  | readDiscreteInputs
  | readHoldingRegisters
  | readInputRegisters
  | writeSingleCoil
  | writeSingleRegister
  | writeMultipleCoils
  | writeMultipleRegisters
deriving DecidableEq, Repr

/-- The fields of a command beside its `op` (R90). Which of them an operation uses: R94. -/
structure Operands where
  tid  : Half
  sid  : Byte
  fc   : Byte
  data : List Byte
deriving DecidableEq, Repr

/-- One constructor per row of the opcode table: the seven commands (R92), each with all the fields of its
record, and the eight function-code bytes a decode meets inside a frame (R96 to R103). -/
inductive Instr where
  /-- CRC16: checksum of the command data (R120). -/
  | crc16 (o : Operands)
  /-- ENCODE under RTU (R140). -/
  | encodeRtu (o : Operands)
  /-- ENCODE under TCP (R180). -/
  | encodeTcp (o : Operands)
  /-- DECODE_REQ under RTU (R143). -/
  | decodeReqRtu (o : Operands)
  /-- DECODE_REQ under TCP (R182). -/
  | decodeReqTcp (o : Operands)
  /-- DECODE_RSP under RTU (R144). -/
  | decodeRspRtu (o : Operands)
  /-- DECODE_RSP under TCP (R182). -/
  | decodeRspTcp (o : Operands)
  /-- Function code 0x01 (R96). -/
  | fcReadCoils
  /-- Function code 0x02 (R97). -/
  | fcReadDiscreteInputs
  /-- Function code 0x03 (R98). -/
  | fcReadHoldingRegisters
  /-- Function code 0x04 (R99). -/
  | fcReadInputRegisters
  /-- Function code 0x05 (R100). -/
  | fcWriteSingleCoil
  /-- Function code 0x06 (R101). -/
  | fcWriteSingleRegister
  /-- Function code 0x0F (R102). -/
  | fcWriteMultipleCoils
  /-- Function code 0x10 (R103). -/
  | fcWriteMultipleRegisters
deriving DecidableEq, Repr

end Sys2Proof
end

