-- ==== Sys2Proof/Config.lean ====
section
/-! DEFINITION. What is fixed when the block is built. -/

namespace Sys2Proof.Config

/-- The `VARIANT` of the block that `State.reset` stands for (R7, R33: chosen at construction).
DESIGN CHOICE, unsafe: the spec lets it be either; no statement rests on it, since every statement is
about a state whose `variant` is free (log entry 5). -/
def buildVariant : Variant := .rtu

/-- The greatest number of bytes in the `data` of a command (R90). -/
def maxData : Nat := 65535

/-- The greatest payload an MBAP length field can count beside the station id and function code (R181). -/
def maxTcpPayload : Nat := 65533

end Sys2Proof.Config
end

