-- ==== Sys2Proof/WellFormed.lean ====
section
/-! DEFINITION. Which instructions the encoding admits: the only bound is the 16-bit count of the data bytes
(R90); every other field fills its bits. -/

namespace Sys2Proof

/-- `0 <= len(data) <= 65535` (R90). -/
def Operands.wellFormed (o : Operands) : Bool := o.data.length ≤ Config.maxData

/-- A command is well formed when its data can be counted; a function-code byte always is. -/
def Instr.wellFormed : Instr → Bool
  | .crc16 o => o.wellFormed
  | .encodeRtu o => o.wellFormed
  | .encodeTcp o => o.wellFormed
  | .decodeReqRtu o => o.wellFormed
  | .decodeReqTcp o => o.wellFormed
  | .decodeRspRtu o => o.wellFormed
  | .decodeRspTcp o => o.wellFormed
  | .fcReadCoils => true
  | .fcReadDiscreteInputs => true
  | .fcReadHoldingRegisters => true
  | .fcReadInputRegisters => true
  | .fcWriteSingleCoil => true
  | .fcWriteSingleRegister => true
  | .fcWriteMultipleCoils => true
  | .fcWriteMultipleRegisters => true

end Sys2Proof
end

