-- ==== Sys2Proof/Decode.lean ====
section
/-! DEFINITION. The two encodings: the serialized command descriptor (R91, R92) and the function-code byte
(R95), each with its decoder, total on any bytes, and its encoder. The byte-order helpers of R11 and R12 stand
here, for the machine uses them too. -/

namespace Sys2Proof

/-! ## Byte order -/

/-- `v[7:0]` (R11). -/
def lo8 (v : Half) : Byte := v.setWidth 8

/-- `v[15:8]` (R11). -/
def hi8 (v : Half) : Byte := (v >>> 8).setWidth 8

/-- A 16-bit field from its high and its low byte (R12, the body of `BE16`). -/
def word16 (hi lo : Byte) : Half := (hi.setWidth 16 <<< 8) ||| lo.setWidth 16

/-- `be16(v)`: high byte first (R12). -/
def be16 (v : Half) : List Byte := [hi8 v, lo8 v]

/-- `le16(v)`: low byte first (R12). -/
def le16 (v : Half) : List Byte := [lo8 v, hi8 v]

/-- `s[i]` (R12). The rules index only bytes that are there; past the end it answers 0. -/
def byteAt (s : List Byte) (i : Nat) : Byte := s.getD i 0

/-- `BE16(s, i)` (R12). -/
def readBe16 (s : List Byte) (i : Nat) : Half := word16 (byteAt s i) (byteAt s (i + 1))

/-! ## Function codes -/

/-- The byte of a function code (R96 to R103). -/
def FunctionCode.code : FunctionCode → Byte
  | .readCoils => 0x01
  | .readDiscreteInputs => 0x02
  | .readHoldingRegisters => 0x03
  | .readInputRegisters => 0x04
  | .writeSingleCoil => 0x05
  | .writeSingleRegister => 0x06
  | .writeMultipleCoils => 0x0F
  | .writeMultipleRegisters => 0x10

/-- Membership in `FC_SET`, with the name of the code (R95); none for every other byte (R106). -/
def decodeFunctionCode (b : Byte) : Option FunctionCode :=
  if b = 0x01 then some .readCoils
  else if b = 0x02 then some .readDiscreteInputs
  else if b = 0x03 then some .readHoldingRegisters
  else if b = 0x04 then some .readInputRegisters
  else if b = 0x05 then some .writeSingleCoil
  else if b = 0x06 then some .writeSingleRegister
  else if b = 0x0F then some .writeMultipleCoils
  else if b = 0x10 then some .writeMultipleRegisters
  else none

/-- The opcode-table row of a function code. -/
def Instr.ofFunctionCode : FunctionCode → Instr
  | .readCoils => .fcReadCoils
  | .readDiscreteInputs => .fcReadDiscreteInputs
  | .readHoldingRegisters => .fcReadHoldingRegisters
  | .readInputRegisters => .fcReadInputRegisters
  | .writeSingleCoil => .fcWriteSingleCoil
  | .writeSingleRegister => .fcWriteSingleRegister
  | .writeMultipleCoils => .fcWriteMultipleCoils
  | .writeMultipleRegisters => .fcWriteMultipleRegisters

/-! ## Commands -/

/-- The operation an `op` byte selects under a variant (R92); none for the reserved values (R93). -/
def decodeOp (v : Variant) (op : Byte) (o : Operands) : Option Instr :=
  if op = 0x00 then some (.crc16 o)
  else if op = 0x01 then
    match v with
    | .rtu => some (.encodeRtu o)
    | .tcp => some (.encodeTcp o)
  else if op = 0x02 then
    match v with
    | .rtu => some (.decodeReqRtu o)
    | .tcp => some (.decodeReqTcp o)
  else if op = 0x03 then
    match v with
    | .rtu => some (.decodeRspRtu o)
    | .tcp => some (.decodeRspTcp o)
  else none

/-- What the command decoder finds at the head of some bytes. -/
inductive Decoded where
  /-- A command, and the bytes after its descriptor. -/
  | instr (i : Instr) (rest : List Byte)
  /-- A whole descriptor whose `op` is reserved, and the bytes after it (R93). -/
  | reservedOp (op : Byte) (rest : List Byte)
  /-- The bytes end before the descriptor does: no command (log entry 10). -/
  | truncated
deriving DecidableEq, Repr

/-- The answer for a whole descriptor: the operation its `op` selects, or a reserved `op` (R92, R93). -/
def decodedAs (op : Byte) (rest : List Byte) : Option Instr → Decoded
  | some i => .instr i rest
  | none => .reservedOp op rest

/-- Read one serialized command descriptor (R91). -/
def decode (v : Variant) : List Byte → Decoded
  | op :: tidHi :: tidLo :: sid :: fc :: lenHi :: lenLo :: tail =>
    let dlen := (word16 lenHi lenLo).toNat
    if dlen ≤ tail.length then
      decodedAs op (tail.drop dlen) (decodeOp v op ⟨word16 tidHi tidLo, sid, fc, tail.take dlen⟩)
    else .truncated
  | _ => .truncated

/-- The descriptor of a command with this `op` (R91). -/
def descriptor (op : Byte) (o : Operands) : List Byte :=
  op :: be16 o.tid ++ [o.sid, o.fc] ++ be16 (BitVec.ofNat 16 o.data.length) ++ o.data

/-- The words of an instruction: the descriptor of a command (R91, R92), the byte of a function code (R95). -/
def encode : Instr → List Byte
  | .crc16 o => descriptor 0x00 o
  | .encodeRtu o => descriptor 0x01 o
  | .encodeTcp o => descriptor 0x01 o
  | .decodeReqRtu o => descriptor 0x02 o
  | .decodeReqTcp o => descriptor 0x02 o
  | .decodeRspRtu o => descriptor 0x03 o
  | .decodeRspTcp o => descriptor 0x03 o
  | .fcReadCoils => [FunctionCode.code .readCoils]
  | .fcReadDiscreteInputs => [FunctionCode.code .readDiscreteInputs]
  | .fcReadHoldingRegisters => [FunctionCode.code .readHoldingRegisters]
  | .fcReadInputRegisters => [FunctionCode.code .readInputRegisters]
  | .fcWriteSingleCoil => [FunctionCode.code .writeSingleCoil]
  | .fcWriteSingleRegister => [FunctionCode.code .writeSingleRegister]
  | .fcWriteMultipleCoils => [FunctionCode.code .writeMultipleCoils]
  | .fcWriteMultipleRegisters => [FunctionCode.code .writeMultipleRegisters]

/-- A row of format CMD, that is a command and not a function-code byte. -/
def Instr.isCommand : Instr → Bool
  | .crc16 _ => true
  | .encodeRtu _ => true
  | .encodeTcp _ => true
  | .decodeReqRtu _ => true
  | .decodeReqTcp _ => true
  | .decodeRspRtu _ => true
  | .decodeRspTcp _ => true
  | .fcReadCoils => false
  | .fcReadDiscreteInputs => false
  | .fcReadHoldingRegisters => false
  | .fcReadInputRegisters => false
  | .fcWriteSingleCoil => false
  | .fcWriteSingleRegister => false
  | .fcWriteMultipleCoils => false
  | .fcWriteMultipleRegisters => false

/-- The instruction exists in a block built with this variant (R92; CRC16 and the function codes in both). -/
def Instr.availableIn : Instr → Variant → Bool
  | .crc16 _, _ => true
  | .encodeRtu _, v => v = .rtu
  | .encodeTcp _, v => v = .tcp
  | .decodeReqRtu _, v => v = .rtu
  | .decodeReqTcp _, v => v = .tcp
  | .decodeRspRtu _, v => v = .rtu
  | .decodeRspTcp _, v => v = .tcp
  | .fcReadCoils, _ => true
  | .fcReadDiscreteInputs, _ => true
  | .fcReadHoldingRegisters, _ => true
  | .fcReadInputRegisters, _ => true
  | .fcWriteSingleCoil, _ => true
  | .fcWriteSingleRegister, _ => true
  | .fcWriteMultipleCoils, _ => true
  | .fcWriteMultipleRegisters, _ => true

/-! ## Words numbered as the opcode table numbers them -/

/-- The first `n` bytes of the number `w`, bits 7..0 first. -/
def bytesOfNat : Nat → Nat → List Byte
  | 0, _ => []
  | n + 1, w => BitVec.ofNat 8 w :: bytesOfNat n (w / 256)

/-- The descriptor whose first `nbits / 8` bytes are those of `w` and whose other bytes are zero: at least the
seven bytes before the data, and as many data bytes as its count asks for (R91). -/
def tableDescriptor (nbits w : Nat) : List Byte :=
  let given := bytesOfNat (nbits / 8) w
  let header := given ++ List.replicate (7 - given.length) 0
  header ++ List.replicate (7 + (readBe16 header 5).toNat - header.length) 0

/-- The function code a one-byte word of the table stands for where its value is no `op` of a command: the
table's rows of format FC (log entry 14). -/
def tableFunctionCode (nbits w : Nat) : Option FunctionCode :=
  if nbits ≤ 8 ∧ 0x04 ≤ w then decodeFunctionCode (BitVec.ofNat 8 w) else none

/-- The instruction the decoder reads from a word of the opcode table. The table's two formats, CMD and FC,
share their values, and a command's row also depends on the variant, which is no bit of the word; a value that is
an `op` of a command is read as that command of a block built as `Config.buildVariant` says, and any other value
as a function code (log entry 14). -/
def decodeTableWord (nbits w : Nat) : Option Instr :=
  match tableFunctionCode nbits w with
  | some f => some (Instr.ofFunctionCode f)
  | none =>
    match decode Config.buildVariant (tableDescriptor nbits w) with
    | .instr i _ => some i
    | .reservedOp _ _ => none
    | .truncated => none

end Sys2Proof
end

