-- ==== Sys2Proof/Machine/State.lean ====
section
/-! DEFINITION. The state of the block, the host's actions on it, and the reasons a step can stop. -/

namespace Sys2Proof.Machine

/-- The completion codes by name (R231); their bytes are in Machine/Flags.lean. -/
inductive Status where
  | ok
  | unknownFunctionCode
  | checksumError
  | protocolFlagError
  | invalidLength
  | streamExhausted
  | transportTimeout
  | illegalCommand
deriving DecidableEq, Repr

/-- The registers the host can read (R33 to R39). The engine's `crc` and `IBUF` are not among them (R32). -/
inductive HostReg where
  | variant
  | busy
  | status
  | rValid
  | rTid
  | rSid
  | rFc
  | rPayload
  | rRaw
  | rCrc
deriving DecidableEq, Repr

/-- The value of a register as the host gets it. -/
inductive RegValue where
  | bit (v : BitVec 1)
  | byte (v : Byte)
  | half (v : Half)
  | bytes (v : List Byte)
deriving DecidableEq, Repr

/-- One value the host has read: its own copy (R79). -/
structure Reading where
  reg   : HostReg
  value : RegValue
deriving DecidableEq, Repr

/-- What the host can do (R30, R60, R62, R260). -/
inductive HostAction where
  /-- Hand over a serialized command descriptor (R90, R91). -/
  | issue (descriptor : List Byte)
  /-- `FEED(bs)` (R62). -/
  | feed (bs : List Byte)
  /-- `END` (R62). -/
  | endOfStream
  /-- `TIMEOUT` (R62). -/
  | timeout
  /-- `RESET` (R260). -/
  | reset
  /-- Read a register (R38, R48). -/
  | read (reg : HostReg)
deriving DecidableEq, Repr

/-- Who moves in a step: the host with one action, or the engine (log entries 1 and 2). -/
inductive Turn where
  | host (a : HostAction)
  | engine
deriving DecidableEq, Repr

/-- Where a decode that waits stands, with the bytes it has consumed (R63, R64, R141, R182). -/
inductive Progress where
  /-- No command in progress. -/
  | idle
  /-- RTU, at the station id. -/
  | rtuStation (dir : Direction)
  /-- RTU, at the function code. -/
  | rtuFunction (dir : Direction) (sid : Byte)
  /-- RTU, in the part of the payload whose length the shape fixes, a length byte included. -/
  | rtuHead (dir : Direction) (sid : Byte) (fc : FunctionCode) (got : List Byte)
  /-- RTU, in the data bytes a length byte counts. -/
  | rtuData (dir : Direction) (sid : Byte) (fc : FunctionCode) (head got : List Byte)
  /-- RTU, in the two checksum bytes. -/
  | rtuChecksum (dir : Direction) (sid : Byte) (fc : FunctionCode) (payload got : List Byte)
  /-- TCP, at the peek of the 8 header bytes. -/
  | tcpPeek
  /-- TCP, in the payload, the 8 header bytes consumed. -/
  | tcpPayload (header got : List Byte)
deriving DecidableEq, Repr

/-- Which result registers the last completed command wrote (R39, R45, R48). -/
inductive Held where
  /-- None: it ended with an error, or no command has completed since reset. -/
  | nothing
  /-- `R_CRC` and `R_RAW`. -/
  | checksum
  /-- The five frame registers. -/
  | frame
deriving DecidableEq, Repr

/-- The state of the block (R33 to R43), where a waiting decode stands, and the host's side: its coming turns
(the open parameter `Source` of R10) and the values it has read (R79). -/
structure State where
  /-- `VARIANT` (R33). -/
  variant    : Variant
  /-- `BUSY` (R34). -/
  busy       : Bool
  /-- `STATUS` (R35). -/
  status     : Byte
  /-- Whether `STATUS` holds a value: a command has completed since reset (R48, R49). -/
  statusHeld : Bool
  /-- `R_VALID` (R36). -/
  rValid     : Bool
  /-- What the last completed command wrote (R45, R48). -/
  held       : Held
  /-- `R_TID` (R38). -/
  rTid       : Half
  /-- `R_SID` (R38). -/
  rSid       : Byte
  /-- `R_FC` (R38). -/
  rFc        : Byte
  /-- `R_PAYLOAD` (R38). -/
  rPayload   : List Byte
  /-- `R_RAW` (R38, R39). -/
  rRaw       : List Byte
  /-- `R_CRC` (R39). -/
  rCrc       : Half
  /-- The register of the checksum generator, not observable (R37, R47). -/
  crc        : Half
  /-- `IBUF` (R43). -/
  ibuf       : List Byte
  /-- `SRC_END` (R43). -/
  srcEnd     : Bool
  /-- `SRC_TIMEOUT` (R43). -/
  srcTimeout : Bool
  /-- Where a waiting decode stands (R63). -/
  progress   : Progress
  /-- The coming turns of host and engine (R10; log entry 1). -/
  schedule   : List Turn
  /-- What the host has read, newest first (R79; log entry 21). -/
  copies     : List Reading
deriving DecidableEq, Repr

/-- The machine right after reset (R49, R260), as built with `Config.buildVariant`. The contents of the registers
that hold no value are DESIGN CHOICE, unsafe (log entries 6 and 7); a read of one faults. -/
def State.reset : State where
  variant    := Config.buildVariant
  busy       := false
  status     := 0x00
  statusHeld := false
  rValid     := false
  held       := .nothing
  rTid       := 0x0000
  rSid       := 0x00
  rFc        := 0x00
  rPayload   := []
  rRaw       := []
  rCrc       := 0x0000
  crc        := 0xFFFF
  ibuf       := []
  srcEnd     := false
  srcTimeout := false
  progress   := .idle
  schedule   := []
  copies     := []

/-- Why the machine stops with a fault. -/
inductive Fault where
  /-- The host reads a register that holds no value (R48, R49, I7). Raised by `hostRead`; safe: the model stops
  where a chip might answer. -/
  | registerHoldsNoValue (reg : HostReg)
deriving DecidableEq, Repr

/-- Why a step is refused. -/
inductive Refusal where
  /-- No meaning for this instruction yet. Raised by no arm of `exec`; safe. -/
  | notModelled (mnemonic : String)
  /-- The host issues a command while `BUSY = 1`, a breach of its duty (R263). Raised by every command's meaning
  and by `illegalCommand`; safe. -/
  | commandWhileBusy
  /-- The host feeds after `END`, a breach of its duty (R62, R264). Raised by `hostFeed`; safe. -/
  | feedAfterEnd
  /-- A command of the other variant than the block was built with (R7, R92): no step reaches it, since the
  decoder reads a command by the block's variant. Raised by the meanings of the commands of one variant; safe
  (log entry 13). -/
  | notInThisVariant
  /-- A function-code byte where no decode is at one: "Function-code byte inside a frame, not a command"
  (opcode table). Raised by the meanings of the function codes; no step reaches it; safe (log entry 12). -/
  | functionCodeOutsideFrame
  /-- The bytes the host hands over are not `7 + len(data)` long, so they are no command (R91). Raised by the
  step's issue; safe (log entry 10). -/
  | malformedDescriptor
deriving DecidableEq, Repr

/-- The outcome of one step of this machine. -/
abbrev Result := Host.Outcome State Fault Refusal

end Sys2Proof.Machine
end

