-- ==== Sys2Proof/Machine/Flags.lean ====
section
/-! DEFINITION. The status bits of the block: the completion codes (R231), and which registers hold a value
(R44, R48). -/

namespace Sys2Proof.Machine

/-- The byte `STATUS` holds for a completion (R231). -/
def Status.code : Status → Byte
  | .ok => 0x00
  | .unknownFunctionCode => 0x01
  | .checksumError => 0x02
  | .protocolFlagError => 0x03
  | .invalidLength => 0x04
  | .streamExhausted => 0x05
  | .transportTimeout => 0x06
  | .illegalCommand => 0x07

/-- A legal value of `STATUS` (R231, R35: codes 0x08 to 0xFF are never written). -/
def legalStatus (b : Byte) : Bool := b.toNat ≤ 7

/-- Whether the register holds a value the host may read (R33, R34, R36, R45, R48, R49). -/
def holdsValue (r : HostReg) (s : State) : Bool :=
  match r with
  | .variant => true
  | .busy => true
  | .rValid => true
  | .status => s.statusHeld
  | .rTid => s.rValid && decide (s.held = .frame)
  | .rSid => s.rValid && decide (s.held = .frame)
  | .rFc => s.rValid && decide (s.held = .frame)
  | .rPayload => s.rValid && decide (s.held = .frame)
  | .rRaw => s.rValid && decide (s.held ≠ .nothing)
  | .rCrc => s.rValid && decide (s.held = .checksum)

/-- The 1-bit value of `VARIANT` (R33). -/
def Variant.bit : Variant → BitVec 1
  | .rtu => 0
  | .tcp => 1

/-- The contents of a register (R33 to R39). -/
def regContents (r : HostReg) (s : State) : RegValue :=
  match r with
  | .variant => .bit (Variant.bit s.variant)
  | .busy => .bit (BitVec.ofBool s.busy)
  | .rValid => .bit (BitVec.ofBool s.rValid)
  | .status => .byte s.status
  | .rTid => .half s.rTid
  | .rSid => .byte s.rSid
  | .rFc => .byte s.rFc
  | .rPayload => .bytes s.rPayload
  | .rRaw => .bytes s.rRaw
  | .rCrc => .half s.rCrc

end Sys2Proof.Machine
end

