-- ==== Sys2Proof/Machine/Operands.lean ====
section
/-! DEFINITION. The operand forms inside a frame: the RTU payload shapes and their lengths (R104, R105), the
payloads a decoder of a direction reads back (R149), and the MBAP header (R109). -/

namespace Sys2Proof.Machine

/-- The shape table (R105). -/
def rtuShape : Direction → FunctionCode → Shape
  | .req, .readCoils => .fixed4
  | .req, .readDiscreteInputs => .fixed4
  | .req, .readHoldingRegisters => .fixed4
  | .req, .readInputRegisters => .fixed4
  | .req, .writeSingleCoil => .fixed4
  | .req, .writeSingleRegister => .fixed4
  | .req, .writeMultipleCoils => .hdr4Len
  | .req, .writeMultipleRegisters => .hdr4Len
  | .rsp, .readCoils => .len
  | .rsp, .readDiscreteInputs => .len
  | .rsp, .readHoldingRegisters => .len
  | .rsp, .readInputRegisters => .len
  | .rsp, .writeSingleCoil => .fixed4
  | .rsp, .writeSingleRegister => .fixed4
  | .rsp, .writeMultipleCoils => .fixed4
  | .rsp, .writeMultipleRegisters => .fixed4

/-- How many bytes `ReadPayload` reads before it knows the payload's length: the 4 bytes of FIXED4, the 4 bytes
and the length byte of HDR4_LEN, the length byte of LEN (R104). -/
def headLength : Shape → Nat
  | .fixed4 => 4
  | .hdr4Len => 5
  | .len => 1

/-- How many data bytes the length byte at the end of the head counts (R104). -/
def dataLength (shape : Shape) (head : List Byte) : Nat :=
  match shape with
  | .fixed4 => 0
  | .hdr4Len => (byteAt head 4).toNat
  | .len => (byteAt head 0).toNat

/-- `wellshaped(dir, fc, p)` (R149). -/
def wellShaped (dir : Direction) (fc : FunctionCode) (p : List Byte) : Bool :=
  match rtuShape dir fc with
  | .fixed4 => p.length = 4
  | .hdr4Len => 5 ≤ p.length && p.length = 5 + (byteAt p 4).toNat
  | .len => 1 ≤ p.length && p.length = 1 + (byteAt p 0).toNat

/-- The 8 header bytes of an MBAP frame with this length field (R109, R180). -/
def mbapHeader (tid len : Half) (sid fc : Byte) : List Byte :=
  be16 tid ++ [0x00, 0x00] ++ be16 len ++ [sid, fc]

end Sys2Proof.Machine
end

