-- ==== Sys2Proof/Machine/Ops.lean ====
section
/-! DEFINITION. The shared operations: how a command is accepted and how it ends (R34, R235, R236), the writes
of the result registers (R45), the wait and the three stream primitives (R63 to R66). The block takes no exception
and returns from none (R230, R247); `raise` is what stands in that place. -/

namespace Sys2Proof.Machine

/-! ## Accepting and ending a command -/

/-- A command that runs under either variant: refused while BUSY (R263), else accepted, `BUSY <- 1` (R34), and
run until it completes or waits (log entry 3). -/
def accept (run : State → State) (s : State) : Result :=
  if s.busy then .refused .commandWhileBusy else .next (run { s with busy := true })

/-- A command that only a block of variant `v` has (R7, R92). -/
def acceptUnder (v : Variant) (run : State → State) (s : State) : Result :=
  if s.variant = v then accept run s else .refused .notInThisVariant

/-- `complete()` (R235), with what the command wrote to the result registers (R45). -/
def complete (wrote : Held) (s : State) : State :=
  { s with status := Status.code .ok, statusHeld := true, rValid := true, held := wrote,
           srcTimeout := false, busy := false, progress := .idle }

/-- `raise E` (R236). No result register is written, and none holds a value afterwards (R48). -/
def raise (e : Status) (s : State) : State :=
  { s with status := e.code, statusHeld := true, rValid := false, held := .nothing,
           srcTimeout := false, busy := false, progress := .idle }

/-- Write the five frame registers and complete (R38, R45). -/
def completeFrame (tid : Half) (sid fc : Byte) (payload raw : List Byte) (s : State) : State :=
  complete .frame { s with rTid := tid, rSid := sid, rFc := fc, rPayload := payload, rRaw := raw }

/-- Write `R_CRC` and `R_RAW` and complete (R39, R45). -/
def completeChecksum (c : Half) (s : State) : State :=
  complete .checksum { s with rCrc := c, rRaw := le16 c }

/-- A command with a reserved `op` (R93, R240): refused while BUSY like any other (R263), else it completes at
once with IllegalCommand. It has no row of the opcode table, so the step calls it. -/
def illegalCommand (s : State) : Result := accept (raise .illegalCommand) s

/-! ## The input stream -/

/-- A primitive finds `IBUF` too short (R63, cases 2 and 3 and the wait): a pending TIMEOUT is taken, else END
ends the command, else the command stays BUSY at `p`. -/
def await (p : Progress) (s : State) : State :=
  if s.srcTimeout then raise .transportTimeout { s with srcTimeout := false }
  else if s.srcEnd then raise .streamExhausted s
  else { s with busy := true, progress := p }

/-- What a stream primitive answers: the bytes, and the state after; or the state in which the command waits or
has ended. -/
inductive Taken where
  | bytes (bs : List Byte) (s : State)
  | stopped (s : State)
deriving DecidableEq, Repr

/-- `StreamRead(n)` (R64), of which the bytes `got` are already taken. Taking the bytes one at a time and waiting
when there is none takes all there are, so a read that cannot finish leaves `IBUF` empty; `p` is where it waits,
from the bytes taken so far. -/
def streamRead (n : Nat) (got : List Byte) (p : List Byte → Progress) (s : State) : Taken :=
  if n ≤ got.length + s.ibuf.length then
    .bytes (got ++ s.ibuf.take (n - got.length)) { s with ibuf := s.ibuf.drop (n - got.length) }
  else .stopped (await (p (got ++ s.ibuf)) { s with ibuf := [] })

/-- `StreamPeek(n)` (R65). -/
def streamPeek (n : Nat) (p : Progress) (s : State) : Taken :=
  if n ≤ s.ibuf.length then .bytes (s.ibuf.take n) s else .stopped (await p s)

/-- `StreamDiscard(n)` (R66). -/
def streamDiscard (n : Nat) (s : State) : State := { s with ibuf := s.ibuf.drop n }

end Sys2Proof.Machine
end

