-- ==== Sys2Proof/Machine/Checksum.lean ====
section
/-! DEFINITION. The checksum generator and the CRC16 command (40_checksum). -/

namespace Sys2Proof.Machine

/-- One of the 8 iterations (R121): shift right, and XOR with 0xA001 when the bit shifted out is 1. -/
def crcShift (c : Half) : Half := if c.getLsbD 0 then (c >>> 1) ^^^ 0xA001#16 else c >>> 1

/-- `n` iterations. -/
def crcShifts : Nat → Half → Half
  | 0, c => c
  | n + 1, c => crcShifts n (crcShift c)

/-- One byte (R121): XOR into the low byte of the register, then 8 iterations. -/
def crcByte (c : Half) (b : Byte) : Half := crcShifts 8 (c ^^^ b.setWidth 16)

/-- The register after some bytes, from a value of it. -/
def crcBytesFrom (c : Half) : List Byte → Half
  | [] => c
  | b :: bs => crcBytesFrom (crcByte c b) bs

/-- `crc16(s)` (R121). -/
def crc16 (s : List Byte) : Half := crcBytesFrom 0xFFFF#16 s

/-- The checksum's wire bytes, low byte first (R122). -/
def crcWire (s : List Byte) : List Byte := le16 (crc16 s)

/-- A run of the generator over `s` leaves its result in the register `crc` (R37). -/
def runChecksum (bs : List Byte) (s : State) : State := { s with crc := crc16 bs }

/-- The work of CRC16 (R120). -/
def checksumCommand (data : List Byte) (s : State) : State :=
  completeChecksum (crc16 data) (runChecksum data s)

/-- CRC16 (R120): only `data` is used (R94). -/
def execCrc16 (o : Operands) (s : State) : Result := accept (checksumCommand o.data) s

end Sys2Proof.Machine
end

