-- ==== Sys2Proof/Machine/Rtu.lean ====
section
/-! DEFINITION. The RTU frame encoder and decoder (41_rtu_codec). `RtuDecode(dir)` (R141) is cut at the points
where it can wait, so that a waiting decode can go on from any of them. -/

namespace Sys2Proof.Machine

/-- The RTU frame of a body, that is of the station id, the function code and the payload (R107). -/
def rtuFrame (body : List Byte) : List Byte := body ++ crcWire body

/-- ENCODE under RTU (R140): nothing is checked, `R_TID` is 0 (R42). -/
def rtuEncode (sid fc : Byte) (data : List Byte) (s : State) : State :=
  completeFrame 0x0000 sid fc data (rtuFrame (sid :: fc :: data)) (runChecksum (sid :: fc :: data) s)

/-- The end of `RtuDecode` (R141, R145, R146) once the body and its checksum bytes are read: compare them, and
write the frame or discard it. -/
def rtuVerify (sid : Byte) (fc : FunctionCode) (payload c : List Byte) (s : State) : State :=
  if c = crcWire (sid :: fc.code :: payload) then
    completeFrame 0x0000 sid fc.code payload (sid :: fc.code :: payload ++ c)
      (runChecksum (sid :: fc.code :: payload) s)
  else raise .checksumError (runChecksum (sid :: fc.code :: payload) s)

/-- Read the two checksum bytes (R141). -/
def rtuChecksum (dir : Direction) (sid : Byte) (fc : FunctionCode) (payload got : List Byte) (s : State) : State :=
  match streamRead 2 got (.rtuChecksum dir sid fc payload) s with
  | .bytes c t => rtuVerify sid fc payload c t
  | .stopped t => t

/-- Read the data bytes the length byte counts (R104). -/
def rtuData (dir : Direction) (sid : Byte) (fc : FunctionCode) (head got : List Byte) (s : State) : State :=
  match streamRead (dataLength (rtuShape dir fc) head) got (.rtuData dir sid fc head) s with
  | .bytes d t => rtuChecksum dir sid fc (head ++ d) [] t
  | .stopped t => t

/-- Read the part of the payload whose length the shape fixes (R104). -/
def rtuHead (dir : Direction) (sid : Byte) (fc : FunctionCode) (got : List Byte) (s : State) : State :=
  match streamRead (headLength (rtuShape dir fc)) got (.rtuHead dir sid fc) s with
  | .bytes h t => rtuData dir sid fc h [] t
  | .stopped t => t

/-- The check of the function-code byte (R142). -/
def rtuSelect (dir : Direction) (sid fc : Byte) (s : State) : State :=
  match decodeFunctionCode fc with
  | some f => rtuHead dir sid f [] s
  | none => raise .unknownFunctionCode s

/-- Read the function code (R141, R142). -/
def rtuFunction (dir : Direction) (sid : Byte) (s : State) : State :=
  match streamRead 1 [] (fun _ => .rtuFunction dir sid) s with
  | .bytes b t => rtuSelect dir sid (byteAt b 0) t
  | .stopped t => t

/-- `RtuDecode(dir)` from its start, the station id (R141). -/
def rtuDecode (dir : Direction) (s : State) : State :=
  match streamRead 1 [] (fun _ => .rtuStation dir) s with
  | .bytes b t => rtuFunction dir (byteAt b 0) t
  | .stopped t => t

/-- ENCODE under RTU (R140): `tid` is ignored (R94). -/
def execEncodeRtu (o : Operands) (s : State) : Result := acceptUnder .rtu (rtuEncode o.sid o.fc o.data) s

/-- DECODE_REQ under RTU (R143): every field of the command is ignored (R94). -/
def execDecodeReqRtu (_o : Operands) (s : State) : Result := acceptUnder .rtu (rtuDecode .req) s

/-- DECODE_RSP under RTU (R144): every field of the command is ignored (R94). -/
def execDecodeRspRtu (_o : Operands) (s : State) : Result := acceptUnder .rtu (rtuDecode .rsp) s

end Sys2Proof.Machine
end

