-- ==== Sys2Proof/Machine/Tcp.lean ====
section
/-! DEFINITION. The TCP MBAP frame wrapper (42_tcp_codec). `TcpDecode()` (R182) is cut at the points where it
can wait and at its three checks. -/

namespace Sys2Proof.Machine

/-- ENCODE under TCP (R180, R181). -/
def tcpEncode (tid : Half) (sid fc : Byte) (data : List Byte) (s : State) : State :=
  if Config.maxTcpPayload < data.length then raise .invalidLength s
  else
    completeFrame tid sid fc data (mbapHeader tid (BitVec.ofNat 16 (2 + data.length)) sid fc ++ data) s

/-- The number of payload bytes after a header (R182): its length field less 2. -/
def tcpPayloadLength (h : List Byte) : Nat := (readBe16 h 4).toNat - 2

/-- Read the payload and write the frame (R182); the header `h` is consumed. -/
def tcpPayload (h got : List Byte) (s : State) : State :=
  match streamRead (tcpPayloadLength h) got (.tcpPayload h) s with
  | .bytes p t => completeFrame (readBe16 h 0) (byteAt h 6) (byteAt h 7) p (h ++ p) t
  | .stopped t => t

/-- The check of the length field, after the function code has passed (R182, R184). -/
def tcpLength (h : List Byte) (s : State) : State :=
  if (readBe16 h 4).toNat < 2 then raise .invalidLength (streamDiscard 1 s)
  else tcpPayload h [] (streamDiscard 8 s)

/-- The check of the function code in the peeked header (R182, R183). -/
def tcpSelect (h : List Byte) (s : State) : State :=
  match decodeFunctionCode (byteAt h 7) with
  | some _ => tcpLength h s
  | none => raise .unknownFunctionCode (streamDiscard 1 s)

/-- The check of the protocol id in the peeked header (R182, R183). -/
def tcpHeader (h : List Byte) (s : State) : State :=
  if readBe16 h 2 = 0x0000#16 then tcpSelect h s else raise .protocolFlagError (streamDiscard 1 s)

/-- `TcpDecode()` from its start, the peek (R182). -/
def tcpDecode (s : State) : State :=
  match streamPeek 8 .tcpPeek s with
  | .bytes h t => tcpHeader h t
  | .stopped t => t

/-- ENCODE under TCP (R180). -/
def execEncodeTcp (o : Operands) (s : State) : Result := acceptUnder .tcp (tcpEncode o.tid o.sid o.fc o.data) s

/-- DECODE_REQ under TCP (R182): every field of the command is ignored (R94). -/
def execDecodeReqTcp (_o : Operands) (s : State) : Result := acceptUnder .tcp tcpDecode s

/-- DECODE_RSP under TCP (R182): the same algorithm. -/
def execDecodeRspTcp (_o : Operands) (s : State) : Result := acceptUnder .tcp tcpDecode s

end Sys2Proof.Machine
end

