-- ==== Sys2Proof/Machine/FunctionCodes.lean ====
section
/-! DEFINITION. The function-code rows of the opcode table (R95 to R103): what the engine does when it takes
such a byte inside a frame (log entry 11). -/

namespace Sys2Proof.Machine

/-- A decode that has the function-code byte `f` before it goes on. Under RTU the byte has just been read: `f`
selects the payload shape (R104, R105, R142). Under TCP it is byte 7 of the peeked header, whose protocol id has
passed: being in `FC_SET`, it lets the decode go on to the length field (R182). Anywhere else there is no
function-code byte. -/
def takeFunctionCode (f : FunctionCode) (s : State) : Result :=
  match s.progress with
  | .rtuFunction dir sid => .next (rtuHead dir sid f [] s)
  | .tcpPeek =>
    if 8 ≤ s.ibuf.length ∧ readBe16 s.ibuf 2 = 0x0000#16 ∧ byteAt s.ibuf 7 = f.code then
      .next (tcpLength (s.ibuf.take 8) s)
    else .refused .functionCodeOutsideFrame
  | .idle => .refused .functionCodeOutsideFrame
  | .rtuStation _ => .refused .functionCodeOutsideFrame
  | .rtuHead _ _ _ _ => .refused .functionCodeOutsideFrame
  | .rtuData _ _ _ _ _ => .refused .functionCodeOutsideFrame
  | .rtuChecksum _ _ _ _ _ => .refused .functionCodeOutsideFrame
  | .tcpPayload _ _ => .refused .functionCodeOutsideFrame

/-- Function code 0x01, read-coils (R96): FIXED4 request, LEN response. -/
def execFcReadCoils (s : State) : Result := takeFunctionCode .readCoils s

/-- Function code 0x02, read-discrete-inputs (R97): FIXED4 request, LEN response. -/
def execFcReadDiscreteInputs (s : State) : Result := takeFunctionCode .readDiscreteInputs s

/-- Function code 0x03, read-holding-registers (R98): FIXED4 request, LEN response. -/
def execFcReadHoldingRegisters (s : State) : Result := takeFunctionCode .readHoldingRegisters s

/-- Function code 0x04, read-input-registers (R99): FIXED4 request, LEN response. -/
def execFcReadInputRegisters (s : State) : Result := takeFunctionCode .readInputRegisters s

/-- Function code 0x05, write-single-coil (R100): FIXED4 both ways. -/
def execFcWriteSingleCoil (s : State) : Result := takeFunctionCode .writeSingleCoil s

/-- Function code 0x06, write-single-register (R101): FIXED4 both ways. -/
def execFcWriteSingleRegister (s : State) : Result := takeFunctionCode .writeSingleRegister s

/-- Function code 0x0F, write-multiple-coils (R102): HDR4_LEN request, FIXED4 response. -/
def execFcWriteMultipleCoils (s : State) : Result := takeFunctionCode .writeMultipleCoils s

/-- Function code 0x10, write-multiple-registers (R103): HDR4_LEN request, FIXED4 response. -/
def execFcWriteMultipleRegisters (s : State) : Result := takeFunctionCode .writeMultipleRegisters s

end Sys2Proof.Machine
end

