-- ==== Sys2Proof/Machine/Engine.lean ====
section
/-! DEFINITION. The engine's turn: a waiting decode goes on from where it stands (R63). -/

namespace Sys2Proof.Machine

/-- Go on with the command in progress as far as the stream allows; with none, nothing happens (R261: the block
waits for the host's command), and a decode that still has no byte, no TIMEOUT and no END stays as it is (I11). -/
def resume (s : State) : State :=
  match s.progress with
  | .idle => s
  | .rtuStation dir => rtuDecode dir s
  | .rtuFunction dir sid => rtuFunction dir sid s
  | .rtuHead dir sid fc got => rtuHead dir sid fc got s
  | .rtuData dir sid fc head got => rtuData dir sid fc head got s
  | .rtuChecksum dir sid fc payload got => rtuChecksum dir sid fc payload got s
  | .tcpPeek => tcpDecode s
  | .tcpPayload header got => tcpPayload header got s

/-- The function code the waiting decode takes next, with the state it is taken in: under RTU the byte at the
head of the stream, consumed (R141); under TCP byte 7 of the 8 header bytes, only peeked, once the protocol id is
0 (R182). None where the decode is not at a function code of `FC_SET`. -/
def fetchFunctionCode (s : State) : Option (FunctionCode × State) :=
  match s.progress with
  | .rtuFunction _ _ =>
    match s.ibuf with
    | b :: rest => (decodeFunctionCode b).map fun f => (f, { s with ibuf := rest })
    | [] => none
  | .tcpPeek =>
    if 8 ≤ s.ibuf.length ∧ readBe16 s.ibuf 2 = 0x0000#16 then
      (decodeFunctionCode (byteAt s.ibuf 7)).map fun f => (f, s)
    else none
  | .idle => none
  | .rtuStation _ => none
  | .rtuHead _ _ _ _ => none
  | .rtuData _ _ _ _ _ => none
  | .rtuChecksum _ _ _ _ _ => none
  | .tcpPayload _ _ => none

end Sys2Proof.Machine
end

