-- ==== Sys2Proof/Machine/HostPort.lean ====
section
/-! DEFINITION. The host's actions beside the issue of a command: FEED, END, TIMEOUT (R62), RESET (R260) and the
read of a register (R38, R48). -/

namespace Sys2Proof.Machine

/-- `FEED(bs)`: append to the tail of `IBUF`; refused after END (R62, R264). -/
def hostFeed (bs : List Byte) (s : State) : Result :=
  if s.srcEnd then .refused .feedAfterEnd else .next { s with ibuf := s.ibuf ++ bs }

/-- `END`: no further byte will arrive (R62). -/
def hostEnd (s : State) : Result := .next { s with srcEnd := true }

/-- `TIMEOUT`: pending while a command is BUSY, without effect otherwise (R62). -/
def hostTimeout (s : State) : Result := .next (if s.busy then { s with srcTimeout := true } else s)

/-- `RESET` (R260): every piece of the block's state takes its reset value (R49) but `VARIANT` (R261). The host's
own turns and copies are no state of the block (log entry 22). -/
def hostReset (s : State) : Result :=
  .next { State.reset with variant := s.variant, schedule := s.schedule, copies := s.copies }

/-- The host reads a register: it gets a copy (R79); a register that holds no value faults (R48). -/
def hostRead (r : HostReg) (s : State) : Result :=
  if holdsValue r s then .next { s with copies := ⟨r, regContents r s⟩ :: s.copies }
  else .fault (.registerHoldsNoValue r)

/-- The host's turns without the one that was just refused: a refused action has no effect and is not queued
(R263), so a host that goes on does so from here (log entry 8). -/
def withoutRefusedTurn (s : State) : State := { s with schedule := s.schedule.tail }

end Sys2Proof.Machine
end

