-- ==== Sys2Proof/Machine/Dispatch.lean ====
section
/-! DEFINITION. One arm per row of the opcode table. -/

namespace Sys2Proof.Machine

def exec (i : Instr) (s : State) : Host.Outcome State Fault Refusal :=
  match i with
  -- commands (30_encoding R92)
  | .crc16 o => Sys2Proof.Machine.execCrc16 o s
  | .encodeRtu o => Sys2Proof.Machine.execEncodeRtu o s
  | .encodeTcp o => Sys2Proof.Machine.execEncodeTcp o s
  | .decodeReqRtu o => Sys2Proof.Machine.execDecodeReqRtu o s
  | .decodeReqTcp o => Sys2Proof.Machine.execDecodeReqTcp o s
  | .decodeRspRtu o => Sys2Proof.Machine.execDecodeRspRtu o s
  | .decodeRspTcp o => Sys2Proof.Machine.execDecodeRspTcp o s
  -- function codes inside a frame (30_encoding R96 to R103)
  | .fcReadCoils => Sys2Proof.Machine.execFcReadCoils s
  | .fcReadDiscreteInputs => Sys2Proof.Machine.execFcReadDiscreteInputs s
  | .fcReadHoldingRegisters => Sys2Proof.Machine.execFcReadHoldingRegisters s
  | .fcReadInputRegisters => Sys2Proof.Machine.execFcReadInputRegisters s
  | .fcWriteSingleCoil => Sys2Proof.Machine.execFcWriteSingleCoil s
  | .fcWriteSingleRegister => Sys2Proof.Machine.execFcWriteSingleRegister s
  | .fcWriteMultipleCoils => Sys2Proof.Machine.execFcWriteMultipleCoils s
  | .fcWriteMultipleRegisters => Sys2Proof.Machine.execFcWriteMultipleRegisters s

end Sys2Proof.Machine
end

