-- ==== Sys2Proof/Machine/Step.lean ====
section
/-! DEFINITION. One step: the next turn of the schedule (log entries 1 and 2). -/

namespace Sys2Proof.Machine

/-- The engine's turn. A waiting decode that has a function code before it takes that byte as the instruction it
is (R96 to R103); otherwise the command in progress goes on (R63). -/
def engineTurn (s : State) : Host.Outcome State Fault Refusal :=
  match fetchFunctionCode s with
  | some (f, t) => exec (Instr.ofFunctionCode f) t
  | none => .next (resume s)

/-- The host issues a serialized command (R91): decoded by the block's variant (R92) and executed; a reserved `op`
completes with IllegalCommand (R93); bytes that are no descriptor are refused. -/
def issueCommand (bytes : List Byte) (s : State) : Host.Outcome State Fault Refusal :=
  match decode s.variant bytes with
  | .instr i [] => exec i s
  | .reservedOp _ [] => illegalCommand s
  | .instr _ (_ :: _) => .refused .malformedDescriptor
  | .reservedOp _ (_ :: _) => .refused .malformedDescriptor
  | .truncated => .refused .malformedDescriptor

/-- The host's turn. -/
def hostTurn (a : HostAction) (s : State) : Host.Outcome State Fault Refusal :=
  match a with
  | .issue bytes => issueCommand bytes s
  | .feed bs => hostFeed bs s
  | .endOfStream => hostEnd s
  | .timeout => hostTimeout s
  | .reset => hostReset s
  | .read r => hostRead r s

/-- One step: the next turn of the schedule is taken from it; when the host has nothing more to do, the engine
has every turn. -/
def step (s : State) : Host.Outcome State Fault Refusal :=
  match s.schedule with
  | [] => engineTurn s
  | .engine :: rest => engineTurn { s with schedule := rest }
  | .host a :: rest => hostTurn a { s with schedule := rest }

/-- `s` with the instruction of a word of the opcode table where the next step fetches it. A command is fetched
from the host: the host issues its descriptor next, and the engine is idle to accept it. A function code is fetched
from the stream by a decode: an RTU request decode that has its station id (0x00) has the byte before it, and the
engine moves next (log entry 14). -/
def State.withFetchWord (s : State) (nbits w : Nat) : State :=
  match tableFunctionCode nbits w with
  | some f =>
    { s with busy := true, progress := .rtuFunction .req 0x00, ibuf := f.code :: s.ibuf,
             schedule := .engine :: s.schedule }
  | none =>
    { s with busy := false, progress := .idle,
             schedule := .host (.issue (tableDescriptor nbits w)) :: s.schedule }

end Sys2Proof.Machine
end

