-- ==== Sys2Proof/Safety.lean ====
section
/-! DEFINITION. What a good state of the block is, and the terms the statements use: how a command leaves the
state when it ends (written out field by field, from R45, R235 and R236, not through the machine's own
operations), when a waiting decode has nothing to go on with, and when two outcomes differ in the checksum
register alone. -/

namespace Sys2Proof.Machine

/-! ## How a command ends -/

/-- `s` after a command that ended with an error: the code in `STATUS`, `R_VALID` 0, the block free, `IBUF` as
given, every result register's contents as before and none holding a value (R45, R236, R48). -/
def errorOutcome (code : Byte) (ibuf : List Byte) (s : State) : State :=
  { s with status := code, statusHeld := true, rValid := false, held := .nothing,
           busy := false, progress := .idle, srcTimeout := false, ibuf := ibuf }

/-- `s` after a command that ended with OK and wrote these five frame registers (R38, R45, R235). -/
def frameOutcome (tid : Half) (sid fc : Byte) (payload raw ibuf : List Byte) (s : State) : State :=
  { s with status := 0x00, statusHeld := true, rValid := true, held := .frame,
           busy := false, progress := .idle, srcTimeout := false, ibuf := ibuf,
           rTid := tid, rSid := sid, rFc := fc, rPayload := payload, rRaw := raw }

/-- `s` while a decode waits at `p`: BUSY, nothing written (R34, R63, R236). -/
def waitingOutcome (p : Progress) (ibuf : List Byte) (s : State) : State :=
  { s with busy := true, progress := p, ibuf := ibuf }

/-! ## The invariant -/

/-- The bytes of its frame that a waiting decode has consumed (R64, R182: a peek consumes none). -/
def Progress.taken : Progress → List Byte
  | .idle => []
  | .rtuStation _ => []
  | .rtuFunction _ sid => [sid]
  | .rtuHead _ sid fc got => sid :: fc.code :: got
  | .rtuData _ sid fc head got => sid :: fc.code :: (head ++ got)
  | .rtuChecksum _ sid fc payload got => sid :: fc.code :: (payload ++ got)
  | .tcpPeek => []
  | .tcpPayload header got => header ++ got

/-- A decode stands where a decode of this variant can wait: it still lacks a byte of the part it reads, and the
parts before are whole (R104, R141, R182). -/
def progressWellFormed (v : Variant) : Progress → Bool
  | .idle => true
  | .rtuStation _ => v = .rtu
  | .rtuFunction _ _ => v = .rtu
  | .rtuHead dir _ fc got => v = .rtu && got.length < headLength (rtuShape dir fc)
  | .rtuData dir _ fc head got =>
    v = .rtu && head.length = headLength (rtuShape dir fc) && got.length < dataLength (rtuShape dir fc) head
  | .rtuChecksum dir _ fc payload got => v = .rtu && wellShaped dir fc payload && got.length < 2
  | .tcpPeek => v = .tcp
  | .tcpPayload header got =>
    v = .tcp && header.length = 8 && readBe16 header 2 = 0x0000#16 && (decodeFunctionCode (byteAt header 7)).isSome
      && 2 ≤ (readBe16 header 4).toNat && got.length < tcpPayloadLength header

/-- The frame registers hold a frame of the variant: R40 and R42 under RTU, R41 under TCP. -/
def frameWellFormed (s : State) : Bool :=
  match s.variant with
  | .rtu => s.rTid = 0x0000 && s.rRaw = [s.rSid, s.rFc] ++ s.rPayload ++ le16 (crc16 ([s.rSid, s.rFc] ++ s.rPayload))
  | .tcp =>
    s.rPayload.length ≤ 65533 &&
      s.rRaw = be16 s.rTid ++ [0x00, 0x00] ++ be16 (BitVec.ofNat 16 (2 + s.rPayload.length)) ++ [s.rSid, s.rFc]
        ++ s.rPayload

/-- A good state of the block: every line holds after reset and every step keeps them together. -/
structure State.Inv (s : State) : Prop where
  /-- The waiting decode is one of this variant (R33, R141, R182). -/
  progress : progressWellFormed s.variant s.progress = true
  /-- BUSY exactly while a command is in progress (R34). -/
  busy : s.busy = true ↔ s.progress ≠ .idle
  /-- A TIMEOUT is pending only while BUSY (R62, R235, R236). -/
  timeout : s.srcTimeout = true → s.busy = true
  /-- `R_VALID` says that the result registers hold the last completed command's result (R36). -/
  valid : s.rValid = true ↔ s.held ≠ .nothing
  /-- `STATUS` is a legal code (R35, R231). -/
  legal : s.status.toNat ≤ 7
  /-- `R_VALID` is 1 exactly when the last completed command ended with OK (R36). -/
  status : s.rValid = true ↔ s.statusHeld = true ∧ s.status = 0x00
  /-- A frame in the result registers is a frame of the variant (R40, R41, R42). -/
  frame : s.held = .frame → frameWellFormed s = true
  /-- After CRC16, `R_RAW` is `R_CRC` low byte first (R39). -/
  checksum : s.held = .checksum → s.rRaw = le16 s.rCrc

/-! ## Terms of the statements -/

/-- A decode waits and cannot go on: no byte at all, or fewer than the 8 of the TCP peek (R63, R65). -/
def starved (s : State) : Bool :=
  match s.progress with
  | .idle => false
  | .tcpPeek => s.ibuf.length < 8
  | .rtuStation _ => s.ibuf = []
  | .rtuFunction _ _ => s.ibuf = []
  | .rtuHead _ _ _ _ => s.ibuf = []
  | .rtuData _ _ _ _ _ => s.ibuf = []
  | .rtuChecksum _ _ _ _ _ => s.ibuf = []
  | .tcpPayload _ _ => s.ibuf = []

/-- The engine has the next turn, and these turns follow. -/
def engineNext (s : State) (rest : List Turn) : Prop :=
  s.schedule = .engine :: rest ∨ (s.schedule = [] ∧ rest = [])

/-- A read of `r` by the host in `s` gives it the value `v`, and changes nothing else (R38, R79). -/
def readGives (r : HostReg) (v : RegValue) (s : State) : Prop :=
  ∀ rest, step { s with schedule := .host (.read r) :: rest } =
    .next { s with schedule := rest, copies := ⟨r, v⟩ :: s.copies }

/-- A read of `r` by the host in `s` faults (R48). -/
def readFaults (r : HostReg) (s : State) : Prop :=
  ∀ rest, step { s with schedule := .host (.read r) :: rest } = .fault (.registerHoldsNoValue r)

/-- Two outcomes that differ in the register `crc` alone (R47). -/
def sameButCrc : Result → Result → Prop
  | .next t, .next u => { t with crc := 0x0000 } = { u with crc := 0x0000 }
  | .fault f, .fault g => f = g
  | .refused f, .refused g => f = g
  | _, _ => False

end Sys2Proof.Machine
end

