-- ==== Sys2Proof/Certificates/Slice0/Obligations.lean ====
section
/-! DEFINITION. The statements for the provers, from the numbered rules of spec/. -/

open Sys2Proof Sys2Proof.Machine

/-! ## Encodings -/

/-- A few words written out from R91, R92, R95 (the descriptors of programs P1, P3 and P5). -/
def Obligations.WordsDecodeAsTheLayoutSays : Prop :=
  decode .rtu [0x00, 0x00, 0x00, 0x00, 0x00, 0x00, 0x02, 0x19, 0x98]
      = .instr (.crc16 ⟨0x0000, 0x00, 0x00, [0x19, 0x98]⟩) [] ∧
  decode .rtu [0x01, 0x00, 0x00, 0x01, 0x03, 0x00, 0x04, 0x00, 0x0B, 0x00, 0x09]
      = .instr (.encodeRtu ⟨0x0000, 0x01, 0x03, [0x00, 0x0B, 0x00, 0x09]⟩) [] ∧
  decode .tcp [0x01, 0x01, 0x02, 0x11, 0x06, 0x00, 0x04, 0x00, 0x01, 0x00, 0x03]
      = .instr (.encodeTcp ⟨0x0102, 0x11, 0x06, [0x00, 0x01, 0x00, 0x03]⟩) [] ∧
  decode .rtu [0x02, 0x00, 0x00, 0x00, 0x00, 0x00, 0x00] = .instr (.decodeReqRtu ⟨0, 0, 0, []⟩) [] ∧
  decode .tcp [0x02, 0x00, 0x00, 0x00, 0x00, 0x00, 0x00] = .instr (.decodeReqTcp ⟨0, 0, 0, []⟩) [] ∧
  decode .rtu [0x03, 0x00, 0x00, 0x00, 0x00, 0x00, 0x00] = .instr (.decodeRspRtu ⟨0, 0, 0, []⟩) [] ∧
  decode .tcp [0x03, 0x00, 0x00, 0x00, 0x00, 0x00, 0x00] = .instr (.decodeRspTcp ⟨0, 0, 0, []⟩) [] ∧
  decode .tcp [0x04, 0x00, 0x00, 0x00, 0x00, 0x00, 0x00] = .reservedOp 0x04 [] ∧
  decodeFunctionCode 0x0F = some .writeMultipleCoils ∧
  decodeFunctionCode 0x83 = none

/-- Every well-formed instruction decodes from its own words to itself, every field at every value, whatever
follows (R91, R92, R95). -/
def Obligations.EncodedInstructionDecodesToItself : Prop :=
  (∀ (v : Variant) (i : Instr) (rest : List Byte),
    i.isCommand = true → i.availableIn v = true → i.wellFormed = true →
      decode v (encode i ++ rest) = .instr i rest) ∧
  (∀ f : FunctionCode, ∃ b : Byte, encode (Instr.ofFunctionCode f) = [b] ∧ decodeFunctionCode b = some f)

/-- A command descriptor that decodes is the encoding of what it decodes to, which is well formed and belongs to
the variant (R91, R92); a function-code byte that decodes is the byte of its code (R95). -/
def Obligations.DecodedInstructionEncodesToItsBytes : Prop :=
  (∀ (v : Variant) (bs : List Byte) (i : Instr) (rest : List Byte), decode v bs = .instr i rest →
    bs = encode i ++ rest ∧ i.wellFormed = true ∧ i.isCommand = true ∧ i.availableIn v = true) ∧
  (∀ (b : Byte) (f : FunctionCode), decodeFunctionCode b = some f → encode (Instr.ofFunctionCode f) = [b])

/-! ## Steps and instructions -/

/-- The step runs the command the host issues: it takes the issue from the schedule and answers what `exec`
answers (R90 to R92). -/
def Obligations.StepExecutesIssuedCommand : Prop :=
  ∀ (s : State) (bytes : List Byte) (i : Instr) (rest : List Turn),
    s.schedule = .host (.issue bytes) :: rest → decode s.variant bytes = .instr i [] →
      step s = exec i { s with schedule := rest }

/-- The model's reading (log entry 11, DEDUCED): the step runs the function code a waiting decode has before it as an
instruction. Under RTU it is the byte at the head of `IBUF`, taken from it; under TCP byte 7 of the peeked header once
the protocol id is 0. The spec gives these rows as bytes inside a frame and does not itself say that a step runs one
(30_encoding section 2; where the bytes stand: 41_rtu_codec section 2, 42_tcp_codec section 2). -/
def Obligations.StepExecutesFunctionCode : Prop :=
  (∀ (s : State) (dir : Direction) (sid b : Byte) (bs : List Byte) (f : FunctionCode) (rest : List Turn),
    engineNext s rest → s.progress = .rtuFunction dir sid → s.ibuf = b :: bs → decodeFunctionCode b = some f →
      step s = exec (Instr.ofFunctionCode f) { s with schedule := rest, ibuf := bs }) ∧
  (∀ (s : State) (f : FunctionCode) (rest : List Turn),
    engineNext s rest → s.progress = .tcpPeek → 8 ≤ s.ibuf.length → readBe16 s.ibuf 2 = 0x0000#16 →
    decodeFunctionCode (byteAt s.ibuf 7) = some f →
      step s = exec (Instr.ofFunctionCode f) { s with schedule := rest })

/-- Taking a function code as an instruction, the model's reading (log entry 11, DEDUCED), is what going on with the
decode does: the decode that runs without a stop and the one that waited before the byte agree (the decode procedures
are those of 41_rtu_codec section 2 and 42_tcp_codec section 2). -/
def Obligations.FunctionCodeGoesOnWithTheDecode : Prop :=
  ∀ (s t : State) (f : FunctionCode), fetchFunctionCode s = some (f, t) →
    exec (Instr.ofFunctionCode f) t = .next (resume s)

/-- A reserved `op` completes at once with IllegalCommand, whatever the other bytes of its descriptor: no stream
byte is read and no result register is written but STATUS and R_VALID (R93, R240). -/
def Obligations.ReservedOpCompletesWithIllegalCommand : Prop :=
  ∀ (s : State) (op tidHi tidLo sid fc lenHi lenLo : Byte) (data : List Byte) (rest : List Turn),
    s.schedule = .host (.issue (op :: tidHi :: tidLo :: sid :: fc :: lenHi :: lenLo :: data)) :: rest →
    data.length = (word16 lenHi lenLo).toNat → 0x04 ≤ op.toNat → s.busy = false →
      step s = .next (errorOutcome 0x07 s.ibuf { s with schedule := rest })

/-- One command at a time: a command issued while BUSY, reserved ones included, is refused (R263). -/
def Obligations.CommandWhileBusyIsRefused : Prop :=
  (∀ (s : State) (i : Instr) (rest : List Turn),
    s.busy = true → i.isCommand = true → i.wellFormed = true → i.availableIn s.variant = true →
    s.schedule = .host (.issue (encode i)) :: rest → step s = .refused .commandWhileBusy) ∧
  (∀ (s : State) (op : Byte) (o : Operands) (rest : List Turn),
    s.busy = true → 0x04 ≤ op.toNat → o.wellFormed = true →
    s.schedule = .host (.issue (descriptor op o)) :: rest → step s = .refused .commandWhileBusy)

/-- The model's choice (log entry 10): bytes that are no whole descriptor, or more than one, are no command. -/
def Obligations.MalformedDescriptorIsRefused : Prop :=
  ∀ (s : State) (bytes : List Byte) (rest : List Turn), s.schedule = .host (.issue bytes) :: rest →
    (bytes.length < 7 ∨ bytes.length ≠ 7 + (readBe16 bytes 5).toNat) →
      step s = .refused .malformedDescriptor

/-- The model's choice (log entries 12 and 13): a command of the other variant, and a function code where no decode
is at one, have no meaning there. -/
def Obligations.InstructionOutOfPlaceIsRefused : Prop :=
  (∀ (s : State) (i : Instr), i.isCommand = true → i.availableIn s.variant = false →
    exec i s = .refused .notInThisVariant) ∧
  (∀ (s : State) (f : FunctionCode), s.progress ≠ .tcpPeek → (∀ dir sid, s.progress ≠ .rtuFunction dir sid) →
    exec (Instr.ofFunctionCode f) s = .refused .functionCodeOutsideFrame) ∧
  (∀ (s : State) (f : FunctionCode), s.progress = .tcpPeek →
    (s.ibuf.length < 8 ∨ readBe16 s.ibuf 2 ≠ 0x0000#16 ∨ byteAt s.ibuf 7 ≠ f.code) →
    exec (Instr.ofFunctionCode f) s = .refused .functionCodeOutsideFrame)

/-- Operand use (R94): a field marked ignored has no effect; the others are the bytes to checksum, the station id,
the function code, the payload and, under TCP, the transaction id; an RTU frame gets `R_TID = 0`. -/
def Obligations.IgnoredFieldsHaveNoEffect : Prop :=
  (∀ (s : State) (o o' : Operands), o.data = o'.data → exec (.crc16 o) s = exec (.crc16 o') s) ∧
  (∀ (s : State) (o o' : Operands), o.sid = o'.sid → o.fc = o'.fc → o.data = o'.data →
    exec (.encodeRtu o) s = exec (.encodeRtu o') s) ∧
  (∀ (s t : State) (o : Operands), exec (.crc16 o) s = .next t → t.rCrc = crc16 o.data) ∧
  (∀ (s t : State) (o : Operands), exec (.encodeRtu o) s = .next t →
    t.rTid = 0x0000 ∧ t.rSid = o.sid ∧ t.rFc = o.fc ∧ t.rPayload = o.data) ∧
  (∀ (s t : State) (o : Operands), exec (.encodeTcp o) s = .next t → o.data.length ≤ 65533 →
    t.rTid = o.tid ∧ t.rSid = o.sid ∧ t.rFc = o.fc ∧ t.rPayload = o.data) ∧
  (∀ (s : State) (o o' : Operands),
    exec (.decodeReqRtu o) s = exec (.decodeReqRtu o') s ∧ exec (.decodeRspRtu o) s = exec (.decodeRspRtu o') s ∧
    exec (.decodeReqTcp o) s = exec (.decodeReqTcp o') s ∧ exec (.decodeRspTcp o) s = exec (.decodeRspTcp o') s)

/-! ## The checksum -/

/-- R121, from the last byte: the empty sequence gives the initial value; one more byte is XORed into the low byte
of the register, then 8 times the register shifts right, with an XOR of 0xA001 when its low bit was 1. -/
def Obligations.ChecksumFollowsTheByteRule : Prop :=
  crc16 [] = 0xFFFF#16 ∧
  ∀ (s : List Byte) (b : Byte),
    crc16 (s ++ [b]) =
      (fun c : Half => if c.getLsbD 0 = true then (c >>> 1) ^^^ 0xA001#16 else c >>> 1)^[8]
        (crc16 s ^^^ b.setWidth 16)

/-- A sequence and two bytes have checksum 0 exactly when the two bytes are the sequence's own checksum, low byte
first ("Residue property", 40_checksum section 1; 41_rtu_codec section 2: the residue test gives the same verdict). -/
def Obligations.ResidueTestEqualsComparison : Prop :=
  ∀ (body : List Byte) (c0 c1 : Byte), crc16 (body ++ [c0, c1]) = 0x0000#16 ↔
    c0 = (crc16 body).extractLsb' 0 8 ∧ c1 = (crc16 body).extractLsb' 8 8

/-- Sequences that differ in one byte, so in one flipped bit of it too, have different checksums
(40_checksum section 1: "a single flipped bit in the input always changes the output"). -/
def Obligations.ChangedByteChangesTheChecksum : Prop :=
  ∀ (before after : List Byte) (x y : Byte), x ≠ y → crc16 (before ++ x :: after) ≠ crc16 (before ++ y :: after)

/-- CRC16, whole (R120): the checksum in `R_CRC`, its two bytes low byte first in `R_RAW`, OK; nothing else is
written, so the four other frame registers hold no value; the corner cases and the example. -/
def Obligations.Crc16WritesTheChecksum : Prop :=
  (∀ (s : State) (o : Operands), s.busy = false →
    exec (.crc16 o) s =
      .next { s with rCrc := crc16 o.data,
                     rRaw := [(crc16 o.data).extractLsb' 0 8, (crc16 o.data).extractLsb' 8 8],
                     crc := crc16 o.data, status := 0x00, statusHeld := true, rValid := true, held := .checksum,
                     srcTimeout := false, progress := .idle }) ∧
  (∀ (s t : State) (o : Operands), exec (.crc16 o) s = .next t →
    ∀ r ∈ [HostReg.rTid, .rSid, .rFc, .rPayload], holdsValue r t = false) ∧
  crc16 [] = 0xFFFF#16 ∧ crc16 [0x00] = 0x40BF#16 ∧ crc16 [0xFF] = 0x00FF#16 ∧
  crc16 [0x01, 0x03, 0x02, 0x19, 0x98] = 0x7EB2#16

/-! ## Encoders -/

/-- ENCODE under RTU always completes with OK and the frame station id, function code, payload, checksum low byte
first (R140). -/
def Obligations.EncodeRtuBuildsTheFrame : Prop :=
  (∀ (s : State) (o : Operands), s.variant = .rtu → s.busy = false →
    exec (.encodeRtu o) s =
      .next (frameOutcome 0x0000 o.sid o.fc o.data
        ([o.sid, o.fc] ++ o.data ++ [(crc16 ([o.sid, o.fc] ++ o.data)).extractLsb' 0 8,
                                     (crc16 ([o.sid, o.fc] ++ o.data)).extractLsb' 8 8])
        s.ibuf { s with crc := crc16 ([o.sid, o.fc] ++ o.data) })) ∧
  crc16 [0x01, 0x03, 0x00, 0x0B, 0x00, 0x09] = 0x0EF4#16

/-- ENCODE under TCP: the MBAP header and the payload, every 16-bit field high byte first, when the length field
can hold `2 + len(payload)` (R180); InvalidLength and no frame otherwise (R181). -/
def Obligations.EncodeTcpBuildsTheFrame : Prop :=
  (∀ (s : State) (o : Operands), s.variant = .tcp → s.busy = false → o.data.length ≤ 65533 →
    exec (.encodeTcp o) s =
      .next (frameOutcome o.tid o.sid o.fc o.data
        ([o.tid.extractLsb' 8 8, o.tid.extractLsb' 0 8, 0x00, 0x00,
          BitVec.ofNat 8 ((2 + o.data.length) / 256), BitVec.ofNat 8 ((2 + o.data.length) % 256), o.sid, o.fc]
          ++ o.data) s.ibuf s)) ∧
  (∀ (s : State) (o : Operands), s.variant = .tcp → s.busy = false → 65533 < o.data.length →
    exec (.encodeTcp o) s = .next (errorOutcome 0x04 s.ibuf s))

/-! ## RTU decode -/

/-- The shape table (R105). -/
def Obligations.ShapeTable : Prop :=
  (∀ f ∈ [FunctionCode.readCoils, .readDiscreteInputs, .readHoldingRegisters, .readInputRegisters,
      .writeSingleCoil, .writeSingleRegister], rtuShape .req f = .fixed4) ∧
  (∀ f ∈ [FunctionCode.writeMultipleCoils, .writeMultipleRegisters], rtuShape .req f = .hdr4Len) ∧
  (∀ f ∈ [FunctionCode.readCoils, .readDiscreteInputs, .readHoldingRegisters, .readInputRegisters],
      rtuShape .rsp f = .len) ∧
  (∀ f ∈ [FunctionCode.writeSingleCoil, .writeSingleRegister, .writeMultipleCoils, .writeMultipleRegisters],
      rtuShape .rsp f = .fixed4)

/-- DECODE_REQ and DECODE_RSP under RTU on a frame of their direction at the head of the stream: OK, the frame in
the result registers, exactly its bytes consumed (41_rtu_codec section 2). -/
def Obligations.RtuDecodeOfAFrameCompletes : Prop :=
  (∀ (s : State) (o : Operands) (sid : Byte) (f : FunctionCode) (p rest : List Byte),
    s.variant = .rtu → s.busy = false → wellShaped .req f p = true →
    s.ibuf = [sid, f.code] ++ p ++ le16 (crc16 ([sid, f.code] ++ p)) ++ rest →
      exec (.decodeReqRtu o) s =
        .next (frameOutcome 0x0000 sid f.code p ([sid, f.code] ++ p ++ le16 (crc16 ([sid, f.code] ++ p))) rest
          { s with crc := crc16 ([sid, f.code] ++ p) })) ∧
  (∀ (s : State) (o : Operands) (sid : Byte) (f : FunctionCode) (p rest : List Byte),
    s.variant = .rtu → s.busy = false → wellShaped .rsp f p = true →
    s.ibuf = [sid, f.code] ++ p ++ le16 (crc16 ([sid, f.code] ++ p)) ++ rest →
      exec (.decodeRspRtu o) s =
        .next (frameOutcome 0x0000 sid f.code p ([sid, f.code] ++ p ++ le16 (crc16 ([sid, f.code] ++ p))) rest
          { s with crc := crc16 ([sid, f.code] ++ p) }))

/-- A frame whose two last bytes are any bytes: OK only if both match, the first the low byte and the second the high
byte of the checksum. R146: on a mismatch ChecksumError, every byte of the frame consumed, no result register
written. -/
def Obligations.RtuChecksumIsVerified : Prop :=
  (∀ (s : State) (o : Operands) (sid c0 c1 : Byte) (f : FunctionCode) (p rest : List Byte),
    s.variant = .rtu → s.busy = false → wellShaped .req f p = true →
    s.ibuf = [sid, f.code] ++ p ++ [c0, c1] ++ rest →
      exec (.decodeReqRtu o) s =
        .next (if c0 = (crc16 ([sid, f.code] ++ p)).extractLsb' 0 8 ∧ c1 = (crc16 ([sid, f.code] ++ p)).extractLsb' 8 8
          then frameOutcome 0x0000 sid f.code p ([sid, f.code] ++ p ++ [c0, c1]) rest
            { s with crc := crc16 ([sid, f.code] ++ p) }
          else errorOutcome 0x02 rest { s with crc := crc16 ([sid, f.code] ++ p) })) ∧
  (∀ (s : State) (o : Operands) (sid c0 c1 : Byte) (f : FunctionCode) (p rest : List Byte),
    s.variant = .rtu → s.busy = false → wellShaped .rsp f p = true →
    s.ibuf = [sid, f.code] ++ p ++ [c0, c1] ++ rest →
      exec (.decodeRspRtu o) s =
        .next (if c0 = (crc16 ([sid, f.code] ++ p)).extractLsb' 0 8 ∧ c1 = (crc16 ([sid, f.code] ++ p)).extractLsb' 8 8
          then frameOutcome 0x0000 sid f.code p ([sid, f.code] ++ p ++ [c0, c1]) rest
            { s with crc := crc16 ([sid, f.code] ++ p) }
          else errorOutcome 0x02 rest { s with crc := crc16 ([sid, f.code] ++ p) }))

/-- R142: one byte of station id, any value, one byte of function code; a code outside the eight fails, with
exactly these two bytes consumed. -/
def Obligations.RtuUnknownFunctionCodeTakesTwoBytes : Prop :=
  ∀ (s : State) (o : Operands) (sid fc : Byte) (rest : List Byte),
    s.variant = .rtu → s.busy = false → s.ibuf = sid :: fc :: rest →
    fc ∉ ([0x01, 0x02, 0x03, 0x04, 0x05, 0x06, 0x0F, 0x10] : List Byte) →
      exec (.decodeReqRtu o) s = .next (errorOutcome 0x01 rest s) ∧
      exec (.decodeRspRtu o) s = .next (errorOutcome 0x01 rest s)

/-- A frame of which only a beginning is in the stream: with END signalled the decode ends with StreamExhausted,
otherwise it waits, BUSY, having written nothing; either way it has taken every byte there was (41_rtu_codec
section 2 on a stream that runs out; the position after the failure is the spec's choice D6, log entry 17). -/
def Obligations.RtuDecodeOfAFrameBeginning : Prop :=
  (∀ (s : State) (o : Operands) (sid c0 c1 : Byte) (f : FunctionCode) (p missing : List Byte),
    s.variant = .rtu → s.busy = false → s.srcTimeout = false → wellShaped .req f p = true → missing ≠ [] →
    s.ibuf ++ missing = [sid, f.code] ++ p ++ [c0, c1] →
      if s.srcEnd = true then exec (.decodeReqRtu o) s = .next (errorOutcome 0x05 [] s)
      else ∃ q : Progress, q ≠ .idle ∧ exec (.decodeReqRtu o) s = .next (waitingOutcome q [] s)) ∧
  (∀ (s : State) (o : Operands) (sid c0 c1 : Byte) (f : FunctionCode) (p missing : List Byte),
    s.variant = .rtu → s.busy = false → s.srcTimeout = false → wellShaped .rsp f p = true → missing ≠ [] →
    s.ibuf ++ missing = [sid, f.code] ++ p ++ [c0, c1] →
      if s.srcEnd = true then exec (.decodeRspRtu o) s = .next (errorOutcome 0x05 [] s)
      else ∃ q : Progress, q ≠ .idle ∧ exec (.decodeRspRtu o) s = .next (waitingOutcome q [] s))

/-- A decoded RTU frame has the length its shape gives (30_encoding section 3): 8, or 9 and the byte at offset 6,
or 5 and the byte at offset 2. -/
def Obligations.RtuFrameLengthFollowsTheShape : Prop :=
  ∀ (s t : State) (o : Operands) (dir : Direction) (i : Instr),
    ((dir = .req ∧ i = .decodeReqRtu o) ∨ (dir = .rsp ∧ i = .decodeRspRtu o)) →
    exec i s = .next t → t.busy = false → t.status = 0x00 →
      ∃ f : FunctionCode, t.rFc = f.code ∧
        (rtuShape dir f = .fixed4 → t.rRaw.length = 8) ∧
        (rtuShape dir f = .hdr4Len → t.rRaw.length = 9 + (byteAt t.rRaw 6).toNat) ∧
        (rtuShape dir f = .len → t.rRaw.length = 5 + (byteAt t.rRaw 2).toNat)

/-! ## Function codes inside an RTU frame -/

/-- R96 to R103: the byte of each of the eight codes, and its payload shape in an RTU request and in an RTU
response. -/
def Obligations.FunctionCodesHaveTheirShapes : Prop :=
  ∀ (fc : Byte) (f : FunctionCode) (req rsp : Shape),
    (fc, f, req, rsp) ∈ [((0x01 : Byte), FunctionCode.readCoils, Shape.fixed4, Shape.len),
      (0x02, .readDiscreteInputs, .fixed4, .len), (0x03, .readHoldingRegisters, .fixed4, .len),
      (0x04, .readInputRegisters, .fixed4, .len), (0x05, .writeSingleCoil, .fixed4, .fixed4),
      (0x06, .writeSingleRegister, .fixed4, .fixed4), (0x0F, .writeMultipleCoils, .hdr4Len, .fixed4),
      (0x10, .writeMultipleRegisters, .hdr4Len, .fixed4)] →
    f.code = fc ∧ decodeFunctionCode fc = some f ∧ rtuShape .req f = req ∧ rtuShape .rsp f = rsp

/-- The four read codes, executed as instructions, the model's reading of the table's rows (log entry 11). In a
request their payload is 4 bytes; in a response it is a length byte and that many data bytes. Taken where an RTU
decode is at its function code, with payload and checksum in the stream, the code completes the frame (30_encoding
section 2, 41_rtu_codec section 2). -/
def Obligations.ReadCodesSelectTheirShapes : Prop :=
  decodeFunctionCode 0x01 = some .readCoils ∧ decodeFunctionCode 0x02 = some .readDiscreteInputs ∧
  decodeFunctionCode 0x03 = some .readHoldingRegisters ∧ decodeFunctionCode 0x04 = some .readInputRegisters ∧
  ∀ (i : Instr) (fc : Byte),
    (i, fc) ∈ [(Instr.fcReadCoils, (0x01 : Byte)), (.fcReadDiscreteInputs, 0x02), (.fcReadHoldingRegisters, 0x03),
      (.fcReadInputRegisters, 0x04)] →
    (∀ (s : State) (sid a b c d : Byte) (rest : List Byte), s.progress = .rtuFunction .req sid →
      s.ibuf = [a, b, c, d] ++ le16 (crc16 [sid, fc, a, b, c, d]) ++ rest →
        exec i s = .next (frameOutcome 0x0000 sid fc [a, b, c, d]
          ([sid, fc, a, b, c, d] ++ le16 (crc16 [sid, fc, a, b, c, d])) rest
          { s with crc := crc16 [sid, fc, a, b, c, d] })) ∧
    (∀ (s : State) (sid l : Byte) (d rest : List Byte), s.progress = .rtuFunction .rsp sid → d.length = l.toNat →
      s.ibuf = l :: d ++ le16 (crc16 (sid :: fc :: l :: d)) ++ rest →
        exec i s = .next (frameOutcome 0x0000 sid fc (l :: d)
          (sid :: fc :: l :: d ++ le16 (crc16 (sid :: fc :: l :: d))) rest
          { s with crc := crc16 (sid :: fc :: l :: d) }))

/-- The two write-single codes, executed as instructions, the model's reading of the table's rows (log entry 11): a
payload of 4 bytes in both directions (30_encoding section 2, 41_rtu_codec section 2). -/
def Obligations.WriteSingleCodesSelectTheirShape : Prop :=
  decodeFunctionCode 0x05 = some .writeSingleCoil ∧ decodeFunctionCode 0x06 = some .writeSingleRegister ∧
  ∀ (i : Instr) (fc : Byte),
    (i, fc) ∈ [(Instr.fcWriteSingleCoil, (0x05 : Byte)), (.fcWriteSingleRegister, 0x06)] →
    ∀ (s : State) (dir : Direction) (sid a b c d : Byte) (rest : List Byte), s.progress = .rtuFunction dir sid →
      s.ibuf = [a, b, c, d] ++ le16 (crc16 [sid, fc, a, b, c, d]) ++ rest →
        exec i s = .next (frameOutcome 0x0000 sid fc [a, b, c, d]
          ([sid, fc, a, b, c, d] ++ le16 (crc16 [sid, fc, a, b, c, d])) rest
          { s with crc := crc16 [sid, fc, a, b, c, d] })

/-- The two write-multiple codes, executed as instructions, the model's reading of the table's rows (log entry 11;
30_encoding section 2, 41_rtu_codec section 2). A request has 4 bytes, a length byte and that many data bytes; a
response has 4 bytes (for 0x0F the spec's choice C1 among two readings of its source, log entry 20). -/
def Obligations.WriteMultipleCodesSelectTheirShapes : Prop :=
  decodeFunctionCode 0x0F = some .writeMultipleCoils ∧ decodeFunctionCode 0x10 = some .writeMultipleRegisters ∧
  ∀ (i : Instr) (fc : Byte),
    (i, fc) ∈ [(Instr.fcWriteMultipleCoils, (0x0F : Byte)), (.fcWriteMultipleRegisters, 0x10)] →
    (∀ (s : State) (sid a b c d l : Byte) (data rest : List Byte), s.progress = .rtuFunction .req sid →
      data.length = l.toNat →
      s.ibuf = a :: b :: c :: d :: l :: data ++ le16 (crc16 (sid :: fc :: a :: b :: c :: d :: l :: data)) ++ rest →
        exec i s = .next (frameOutcome 0x0000 sid fc (a :: b :: c :: d :: l :: data)
          (sid :: fc :: a :: b :: c :: d :: l :: data ++ le16 (crc16 (sid :: fc :: a :: b :: c :: d :: l :: data))) rest
          { s with crc := crc16 (sid :: fc :: a :: b :: c :: d :: l :: data) })) ∧
    (∀ (s : State) (sid a b c d : Byte) (rest : List Byte), s.progress = .rtuFunction .rsp sid →
      s.ibuf = [a, b, c, d] ++ le16 (crc16 [sid, fc, a, b, c, d]) ++ rest →
        exec i s = .next (frameOutcome 0x0000 sid fc [a, b, c, d]
          ([sid, fc, a, b, c, d] ++ le16 (crc16 [sid, fc, a, b, c, d])) rest
          { s with crc := crc16 [sid, fc, a, b, c, d] }))

/-! ## TCP decode -/

/-- DECODE_REQ and DECODE_RSP under TCP on an MBAP frame at the head of the stream, and each of the eight function
codes executed there as an instruction (log entry 11): OK, the frame in the result registers, exactly its bytes
consumed, with no condition on the payload (42_tcp_codec section 2). -/
def Obligations.TcpDecodeOfAFrameCompletes : Prop :=
  ∀ (s : State) (o : Operands) (tid : Half) (sid : Byte) (f : FunctionCode) (p rest : List Byte),
    p.length ≤ 65533 →
    s.ibuf = be16 tid ++ [0x00, 0x00] ++ be16 (BitVec.ofNat 16 (2 + p.length)) ++ [sid, f.code] ++ p ++ rest →
    (s.variant = .tcp → s.busy = false →
      exec (.decodeReqTcp o) s = .next (frameOutcome tid sid f.code p
        (be16 tid ++ [0x00, 0x00] ++ be16 (BitVec.ofNat 16 (2 + p.length)) ++ [sid, f.code] ++ p) rest s) ∧
      exec (.decodeRspTcp o) s = .next (frameOutcome tid sid f.code p
        (be16 tid ++ [0x00, 0x00] ++ be16 (BitVec.ofNat 16 (2 + p.length)) ++ [sid, f.code] ++ p) rest s)) ∧
    (s.progress = .tcpPeek →
      exec (Instr.ofFunctionCode f) s = .next (frameOutcome tid sid f.code p
        (be16 tid ++ [0x00, 0x00] ++ be16 (BitVec.ofNat 16 (2 + p.length)) ++ [sid, f.code] ++ p) rest s))

/-- R183, R188: a nonzero protocol id, whatever the function code, and a function code outside the eight, each
fail and consume exactly the first byte of the header. -/
def Obligations.TcpHeaderErrorSkipsOneByte : Prop :=
  (∀ (s : State) (o : Operands) (b0 b1 b2 b3 b4 b5 b6 b7 : Byte) (rest : List Byte),
    s.variant = .tcp → s.busy = false → s.ibuf = b0 :: b1 :: b2 :: b3 :: b4 :: b5 :: b6 :: b7 :: rest →
    ¬ (b2 = 0x00 ∧ b3 = 0x00) →
      exec (.decodeReqTcp o) s = .next (errorOutcome 0x03 (b1 :: b2 :: b3 :: b4 :: b5 :: b6 :: b7 :: rest) s) ∧
      exec (.decodeRspTcp o) s = .next (errorOutcome 0x03 (b1 :: b2 :: b3 :: b4 :: b5 :: b6 :: b7 :: rest) s)) ∧
  (∀ (s : State) (o : Operands) (b0 b1 b4 b5 b6 b7 : Byte) (rest : List Byte),
    s.variant = .tcp → s.busy = false → s.ibuf = b0 :: b1 :: 0x00 :: 0x00 :: b4 :: b5 :: b6 :: b7 :: rest →
    b7 ∉ ([0x01, 0x02, 0x03, 0x04, 0x05, 0x06, 0x0F, 0x10] : List Byte) →
      exec (.decodeReqTcp o) s = .next (errorOutcome 0x01 (b1 :: 0x00 :: 0x00 :: b4 :: b5 :: b6 :: b7 :: rest) s) ∧
      exec (.decodeRspTcp o) s = .next (errorOutcome 0x01 (b1 :: 0x00 :: 0x00 :: b4 :: b5 :: b6 :: b7 :: rest) s))

/-- A header that passes the first two checks with a length field below 2: InvalidLength, and one byte consumed.
The spec's choice D7 where its source is silent (42_tcp_codec section 2; log entry 18). -/
def Obligations.TcpShortLengthFieldSkipsOneByte : Prop :=
  ∀ (s : State) (o : Operands) (b0 b1 b5 b6 : Byte) (f : FunctionCode) (rest : List Byte),
    s.variant = .tcp → s.busy = false → b5.toNat < 2 →
    s.ibuf = b0 :: b1 :: 0x00 :: 0x00 :: 0x00 :: b5 :: b6 :: f.code :: rest →
      exec (.decodeReqTcp o) s = .next (errorOutcome 0x04 (b1 :: 0x00 :: 0x00 :: 0x00 :: b5 :: b6 :: f.code :: rest) s) ∧
      exec (.decodeRspTcp o) s = .next (errorOutcome 0x04 (b1 :: 0x00 :: 0x00 :: 0x00 :: b5 :: b6 :: f.code :: rest) s)

/-- Fewer than 8 bytes: the peek consumes none of them. With END signalled StreamExhausted, otherwise the decode
waits at the peek (20_memory section 3, 42_tcp_codec section 3; the choice of the position is D6, log entry 17). -/
def Obligations.TcpPeekConsumesNothing : Prop :=
  ∀ (s : State) (o : Operands), s.variant = .tcp → s.busy = false → s.srcTimeout = false → s.ibuf.length < 8 →
    (s.srcEnd = true → exec (.decodeReqTcp o) s = .next (errorOutcome 0x05 s.ibuf s) ∧
      exec (.decodeRspTcp o) s = .next (errorOutcome 0x05 s.ibuf s)) ∧
    (s.srcEnd = false → exec (.decodeReqTcp o) s = .next (waitingOutcome .tcpPeek s.ibuf s) ∧
      exec (.decodeRspTcp o) s = .next (waitingOutcome .tcpPeek s.ibuf s))

/-- A header that passes the three checks, with less than its payload in the stream: with END signalled
StreamExhausted, otherwise the decode waits in the payload; either way the header and every byte there was are
consumed (42_tcp_codec sections 2 and 3; the position is the spec's choice D6, log entry 17). -/
def Obligations.TcpDecodeOfAFrameBeginning : Prop :=
  ∀ (s : State) (o : Operands) (tid len : Half) (sid : Byte) (f : FunctionCode) (got : List Byte),
    s.variant = .tcp → s.busy = false → s.srcTimeout = false → 2 + got.length < len.toNat →
    s.ibuf = be16 tid ++ [0x00, 0x00] ++ be16 len ++ [sid, f.code] ++ got →
      (s.srcEnd = true → exec (.decodeReqTcp o) s = .next (errorOutcome 0x05 [] s) ∧
        exec (.decodeRspTcp o) s = .next (errorOutcome 0x05 [] s)) ∧
      (s.srcEnd = false → ∃ q : Progress, q ≠ .idle ∧ q ≠ .tcpPeek ∧
        exec (.decodeReqTcp o) s = .next (waitingOutcome q [] s) ∧
        exec (.decodeRspTcp o) s = .next (waitingOutcome q [] s))

/-! ## Both variants -/

/-- R40, R42: a frame that a command completes under RTU is its body and the checksum over all of it, low byte first,
and `R_TID` is 0: ENCODE, a decode that completes at once, and one that goes on after a wait. -/
def Obligations.RtuFrameInRegistersIsValid : Prop :=
  ∀ (s t : State) (o : Operands),
    exec (.encodeRtu o) s = .next t ∨ exec (.decodeReqRtu o) s = .next t ∨ exec (.decodeRspRtu o) s = .next t ∨
      (s.Inv ∧ s.variant = .rtu ∧ s.progress ≠ .idle ∧ resume s = t) →
    t.busy = false → t.status = 0x00 →
      t.rRaw = [t.rSid, t.rFc] ++ t.rPayload ++ le16 (crc16 ([t.rSid, t.rFc] ++ t.rPayload)) ∧
      t.rRaw.length = 4 + t.rPayload.length ∧ t.rTid = 0x0000

/-- R41: a frame that a command completes under TCP begins with the 8-byte header whose length field is
`2 + len(payload)`: ENCODE, a decode that completes at once, and one that goes on after a wait. -/
def Obligations.TcpFrameInRegistersIsValid : Prop :=
  ∀ (s t : State) (o : Operands),
    exec (.encodeTcp o) s = .next t ∨ exec (.decodeReqTcp o) s = .next t ∨ exec (.decodeRspTcp o) s = .next t ∨
      (s.Inv ∧ s.variant = .tcp ∧ s.progress ≠ .idle ∧ resume s = t) →
    t.busy = false → t.status = 0x00 →
      t.rRaw = be16 t.rTid ++ [0x00, 0x00] ++ be16 (BitVec.ofNat 16 (2 + t.rPayload.length)) ++ [t.rSid, t.rFc]
        ++ t.rPayload ∧
      t.rRaw.length = 8 + t.rPayload.length ∧ 2 + t.rPayload.length < 65536

/-- A frame that a function code executed as an instruction (log entry 11) completes is one of the variant, as one
that the decode itself completes (10_state section 6). -/
def Obligations.FunctionCodeFrameInRegistersIsValid : Prop :=
  ∀ (s t : State) (f : FunctionCode), s.Inv → exec (Instr.ofFunctionCode f) s = .next t →
    t.busy = false → t.status = 0x00 →
      t.rFc = f.code ∧
      (s.variant = .rtu → t.rTid = 0x0000 ∧
        t.rRaw = [t.rSid, t.rFc] ++ t.rPayload ++ le16 (crc16 ([t.rSid, t.rFc] ++ t.rPayload))) ∧
      (s.variant = .tcp → 2 + t.rPayload.length < 65536 ∧
        t.rRaw = be16 t.rTid ++ [0x00, 0x00] ++ be16 (BitVec.ofNat 16 (2 + t.rPayload.length)) ++ [t.rSid, t.rFc]
          ++ t.rPayload)

/-- R67: a decode that completes with OK has consumed exactly the bytes of its frame, at once or over its waits: while
it waits it has consumed exactly the bytes it holds, and a decode that goes on completes the frame they begin; a TCP
header error consumes exactly one byte. -/
def Obligations.DecodeConsumesExactlyItsFrame : Prop :=
  (∀ (s t : State) (o : Operands) (i : Instr),
    i ∈ [Instr.decodeReqRtu o, .decodeRspRtu o, .decodeReqTcp o, .decodeRspTcp o] → exec i s = .next t →
      (t.busy = false → t.status = 0x00 → s.ibuf = t.rRaw ++ t.ibuf) ∧
      (t.busy = true → s.ibuf = t.progress.taken ++ t.ibuf)) ∧
  (∀ s t : State, s.Inv → s.progress ≠ .idle → resume s = t →
    (t.busy = false → t.status = 0x00 → s.progress.taken ++ s.ibuf = t.rRaw ++ t.ibuf) ∧
    (t.busy = true → s.progress.taken ++ s.ibuf = t.progress.taken ++ t.ibuf)) ∧
  (∀ (s t : State) (o : Operands) (i : Instr), i ∈ [Instr.decodeReqTcp o, .decodeRspTcp o] →
    exec i s = .next t → t.busy = false → t.status ∈ ([0x01, 0x03, 0x04] : List Byte) →
      ∃ b : Byte, s.ibuf = b :: t.ibuf) ∧
  (∀ s t : State, s.progress = .tcpPeek → resume s = t → t.busy = false →
    t.status ∈ ([0x01, 0x03, 0x04] : List Byte) → ∃ b : Byte, s.ibuf = b :: t.ibuf)

/-- A function code taken as an instruction (log entry 11) goes on with the same count of bytes as the decode
(20_memory section 3): under RTU the station id and the code itself are consumed before it, under TCP nothing is. -/
def Obligations.FunctionCodeConsumesItsFrame : Prop :=
  (∀ (s t : State) (f : FunctionCode) (dir : Direction) (sid : Byte), s.progress = .rtuFunction dir sid →
    exec (Instr.ofFunctionCode f) s = .next t →
      (t.busy = false → t.status = 0x00 → sid :: f.code :: s.ibuf = t.rRaw ++ t.ibuf) ∧
      (t.busy = true → sid :: f.code :: s.ibuf = t.progress.taken ++ t.ibuf)) ∧
  (∀ (s t : State) (f : FunctionCode), s.progress = .tcpPeek → exec (Instr.ofFunctionCode f) s = .next t →
      (t.busy = false → t.status = 0x00 → s.ibuf = t.rRaw ++ t.ibuf) ∧
      (t.busy = true → s.ibuf = t.progress.taken ++ t.ibuf) ∧
      (t.busy = false → t.status = 0x04 → ∃ b : Byte, s.ibuf = b :: t.ibuf))

/-- What a decode and a function code executed as an instruction (log entry 11) leave unchanged (R45, the decode
rows, R74): the variant, END, `R_CRC`, the host's side, every flag bit that is not STATUS, R_VALID or BUSY; `IBUF`
only loses bytes at its head; the five frame registers unless the frame completed; STATUS and R_VALID while the
decode waits. -/
def Obligations.DecodeFrame : Prop :=
  ∀ (s t : State) (o : Operands) (f : FunctionCode) (i : Instr),
    i ∈ [Instr.decodeReqRtu o, .decodeRspRtu o, .decodeReqTcp o, .decodeRspTcp o, Instr.ofFunctionCode f] →
    exec i s = .next t →
      t.variant = s.variant ∧ t.srcEnd = s.srcEnd ∧ t.rCrc = s.rCrc ∧ t.schedule = s.schedule ∧
      t.copies = s.copies ∧ (∃ taken, s.ibuf = taken ++ t.ibuf) ∧ t.srcTimeout = (t.busy && s.srcTimeout) ∧
      (t.busy = true ∨ t.status ≠ 0x00 →
        t.rTid = s.rTid ∧ t.rSid = s.rSid ∧ t.rFc = s.rFc ∧ t.rPayload = s.rPayload ∧ t.rRaw = s.rRaw) ∧
      (t.busy = true → t.status = s.status ∧ t.statusHeld = s.statusHeld ∧ t.rValid = s.rValid ∧ t.held = s.held)

/-- RTU round trip (41_rtu_codec section 3): the frame ENCODE leaves in `R_RAW`, fed back with anything after it,
decodes in its direction to the same five registers and leaves the rest in `IBUF`. -/
def Obligations.RtuRoundTrip : Prop :=
  ∀ (s t : State) (o o' : Operands) (f : FunctionCode) (rest : List Byte), o.fc = f.code →
    exec (.encodeRtu o) s = .next t →
    (wellShaped .req f o.data = true → ∃ u, exec (.decodeReqRtu o') { t with ibuf := t.rRaw ++ rest } = .next u ∧
      u.status = 0x00 ∧ u.busy = false ∧ u.ibuf = rest ∧ u.rTid = 0x0000 ∧ u.rSid = o.sid ∧ u.rFc = o.fc ∧
      u.rPayload = o.data ∧ u.rRaw = t.rRaw) ∧
    (wellShaped .rsp f o.data = true → ∃ u, exec (.decodeRspRtu o') { t with ibuf := t.rRaw ++ rest } = .next u ∧
      u.status = 0x00 ∧ u.busy = false ∧ u.ibuf = rest ∧ u.rTid = 0x0000 ∧ u.rSid = o.sid ∧ u.rFc = o.fc ∧
      u.rPayload = o.data ∧ u.rRaw = t.rRaw)

/-- TCP round trip (42_tcp_codec section 3): as under RTU, with no condition on the payload's shape; a function
code outside the eight fails. -/
def Obligations.TcpRoundTrip : Prop :=
  ∀ (s t : State) (o o' : Operands) (rest : List Byte) (i : Instr), i ∈ [Instr.decodeReqTcp o', .decodeRspTcp o'] →
    exec (.encodeTcp o) s = .next t → o.data.length ≤ 65533 →
    (o.fc ∈ ([0x01, 0x02, 0x03, 0x04, 0x05, 0x06, 0x0F, 0x10] : List Byte) →
      ∃ u, exec i { t with ibuf := t.rRaw ++ rest } = .next u ∧
        u.status = 0x00 ∧ u.busy = false ∧ u.ibuf = rest ∧ u.rTid = o.tid ∧ u.rSid = o.sid ∧ u.rFc = o.fc ∧
        u.rPayload = o.data ∧ u.rRaw = t.rRaw) ∧
    (o.fc ∉ ([0x01, 0x02, 0x03, 0x04, 0x05, 0x06, 0x0F, 0x10] : List Byte) →
      ∃ u, exec i { t with ibuf := t.rRaw ++ rest } = .next u ∧ u.busy = false ∧ u.status = 0x01)

/-! ## Completion, waits and the host's actions -/

/-- R36: a command that completes, at once or after a wait, sets `R_VALID` to 1 with OK and to 0 with any other status,
a reserved `op` included, and then it says whether the result registers hold that command's result; RESET and reset leave it 0. -/
def Obligations.ValidExactlyAfterOk : Prop :=
  (∀ (i : Instr) (s t : State), exec i s = .next t ∨ (s.progress ≠ .idle ∧ resume s = t) → t.busy = false →
    (t.rValid = true ↔ t.status = 0x00) ∧ t.statusHeld = true ∧ (t.rValid = true ↔ t.held ≠ .nothing)) ∧
  (∀ s t : State, illegalCommand s = .next t → t.rValid = false ∧ t.status ≠ 0x00 ∧ t.statusHeld = true) ∧
  (∀ s t : State, hostReset s = .next t → t.rValid = false) ∧
  State.reset.rValid = false

/-- R245: no error is sticky. A command that completes, at once or when it goes on after a wait, leaves the same state
whatever the status, the valid bit and the holders of the result were before. -/
def Obligations.NoErrorIsSticky : Prop :=
  (∀ (i : Instr) (s t : State) (st : Byte) (sh v : Bool) (h : Held), exec i s = .next t → t.busy = false →
    exec i { s with status := st, statusHeld := sh, rValid := v, held := h } = .next t) ∧
  (∀ (s t : State) (st : Byte) (sh v : Bool) (h : Held), s.progress ≠ .idle → resume s = t → t.busy = false →
    resume { s with status := st, statusHeld := sh, rValid := v, held := h } = t)

/-- R63: what the bytes in `IBUF` allow is done first, as if no TIMEOUT and no END were signalled; a decode that is
then short of bytes takes a pending TIMEOUT first, then END, and otherwise stays BUSY; the engine's step on a decode
with nothing to go on with does just that. -/
def Obligations.WaitIsSettledInOrder : Prop :=
  (∀ s w : State, s.busy = true → s.progress ≠ .idle → w = resume { s with srcTimeout := false, srcEnd := false } →
    (w.busy = false → resume s = { w with srcEnd := s.srcEnd }) ∧
    (w.busy = true → resume s =
      if s.srcTimeout = true then errorOutcome 0x06 w.ibuf s
      else if s.srcEnd = true then errorOutcome 0x05 w.ibuf s
      else w)) ∧
  (∀ (s : State) (rest : List Turn), s.Inv → starved s = true → engineNext s rest →
    step s = .next (if s.srcTimeout = true then errorOutcome 0x06 s.ibuf { s with schedule := rest }
      else if s.srcEnd = true then errorOutcome 0x05 s.ibuf { s with schedule := rest }
      else { s with schedule := rest }))

/-- The engine's step in every state is going on with the command in progress (20_memory section 2; the engine's turns
are log entries 1 and 2): a decode at any place, with bytes to go on with or without, before a function code too, which
the step takes as an instruction with the same result (log entry 11), and a block with no command, which stays as it is
(log entry 4). It answers a next state always. -/
def Obligations.EngineStepGoesOnWithTheCommand : Prop :=
  ∀ (s : State) (rest : List Turn), engineNext s rest →
    step s = .next (resume { s with schedule := rest }) ∧ (s.progress = .idle → step s = .next { s with schedule := rest })

/-- A decode fed in two pieces, waiting in between, ends as the decode fed at once (20_memory sections 1 and 3:
"one-shot buffer decoding and continuous stream capture"). -/
def Obligations.FedInPiecesIsFedAtOnce : Prop :=
  ∀ (s : State) (a b : List Byte), s.Inv → s.srcTimeout = false → s.srcEnd = false →
    (resume { s with ibuf := s.ibuf ++ a }).busy = true →
      resume { resume { s with ibuf := s.ibuf ++ a } with
        ibuf := (resume { s with ibuf := s.ibuf ++ a }).ibuf ++ b } = resume { s with ibuf := s.ibuf ++ (a ++ b) }

/-- A decode command that waits goes on, when more bytes come, as the same command does that finds them all at its
issue (20_memory sections 2, 3 and 5: a decode that waits is still one command); so does a function code taken as an
instruction (log entry 11). -/
def Obligations.WaitingCommandIsTheSameCommand : Prop :=
  (∀ (s w : State) (o : Operands) (i : Instr) (b : List Byte),
    i ∈ [Instr.decodeReqRtu o, .decodeRspRtu o, .decodeReqTcp o, .decodeRspTcp o] →
    s.srcTimeout = false → s.srcEnd = false → exec i s = .next w → w.busy = true →
      exec i { s with ibuf := s.ibuf ++ b } = .next (resume { w with ibuf := w.ibuf ++ b })) ∧
  (∀ (s w : State) (f : FunctionCode) (b : List Byte),
    s.busy = true → s.srcTimeout = false → s.srcEnd = false → exec (Instr.ofFunctionCode f) s = .next w →
    w.busy = true →
      exec (Instr.ofFunctionCode f) { s with ibuf := s.ibuf ++ b } = .next (resume { w with ibuf := w.ibuf ++ b }))

/-- R62, R264: FEED appends in order and is refused after END; END sets its bit; TIMEOUT is pending while BUSY and
has no effect otherwise. -/
def Obligations.HostActsOnTheStream : Prop :=
  ∀ (s : State) (rest : List Turn),
    (∀ bs, s.schedule = .host (.feed bs) :: rest → s.srcEnd = false →
      step s = .next { s with schedule := rest, ibuf := s.ibuf ++ bs }) ∧
    (∀ bs, s.schedule = .host (.feed bs) :: rest → s.srcEnd = true → step s = .refused .feedAfterEnd) ∧
    (s.schedule = .host .endOfStream :: rest → step s = .next { s with schedule := rest, srcEnd := true }) ∧
    (s.schedule = .host .timeout :: rest → s.busy = true →
      step s = .next { s with schedule := rest, srcTimeout := true }) ∧
    (s.schedule = .host .timeout :: rest → s.busy = false → step s = .next { s with schedule := rest })

/-- R49, R260: RESET at any time, BUSY or not, leaves every piece of the block's state at its reset value, `VARIANT`
as it was, and STATUS and every result register without a value, so that a read faults; the host's side stays (log
entry 22). The same of the machine's own reset state. -/
def Obligations.ResetLeavesTheResetState : Prop :=
  (∀ (s : State) (rest : List Turn), s.schedule = .host .reset :: rest →
    ∃ t, step s = .next t ∧ t.variant = s.variant ∧ t.busy = false ∧ t.rValid = false ∧ t.ibuf = [] ∧
      t.srcEnd = false ∧ t.srcTimeout = false ∧ t.progress = .idle ∧ t.schedule = rest ∧ t.copies = s.copies ∧
      ∀ r ∈ [HostReg.status, .rTid, .rSid, .rFc, .rPayload, .rRaw, .rCrc], ∀ later,
        step { t with schedule := .host (.read r) :: later } = .fault (.registerHoldsNoValue r)) ∧
  (State.reset.busy = false ∧ State.reset.rValid = false ∧ State.reset.ibuf = [] ∧ State.reset.srcEnd = false ∧
    State.reset.srcTimeout = false ∧ State.reset.progress = .idle ∧
    ∀ r ∈ [HostReg.status, .rTid, .rSid, .rFc, .rPayload, .rRaw, .rCrc], ∀ later,
      step { State.reset with schedule := .host (.read r) :: later } = .fault (.registerHoldsNoValue r))

/-- R48: a read of a result register faults while `R_VALID` is 0 and where the last completed command did not write
it: the four other frame registers after CRC16, `R_CRC` after any other command. STATUS and R_VALID can be read once
a command has completed, a reserved one too, STATUS not before. -/
def Obligations.ReadWithoutValueFaults : Prop :=
  (∀ s : State, s.rValid = false → ∀ r ∈ [HostReg.rTid, .rSid, .rFc, .rPayload, .rRaw, .rCrc], readFaults r s) ∧
  (∀ (s t : State) (o : Operands), exec (.crc16 o) s = .next t →
    ∀ r ∈ [HostReg.rTid, .rSid, .rFc, .rPayload], readFaults r t) ∧
  (∀ (s t : State) (i : Instr),
    ((∀ o, i ≠ .crc16 o) ∧ exec i s = .next t) ∨ (s.progress ≠ .idle ∧ resume s = t) → t.busy = false →
      readFaults .rCrc t) ∧
  (∀ (s t : State) (i : Instr),
    exec i s = .next t ∨ illegalCommand s = .next t ∨ (s.progress ≠ .idle ∧ resume s = t) → t.busy = false →
      readGives .status (.byte t.status) t ∧ readGives .rValid (.bit (if t.rValid = true then 1 else 0)) t) ∧
  (∀ s : State, s.statusHeld = false → readFaults .status s)

/-- A read of a register that holds a value gives the host its contents, into its copies (10_state sections 3, 4 and
6): the five frame registers after a frame command that completes with OK, at once or after a wait; `R_CRC` and
`R_RAW` after CRC16; VARIANT, BUSY and R_VALID always. -/
def Obligations.ReadGivesTheContents : Prop :=
  (∀ (s t : State) (i : Instr),
    ((∀ o, i ≠ .crc16 o) ∧ exec i s = .next t) ∨ (s.progress ≠ .idle ∧ resume s = t) → t.busy = false →
    t.status = 0x00 →
      readGives .rTid (.half t.rTid) t ∧ readGives .rSid (.byte t.rSid) t ∧ readGives .rFc (.byte t.rFc) t ∧
      readGives .rPayload (.bytes t.rPayload) t ∧ readGives .rRaw (.bytes t.rRaw) t) ∧
  (∀ (s t : State) (o : Operands), exec (.crc16 o) s = .next t →
    readGives .rCrc (.half t.rCrc) t ∧ readGives .rRaw (.bytes t.rRaw) t) ∧
  (∀ s : State, readGives .variant (.bit (if s.variant = .tcp then 1 else 0)) s ∧
    readGives .busy (.bit (if s.busy = true then 1 else 0)) s ∧
    readGives .rValid (.bit (if s.rValid = true then 1 else 0)) s)

/-- R79: what the host has read does not change, whatever command overwrites the registers. -/
def Obligations.HostCopiesStayAsRead : Prop :=
  ∀ s t : State, step s = .next t → ∃ new, new.length ≤ 1 ∧ t.copies = new ++ s.copies

/-! ## Whole-machine rules -/

/-- R33: `VARIANT` is 0 for RTU and 1 for TCP, and no step changes it, RESET included. -/
def Obligations.VariantIsFixed : Prop :=
  (∀ s t : State, step s = .next t → t.variant = s.variant) ∧
  (∀ s : State, readGives .variant (.bit (if s.variant = .tcp then 1 else 0)) s)

/-- No instruction faults: an error of the block is a status (60_exceptions section 1). The one thing that stops a step
with a fault is the host's read of a register that holds no value (10_state section 11): STATUS before the first
command has completed, a result register while `R_VALID` is 0 or where the last command did not write it. -/
def Obligations.OnlyAReadWithoutValueFaults : Prop :=
  (∀ (i : Instr) (s : State) (f : Fault), exec i s ≠ .fault f) ∧
  (∀ (s : State) (f : Fault), s.Inv → step s = .fault f →
    ∃ (r : HostReg) (rest : List Turn), s.schedule = .host (.read r) :: rest ∧ f = .registerHoldsNoValue r ∧
      ((r = .status ∧ s.statusHeld = false) ∨
        (r ∈ [HostReg.rTid, .rSid, .rFc, .rPayload, .rRaw, .rCrc] ∧ s.rValid = false) ∨
        (r ∈ [HostReg.rTid, .rSid, .rFc, .rPayload] ∧ s.held = .checksum) ∨ (r = .rCrc ∧ s.held = .frame)))

/-- Only the codes 0x00 to 0x07 are ever written to STATUS (60_exceptions section 1). -/
def Obligations.StatusIsAlwaysALegalCode : Prop :=
  ∀ s t : State, step s = .next t → t.status ≠ s.status → t.status.toNat ≤ 7

/-- R47: the register `crc` is not observable. Two states that differ in it alone answer the same, up to it. -/
def Obligations.ChecksumRegisterIsNotObservable : Prop :=
  ∀ (s : State) (c : Half), sameButCrc (step s) (step { s with crc := c })

/-- The invariant holds at reset. -/
def Obligations.ResetIsAGoodState : Prop := State.reset.Inv

/-- Every step keeps the invariant: BUSY with the command in progress, a waiting decode well formed, `R_VALID` with
STATUS, legal codes, and the frame in the registers a frame of the variant (R34, R36, R40 to R42). -/
def Obligations.StepKeepsTheInvariant : Prop :=
  ∀ s t : State, s.Inv → step s = .next t → t.Inv

/-- With nothing from the host and no command in progress the block stays as it is (70_reset_and_hazards sections 1
and 2: after reset it waits for the host's first command; log entry 4). -/
def Obligations.IdleBlockStaysAsItIs : Prop :=
  ∀ s : State, s.schedule = [] → s.progress = .idle → step s = .next s
end

