-- ==== Sys2Proof/Laws/State.lean ====
section
/-! SUPPORT. Each field of the state after each named update: no proof needs to unfold a record update. -/

namespace Sys2Proof.Machine

/-! ## After `complete` -/

@[simp] theorem complete_variant (w : Held) (s : State) : (complete w s).variant = s.variant := rfl
@[simp] theorem complete_busy (w : Held) (s : State) : (complete w s).busy = false := rfl
@[simp] theorem complete_status (w : Held) (s : State) : (complete w s).status = Status.code .ok := rfl
@[simp] theorem complete_statusHeld (w : Held) (s : State) : (complete w s).statusHeld = true := rfl
@[simp] theorem complete_rValid (w : Held) (s : State) : (complete w s).rValid = true := rfl
@[simp] theorem complete_held (w : Held) (s : State) : (complete w s).held = w := rfl
@[simp] theorem complete_rTid (w : Held) (s : State) : (complete w s).rTid = s.rTid := rfl
@[simp] theorem complete_rSid (w : Held) (s : State) : (complete w s).rSid = s.rSid := rfl
@[simp] theorem complete_rFc (w : Held) (s : State) : (complete w s).rFc = s.rFc := rfl
@[simp] theorem complete_rPayload (w : Held) (s : State) : (complete w s).rPayload = s.rPayload := rfl
@[simp] theorem complete_rRaw (w : Held) (s : State) : (complete w s).rRaw = s.rRaw := rfl
@[simp] theorem complete_rCrc (w : Held) (s : State) : (complete w s).rCrc = s.rCrc := rfl
@[simp] theorem complete_crc (w : Held) (s : State) : (complete w s).crc = s.crc := rfl
@[simp] theorem complete_ibuf (w : Held) (s : State) : (complete w s).ibuf = s.ibuf := rfl
@[simp] theorem complete_srcEnd (w : Held) (s : State) : (complete w s).srcEnd = s.srcEnd := rfl
@[simp] theorem complete_srcTimeout (w : Held) (s : State) : (complete w s).srcTimeout = false := rfl
@[simp] theorem complete_progress (w : Held) (s : State) : (complete w s).progress = .idle := rfl
@[simp] theorem complete_schedule (w : Held) (s : State) : (complete w s).schedule = s.schedule := rfl
@[simp] theorem complete_copies (w : Held) (s : State) : (complete w s).copies = s.copies := rfl

/-! ## After `raise` -/

@[simp] theorem raise_variant (e : Status) (s : State) : (raise e s).variant = s.variant := rfl
@[simp] theorem raise_busy (e : Status) (s : State) : (raise e s).busy = false := rfl
@[simp] theorem raise_status (e : Status) (s : State) : (raise e s).status = e.code := rfl
@[simp] theorem raise_statusHeld (e : Status) (s : State) : (raise e s).statusHeld = true := rfl
@[simp] theorem raise_rValid (e : Status) (s : State) : (raise e s).rValid = false := rfl
@[simp] theorem raise_held (e : Status) (s : State) : (raise e s).held = .nothing := rfl
@[simp] theorem raise_rTid (e : Status) (s : State) : (raise e s).rTid = s.rTid := rfl
@[simp] theorem raise_rSid (e : Status) (s : State) : (raise e s).rSid = s.rSid := rfl
@[simp] theorem raise_rFc (e : Status) (s : State) : (raise e s).rFc = s.rFc := rfl
@[simp] theorem raise_rPayload (e : Status) (s : State) : (raise e s).rPayload = s.rPayload := rfl
@[simp] theorem raise_rRaw (e : Status) (s : State) : (raise e s).rRaw = s.rRaw := rfl
@[simp] theorem raise_rCrc (e : Status) (s : State) : (raise e s).rCrc = s.rCrc := rfl
@[simp] theorem raise_crc (e : Status) (s : State) : (raise e s).crc = s.crc := rfl
@[simp] theorem raise_ibuf (e : Status) (s : State) : (raise e s).ibuf = s.ibuf := rfl
@[simp] theorem raise_srcEnd (e : Status) (s : State) : (raise e s).srcEnd = s.srcEnd := rfl
@[simp] theorem raise_srcTimeout (e : Status) (s : State) : (raise e s).srcTimeout = false := rfl
@[simp] theorem raise_progress (e : Status) (s : State) : (raise e s).progress = .idle := rfl
@[simp] theorem raise_schedule (e : Status) (s : State) : (raise e s).schedule = s.schedule := rfl
@[simp] theorem raise_copies (e : Status) (s : State) : (raise e s).copies = s.copies := rfl

/-! ## After `completeFrame` -/

@[simp] theorem completeFrame_variant (tid : Half) (sid fc : Byte) (payload raw : List Byte) (s : State) : (completeFrame tid sid fc payload raw s).variant = s.variant := rfl
@[simp] theorem completeFrame_busy (tid : Half) (sid fc : Byte) (payload raw : List Byte) (s : State) : (completeFrame tid sid fc payload raw s).busy = false := rfl
@[simp] theorem completeFrame_status (tid : Half) (sid fc : Byte) (payload raw : List Byte) (s : State) : (completeFrame tid sid fc payload raw s).status = Status.code .ok := rfl
@[simp] theorem completeFrame_statusHeld (tid : Half) (sid fc : Byte) (payload raw : List Byte) (s : State) : (completeFrame tid sid fc payload raw s).statusHeld = true := rfl
@[simp] theorem completeFrame_rValid (tid : Half) (sid fc : Byte) (payload raw : List Byte) (s : State) : (completeFrame tid sid fc payload raw s).rValid = true := rfl
@[simp] theorem completeFrame_held (tid : Half) (sid fc : Byte) (payload raw : List Byte) (s : State) : (completeFrame tid sid fc payload raw s).held = .frame := rfl
@[simp] theorem completeFrame_rTid (tid : Half) (sid fc : Byte) (payload raw : List Byte) (s : State) : (completeFrame tid sid fc payload raw s).rTid = tid := rfl
@[simp] theorem completeFrame_rSid (tid : Half) (sid fc : Byte) (payload raw : List Byte) (s : State) : (completeFrame tid sid fc payload raw s).rSid = sid := rfl
@[simp] theorem completeFrame_rFc (tid : Half) (sid fc : Byte) (payload raw : List Byte) (s : State) : (completeFrame tid sid fc payload raw s).rFc = fc := rfl
@[simp] theorem completeFrame_rPayload (tid : Half) (sid fc : Byte) (payload raw : List Byte) (s : State) : (completeFrame tid sid fc payload raw s).rPayload = payload := rfl
@[simp] theorem completeFrame_rRaw (tid : Half) (sid fc : Byte) (payload raw : List Byte) (s : State) : (completeFrame tid sid fc payload raw s).rRaw = raw := rfl
@[simp] theorem completeFrame_rCrc (tid : Half) (sid fc : Byte) (payload raw : List Byte) (s : State) : (completeFrame tid sid fc payload raw s).rCrc = s.rCrc := rfl
@[simp] theorem completeFrame_crc (tid : Half) (sid fc : Byte) (payload raw : List Byte) (s : State) : (completeFrame tid sid fc payload raw s).crc = s.crc := rfl
@[simp] theorem completeFrame_ibuf (tid : Half) (sid fc : Byte) (payload raw : List Byte) (s : State) : (completeFrame tid sid fc payload raw s).ibuf = s.ibuf := rfl
@[simp] theorem completeFrame_srcEnd (tid : Half) (sid fc : Byte) (payload raw : List Byte) (s : State) : (completeFrame tid sid fc payload raw s).srcEnd = s.srcEnd := rfl
@[simp] theorem completeFrame_srcTimeout (tid : Half) (sid fc : Byte) (payload raw : List Byte) (s : State) : (completeFrame tid sid fc payload raw s).srcTimeout = false := rfl
@[simp] theorem completeFrame_progress (tid : Half) (sid fc : Byte) (payload raw : List Byte) (s : State) : (completeFrame tid sid fc payload raw s).progress = .idle := rfl
@[simp] theorem completeFrame_schedule (tid : Half) (sid fc : Byte) (payload raw : List Byte) (s : State) : (completeFrame tid sid fc payload raw s).schedule = s.schedule := rfl
@[simp] theorem completeFrame_copies (tid : Half) (sid fc : Byte) (payload raw : List Byte) (s : State) : (completeFrame tid sid fc payload raw s).copies = s.copies := rfl

/-! ## After `completeChecksum` -/

@[simp] theorem completeChecksum_variant (c : Half) (s : State) : (completeChecksum c s).variant = s.variant := rfl
@[simp] theorem completeChecksum_busy (c : Half) (s : State) : (completeChecksum c s).busy = false := rfl
@[simp] theorem completeChecksum_status (c : Half) (s : State) : (completeChecksum c s).status = Status.code .ok := rfl
@[simp] theorem completeChecksum_statusHeld (c : Half) (s : State) : (completeChecksum c s).statusHeld = true := rfl
@[simp] theorem completeChecksum_rValid (c : Half) (s : State) : (completeChecksum c s).rValid = true := rfl
@[simp] theorem completeChecksum_held (c : Half) (s : State) : (completeChecksum c s).held = .checksum := rfl
@[simp] theorem completeChecksum_rTid (c : Half) (s : State) : (completeChecksum c s).rTid = s.rTid := rfl
@[simp] theorem completeChecksum_rSid (c : Half) (s : State) : (completeChecksum c s).rSid = s.rSid := rfl
@[simp] theorem completeChecksum_rFc (c : Half) (s : State) : (completeChecksum c s).rFc = s.rFc := rfl
@[simp] theorem completeChecksum_rPayload (c : Half) (s : State) : (completeChecksum c s).rPayload = s.rPayload := rfl
@[simp] theorem completeChecksum_rRaw (c : Half) (s : State) : (completeChecksum c s).rRaw = le16 c := rfl
@[simp] theorem completeChecksum_rCrc (c : Half) (s : State) : (completeChecksum c s).rCrc = c := rfl
@[simp] theorem completeChecksum_crc (c : Half) (s : State) : (completeChecksum c s).crc = s.crc := rfl
@[simp] theorem completeChecksum_ibuf (c : Half) (s : State) : (completeChecksum c s).ibuf = s.ibuf := rfl
@[simp] theorem completeChecksum_srcEnd (c : Half) (s : State) : (completeChecksum c s).srcEnd = s.srcEnd := rfl
@[simp] theorem completeChecksum_srcTimeout (c : Half) (s : State) : (completeChecksum c s).srcTimeout = false := rfl
@[simp] theorem completeChecksum_progress (c : Half) (s : State) : (completeChecksum c s).progress = .idle := rfl
@[simp] theorem completeChecksum_schedule (c : Half) (s : State) : (completeChecksum c s).schedule = s.schedule := rfl
@[simp] theorem completeChecksum_copies (c : Half) (s : State) : (completeChecksum c s).copies = s.copies := rfl

/-! ## After `runChecksum` -/

@[simp] theorem runChecksum_variant (bs : List Byte) (s : State) : (runChecksum bs s).variant = s.variant := rfl
@[simp] theorem runChecksum_busy (bs : List Byte) (s : State) : (runChecksum bs s).busy = s.busy := rfl
@[simp] theorem runChecksum_status (bs : List Byte) (s : State) : (runChecksum bs s).status = s.status := rfl
@[simp] theorem runChecksum_statusHeld (bs : List Byte) (s : State) : (runChecksum bs s).statusHeld = s.statusHeld := rfl
@[simp] theorem runChecksum_rValid (bs : List Byte) (s : State) : (runChecksum bs s).rValid = s.rValid := rfl
@[simp] theorem runChecksum_held (bs : List Byte) (s : State) : (runChecksum bs s).held = s.held := rfl
@[simp] theorem runChecksum_rTid (bs : List Byte) (s : State) : (runChecksum bs s).rTid = s.rTid := rfl
@[simp] theorem runChecksum_rSid (bs : List Byte) (s : State) : (runChecksum bs s).rSid = s.rSid := rfl
@[simp] theorem runChecksum_rFc (bs : List Byte) (s : State) : (runChecksum bs s).rFc = s.rFc := rfl
@[simp] theorem runChecksum_rPayload (bs : List Byte) (s : State) : (runChecksum bs s).rPayload = s.rPayload := rfl
@[simp] theorem runChecksum_rRaw (bs : List Byte) (s : State) : (runChecksum bs s).rRaw = s.rRaw := rfl
@[simp] theorem runChecksum_rCrc (bs : List Byte) (s : State) : (runChecksum bs s).rCrc = s.rCrc := rfl
@[simp] theorem runChecksum_crc (bs : List Byte) (s : State) : (runChecksum bs s).crc = crc16 bs := rfl
@[simp] theorem runChecksum_ibuf (bs : List Byte) (s : State) : (runChecksum bs s).ibuf = s.ibuf := rfl
@[simp] theorem runChecksum_srcEnd (bs : List Byte) (s : State) : (runChecksum bs s).srcEnd = s.srcEnd := rfl
@[simp] theorem runChecksum_srcTimeout (bs : List Byte) (s : State) : (runChecksum bs s).srcTimeout = s.srcTimeout := rfl
@[simp] theorem runChecksum_progress (bs : List Byte) (s : State) : (runChecksum bs s).progress = s.progress := rfl
@[simp] theorem runChecksum_schedule (bs : List Byte) (s : State) : (runChecksum bs s).schedule = s.schedule := rfl
@[simp] theorem runChecksum_copies (bs : List Byte) (s : State) : (runChecksum bs s).copies = s.copies := rfl

/-! ## After `streamDiscard` -/

@[simp] theorem streamDiscard_variant (n : Nat) (s : State) : (streamDiscard n s).variant = s.variant := rfl
@[simp] theorem streamDiscard_busy (n : Nat) (s : State) : (streamDiscard n s).busy = s.busy := rfl
@[simp] theorem streamDiscard_status (n : Nat) (s : State) : (streamDiscard n s).status = s.status := rfl
@[simp] theorem streamDiscard_statusHeld (n : Nat) (s : State) : (streamDiscard n s).statusHeld = s.statusHeld := rfl
@[simp] theorem streamDiscard_rValid (n : Nat) (s : State) : (streamDiscard n s).rValid = s.rValid := rfl
@[simp] theorem streamDiscard_held (n : Nat) (s : State) : (streamDiscard n s).held = s.held := rfl
@[simp] theorem streamDiscard_rTid (n : Nat) (s : State) : (streamDiscard n s).rTid = s.rTid := rfl
@[simp] theorem streamDiscard_rSid (n : Nat) (s : State) : (streamDiscard n s).rSid = s.rSid := rfl
@[simp] theorem streamDiscard_rFc (n : Nat) (s : State) : (streamDiscard n s).rFc = s.rFc := rfl
@[simp] theorem streamDiscard_rPayload (n : Nat) (s : State) : (streamDiscard n s).rPayload = s.rPayload := rfl
@[simp] theorem streamDiscard_rRaw (n : Nat) (s : State) : (streamDiscard n s).rRaw = s.rRaw := rfl
@[simp] theorem streamDiscard_rCrc (n : Nat) (s : State) : (streamDiscard n s).rCrc = s.rCrc := rfl
@[simp] theorem streamDiscard_crc (n : Nat) (s : State) : (streamDiscard n s).crc = s.crc := rfl
@[simp] theorem streamDiscard_ibuf (n : Nat) (s : State) : (streamDiscard n s).ibuf = s.ibuf.drop n := rfl
@[simp] theorem streamDiscard_srcEnd (n : Nat) (s : State) : (streamDiscard n s).srcEnd = s.srcEnd := rfl
@[simp] theorem streamDiscard_srcTimeout (n : Nat) (s : State) : (streamDiscard n s).srcTimeout = s.srcTimeout := rfl
@[simp] theorem streamDiscard_progress (n : Nat) (s : State) : (streamDiscard n s).progress = s.progress := rfl
@[simp] theorem streamDiscard_schedule (n : Nat) (s : State) : (streamDiscard n s).schedule = s.schedule := rfl
@[simp] theorem streamDiscard_copies (n : Nat) (s : State) : (streamDiscard n s).copies = s.copies := rfl

/-! ## After `errorOutcome` -/

@[simp] theorem errorOutcome_variant (code : Byte) (rest : List Byte) (s : State) : (errorOutcome code rest s).variant = s.variant := rfl
@[simp] theorem errorOutcome_busy (code : Byte) (rest : List Byte) (s : State) : (errorOutcome code rest s).busy = false := rfl
@[simp] theorem errorOutcome_status (code : Byte) (rest : List Byte) (s : State) : (errorOutcome code rest s).status = code := rfl
@[simp] theorem errorOutcome_statusHeld (code : Byte) (rest : List Byte) (s : State) : (errorOutcome code rest s).statusHeld = true := rfl
@[simp] theorem errorOutcome_rValid (code : Byte) (rest : List Byte) (s : State) : (errorOutcome code rest s).rValid = false := rfl
@[simp] theorem errorOutcome_held (code : Byte) (rest : List Byte) (s : State) : (errorOutcome code rest s).held = .nothing := rfl
@[simp] theorem errorOutcome_rTid (code : Byte) (rest : List Byte) (s : State) : (errorOutcome code rest s).rTid = s.rTid := rfl
@[simp] theorem errorOutcome_rSid (code : Byte) (rest : List Byte) (s : State) : (errorOutcome code rest s).rSid = s.rSid := rfl
@[simp] theorem errorOutcome_rFc (code : Byte) (rest : List Byte) (s : State) : (errorOutcome code rest s).rFc = s.rFc := rfl
@[simp] theorem errorOutcome_rPayload (code : Byte) (rest : List Byte) (s : State) : (errorOutcome code rest s).rPayload = s.rPayload := rfl
@[simp] theorem errorOutcome_rRaw (code : Byte) (rest : List Byte) (s : State) : (errorOutcome code rest s).rRaw = s.rRaw := rfl
@[simp] theorem errorOutcome_rCrc (code : Byte) (rest : List Byte) (s : State) : (errorOutcome code rest s).rCrc = s.rCrc := rfl
@[simp] theorem errorOutcome_crc (code : Byte) (rest : List Byte) (s : State) : (errorOutcome code rest s).crc = s.crc := rfl
@[simp] theorem errorOutcome_ibuf (code : Byte) (rest : List Byte) (s : State) : (errorOutcome code rest s).ibuf = rest := rfl
@[simp] theorem errorOutcome_srcEnd (code : Byte) (rest : List Byte) (s : State) : (errorOutcome code rest s).srcEnd = s.srcEnd := rfl
@[simp] theorem errorOutcome_srcTimeout (code : Byte) (rest : List Byte) (s : State) : (errorOutcome code rest s).srcTimeout = false := rfl
@[simp] theorem errorOutcome_progress (code : Byte) (rest : List Byte) (s : State) : (errorOutcome code rest s).progress = .idle := rfl
@[simp] theorem errorOutcome_schedule (code : Byte) (rest : List Byte) (s : State) : (errorOutcome code rest s).schedule = s.schedule := rfl
@[simp] theorem errorOutcome_copies (code : Byte) (rest : List Byte) (s : State) : (errorOutcome code rest s).copies = s.copies := rfl

/-! ## After `frameOutcome` -/

@[simp] theorem frameOutcome_variant (tid : Half) (sid fc : Byte) (payload raw rest : List Byte) (s : State) : (frameOutcome tid sid fc payload raw rest s).variant = s.variant := rfl
@[simp] theorem frameOutcome_busy (tid : Half) (sid fc : Byte) (payload raw rest : List Byte) (s : State) : (frameOutcome tid sid fc payload raw rest s).busy = false := rfl
@[simp] theorem frameOutcome_status (tid : Half) (sid fc : Byte) (payload raw rest : List Byte) (s : State) : (frameOutcome tid sid fc payload raw rest s).status = 0x00 := rfl
@[simp] theorem frameOutcome_statusHeld (tid : Half) (sid fc : Byte) (payload raw rest : List Byte) (s : State) : (frameOutcome tid sid fc payload raw rest s).statusHeld = true := rfl
@[simp] theorem frameOutcome_rValid (tid : Half) (sid fc : Byte) (payload raw rest : List Byte) (s : State) : (frameOutcome tid sid fc payload raw rest s).rValid = true := rfl
@[simp] theorem frameOutcome_held (tid : Half) (sid fc : Byte) (payload raw rest : List Byte) (s : State) : (frameOutcome tid sid fc payload raw rest s).held = .frame := rfl
@[simp] theorem frameOutcome_rTid (tid : Half) (sid fc : Byte) (payload raw rest : List Byte) (s : State) : (frameOutcome tid sid fc payload raw rest s).rTid = tid := rfl
@[simp] theorem frameOutcome_rSid (tid : Half) (sid fc : Byte) (payload raw rest : List Byte) (s : State) : (frameOutcome tid sid fc payload raw rest s).rSid = sid := rfl
@[simp] theorem frameOutcome_rFc (tid : Half) (sid fc : Byte) (payload raw rest : List Byte) (s : State) : (frameOutcome tid sid fc payload raw rest s).rFc = fc := rfl
@[simp] theorem frameOutcome_rPayload (tid : Half) (sid fc : Byte) (payload raw rest : List Byte) (s : State) : (frameOutcome tid sid fc payload raw rest s).rPayload = payload := rfl
@[simp] theorem frameOutcome_rRaw (tid : Half) (sid fc : Byte) (payload raw rest : List Byte) (s : State) : (frameOutcome tid sid fc payload raw rest s).rRaw = raw := rfl
@[simp] theorem frameOutcome_rCrc (tid : Half) (sid fc : Byte) (payload raw rest : List Byte) (s : State) : (frameOutcome tid sid fc payload raw rest s).rCrc = s.rCrc := rfl
@[simp] theorem frameOutcome_crc (tid : Half) (sid fc : Byte) (payload raw rest : List Byte) (s : State) : (frameOutcome tid sid fc payload raw rest s).crc = s.crc := rfl
@[simp] theorem frameOutcome_ibuf (tid : Half) (sid fc : Byte) (payload raw rest : List Byte) (s : State) : (frameOutcome tid sid fc payload raw rest s).ibuf = rest := rfl
@[simp] theorem frameOutcome_srcEnd (tid : Half) (sid fc : Byte) (payload raw rest : List Byte) (s : State) : (frameOutcome tid sid fc payload raw rest s).srcEnd = s.srcEnd := rfl
@[simp] theorem frameOutcome_srcTimeout (tid : Half) (sid fc : Byte) (payload raw rest : List Byte) (s : State) : (frameOutcome tid sid fc payload raw rest s).srcTimeout = false := rfl
@[simp] theorem frameOutcome_progress (tid : Half) (sid fc : Byte) (payload raw rest : List Byte) (s : State) : (frameOutcome tid sid fc payload raw rest s).progress = .idle := rfl
@[simp] theorem frameOutcome_schedule (tid : Half) (sid fc : Byte) (payload raw rest : List Byte) (s : State) : (frameOutcome tid sid fc payload raw rest s).schedule = s.schedule := rfl
@[simp] theorem frameOutcome_copies (tid : Half) (sid fc : Byte) (payload raw rest : List Byte) (s : State) : (frameOutcome tid sid fc payload raw rest s).copies = s.copies := rfl

/-! ## After `waitingOutcome` -/

@[simp] theorem waitingOutcome_variant (p : Progress) (rest : List Byte) (s : State) : (waitingOutcome p rest s).variant = s.variant := rfl
@[simp] theorem waitingOutcome_busy (p : Progress) (rest : List Byte) (s : State) : (waitingOutcome p rest s).busy = true := rfl
@[simp] theorem waitingOutcome_status (p : Progress) (rest : List Byte) (s : State) : (waitingOutcome p rest s).status = s.status := rfl
@[simp] theorem waitingOutcome_statusHeld (p : Progress) (rest : List Byte) (s : State) : (waitingOutcome p rest s).statusHeld = s.statusHeld := rfl
@[simp] theorem waitingOutcome_rValid (p : Progress) (rest : List Byte) (s : State) : (waitingOutcome p rest s).rValid = s.rValid := rfl
@[simp] theorem waitingOutcome_held (p : Progress) (rest : List Byte) (s : State) : (waitingOutcome p rest s).held = s.held := rfl
@[simp] theorem waitingOutcome_rTid (p : Progress) (rest : List Byte) (s : State) : (waitingOutcome p rest s).rTid = s.rTid := rfl
@[simp] theorem waitingOutcome_rSid (p : Progress) (rest : List Byte) (s : State) : (waitingOutcome p rest s).rSid = s.rSid := rfl
@[simp] theorem waitingOutcome_rFc (p : Progress) (rest : List Byte) (s : State) : (waitingOutcome p rest s).rFc = s.rFc := rfl
@[simp] theorem waitingOutcome_rPayload (p : Progress) (rest : List Byte) (s : State) : (waitingOutcome p rest s).rPayload = s.rPayload := rfl
@[simp] theorem waitingOutcome_rRaw (p : Progress) (rest : List Byte) (s : State) : (waitingOutcome p rest s).rRaw = s.rRaw := rfl
@[simp] theorem waitingOutcome_rCrc (p : Progress) (rest : List Byte) (s : State) : (waitingOutcome p rest s).rCrc = s.rCrc := rfl
@[simp] theorem waitingOutcome_crc (p : Progress) (rest : List Byte) (s : State) : (waitingOutcome p rest s).crc = s.crc := rfl
@[simp] theorem waitingOutcome_ibuf (p : Progress) (rest : List Byte) (s : State) : (waitingOutcome p rest s).ibuf = rest := rfl
@[simp] theorem waitingOutcome_srcEnd (p : Progress) (rest : List Byte) (s : State) : (waitingOutcome p rest s).srcEnd = s.srcEnd := rfl
@[simp] theorem waitingOutcome_srcTimeout (p : Progress) (rest : List Byte) (s : State) : (waitingOutcome p rest s).srcTimeout = s.srcTimeout := rfl
@[simp] theorem waitingOutcome_progress (p : Progress) (rest : List Byte) (s : State) : (waitingOutcome p rest s).progress = p := rfl
@[simp] theorem waitingOutcome_schedule (p : Progress) (rest : List Byte) (s : State) : (waitingOutcome p rest s).schedule = s.schedule := rfl
@[simp] theorem waitingOutcome_copies (p : Progress) (rest : List Byte) (s : State) : (waitingOutcome p rest s).copies = s.copies := rfl

end Sys2Proof.Machine
end

