-- ==== Sys2Proof/Laws/Bytes.lean ====
section
/-! SUPPORT. The byte-order helpers, the function codes, and the command decoder: what each can answer. -/

namespace Sys2Proof

@[simp] theorem lo8_word16 (hi lo : Byte) : lo8 (word16 hi lo) = lo := by
  apply BitVec.eq_of_getLsbD_eq
  intro i hi'
  simp [lo8, word16, hi']

@[simp] theorem hi8_word16 (hi lo : Byte) : hi8 (word16 hi lo) = hi := by
  apply BitVec.eq_of_getLsbD_eq
  intro i hi'
  have h16 : i < 16 := by omega
  have h24 : i + 8 < 16 := by omega
  simp [hi8, word16, hi', h16, h24, Nat.add_comm 8 i]

@[simp] theorem word16_hi8_lo8 (v : Half) : word16 (hi8 v) (lo8 v) = v := by
  apply BitVec.eq_of_getLsbD_eq
  intro i h
  by_cases h8 : i < 8
  · simp [lo8, hi8, word16, h8, h]
  · have : i - 8 < 8 := by omega
    have e : 8 + (i - 8) = i := by omega
    simp [lo8, hi8, word16, h8, h, this, e]

theorem lo8_eq_extract (v : Half) : lo8 v = v.extractLsb' 0 8 := by
  apply BitVec.eq_of_getLsbD_eq
  intro i h
  simp [lo8, h]

theorem hi8_eq_extract (v : Half) : hi8 v = v.extractLsb' 8 8 := by
  apply BitVec.eq_of_getLsbD_eq
  intro i h
  simp [hi8, h]

@[simp] theorem word16_toNat (hi lo : Byte) : (word16 hi lo).toNat = hi.toNat * 256 + lo.toNat := by
  have h1 := hi.isLt
  have h2 := lo.isLt
  have : (hi.toNat <<< 8) ||| lo.toNat = hi.toNat * 256 + lo.toNat := by
    rw [← Nat.shiftLeft_add_eq_or_of_lt (by omega : lo.toNat < 2 ^ 8), Nat.shiftLeft_eq]
  simp only [word16, BitVec.toNat_or, BitVec.toNat_shiftLeft, BitVec.toNat_setWidth]
  rw [Nat.mod_eq_of_lt (by omega : hi.toNat < 2 ^ 16), Nat.mod_eq_of_lt (by omega : lo.toNat < 2 ^ 16),
    Nat.mod_eq_of_lt (by rw [Nat.shiftLeft_eq]; omega), this]

@[simp] theorem word16_zero : word16 0 0 = 0#16 := by decide

theorem word16_eq_zero (hi lo : Byte) : word16 hi lo = 0#16 ↔ hi = 0 ∧ lo = 0 := by
  constructor
  · intro h
    have hn := congrArg BitVec.toNat h
    rw [word16_toNat] at hn
    simp at hn
    exact ⟨BitVec.eq_of_toNat_eq (by simpa using hn.1), BitVec.eq_of_toNat_eq (by simpa using hn.2)⟩
  · rintro ⟨rfl, rfl⟩
    exact word16_zero

@[simp] theorem be16_word16 (hi lo : Byte) : be16 (word16 hi lo) = [hi, lo] := by simp [be16]

@[simp] theorem be16_length (v : Half) : (be16 v).length = 2 := rfl

@[simp] theorem le16_length (v : Half) : (le16 v).length = 2 := rfl

/-! ## Function codes -/

@[simp] theorem decodeFunctionCode_code (f : FunctionCode) : decodeFunctionCode f.code = some f := by
  cases f <;> decide

theorem code_of_decodeFunctionCode {b : Byte} {f : FunctionCode} (h : decodeFunctionCode b = some f) :
    f.code = b := by
  unfold decodeFunctionCode at h
  repeat' split at h
  all_goals first
    | (cases h; done)
    | (simp only [Option.some.injEq] at h; subst h; simp_all [FunctionCode.code])

theorem decodeFunctionCode_none_iff (b : Byte) :
    decodeFunctionCode b = none ↔ b ∉ ([0x01, 0x02, 0x03, 0x04, 0x05, 0x06, 0x0F, 0x10] : List Byte) := by
  unfold decodeFunctionCode
  repeat' split
  all_goals simp_all

@[simp] theorem encode_ofFunctionCode (f : FunctionCode) : encode (Instr.ofFunctionCode f) = [f.code] := by
  cases f <;> rfl

/-! ## Commands -/

/-- What an `op` byte can decode to: a command of the variant that carries the operands, or nothing, and then the
`op` is reserved. -/
theorem decodeOp_cases (v : Variant) (op : Byte) (o : Operands) :
    (decodeOp v op o = some (.crc16 o) ∧ op = 0x00) ∨
    (decodeOp v op o = some (.encodeRtu o) ∧ op = 0x01 ∧ v = .rtu) ∨
    (decodeOp v op o = some (.encodeTcp o) ∧ op = 0x01 ∧ v = .tcp) ∨
    (decodeOp v op o = some (.decodeReqRtu o) ∧ op = 0x02 ∧ v = .rtu) ∨
    (decodeOp v op o = some (.decodeReqTcp o) ∧ op = 0x02 ∧ v = .tcp) ∨
    (decodeOp v op o = some (.decodeRspRtu o) ∧ op = 0x03 ∧ v = .rtu) ∨
    (decodeOp v op o = some (.decodeRspTcp o) ∧ op = 0x03 ∧ v = .tcp) ∨
    (decodeOp v op o = none ∧ 0x04 ≤ op.toNat) := by
  unfold decodeOp
  by_cases h0 : op = 0x00
  · simp [h0]
  by_cases h1 : op = 0x01
  · cases v <;> simp [h1]
  by_cases h2 : op = 0x02
  · cases v <;> simp [h2]
  by_cases h3 : op = 0x03
  · cases v <;> simp [h3]
  have key : 0x04 ≤ op.toNat := by
    by_contra hc
    have : op.toNat = 0 ∨ op.toNat = 1 ∨ op.toNat = 2 ∨ op.toNat = 3 := by omega
    rcases this with h | h | h | h
    · exact h0 (BitVec.eq_of_toNat_eq h)
    · exact h1 (BitVec.eq_of_toNat_eq h)
    · exact h2 (BitVec.eq_of_toNat_eq h)
    · exact h3 (BitVec.eq_of_toNat_eq h)
  simp only [h0, h1, h2, h3, key, if_false, and_false, false_and, false_or, and_true]

theorem decodeOp_reserved {v : Variant} {op : Byte} {o : Operands} (h : 0x04 ≤ op.toNat) :
    decodeOp v op o = none := by
  rcases decodeOp_cases v op o with ⟨-, rfl⟩ | ⟨-, rfl, -⟩ | ⟨-, rfl, -⟩ | ⟨-, rfl, -⟩ | ⟨-, rfl, -⟩ | ⟨-, rfl, -⟩ |
    ⟨-, rfl, -⟩ | ⟨h', -⟩
  all_goals first
    | exact absurd h (by decide)
    | exact h'

/-- The decoder on a descriptor with its fields in place. -/
theorem decode_fields (v : Variant) (op tidHi tidLo sid fc lenHi lenLo : Byte) (data rest : List Byte)
    (h : data.length = (word16 lenHi lenLo).toNat) :
    decode v (op :: tidHi :: tidLo :: sid :: fc :: lenHi :: lenLo :: (data ++ rest)) =
      decodedAs op rest (decodeOp v op ⟨word16 tidHi tidLo, sid, fc, data⟩) := by
  simp [decode, ← h]

/-- The decoder on an encoded descriptor. -/
theorem decode_descriptor (v : Variant) (op : Byte) (o : Operands) (rest : List Byte) (h : o.wellFormed = true) :
    decode v (descriptor op o ++ rest) = decodedAs op rest (decodeOp v op o) := by
  have hlen : o.data.length ≤ 65535 := of_decide_eq_true h
  have := decode_fields v op (hi8 o.tid) (lo8 o.tid) o.sid o.fc (hi8 (BitVec.ofNat 16 o.data.length))
    (lo8 (BitVec.ofNat 16 o.data.length)) o.data rest
    (by rw [word16_hi8_lo8]; simp [BitVec.toNat_ofNat]; omega)
  simpa [descriptor, be16] using this

/-- The decoder answers "truncated" exactly when the bytes end before the descriptor does. -/
theorem decode_cases (v : Variant) (bs : List Byte) :
    (decode v bs = .truncated ∧ (bs.length < 7 ∨ bs.length < 7 + (readBe16 bs 5).toNat)) ∨
    ∃ op o rest, o.wellFormed = true ∧ bs = descriptor op o ++ rest ∧
      bs.length = 7 + (readBe16 bs 5).toNat + rest.length ∧
      decode v bs = decodedAs op rest (decodeOp v op o) := by
  match bs with
  | [] => simp [decode]
  | [_] => simp [decode]
  | [_, _] => simp [decode]
  | [_, _, _] => simp [decode]
  | [_, _, _, _] => simp [decode]
  | [_, _, _, _, _] => simp [decode]
  | [_, _, _, _, _, _] => simp [decode]
  | op :: tidHi :: tidLo :: sid :: fc :: lenHi :: lenLo :: tail =>
    have hr : readBe16 (op :: tidHi :: tidLo :: sid :: fc :: lenHi :: lenLo :: tail) 5 = word16 lenHi lenLo := rfl
    by_cases h : (word16 lenHi lenLo).toNat ≤ tail.length
    · right
      refine ⟨op, ⟨word16 tidHi tidLo, sid, fc, tail.take (word16 lenHi lenLo).toNat⟩,
        tail.drop (word16 lenHi lenLo).toNat, ?_, ?_, ?_, ?_⟩
      · have := (word16 lenHi lenLo).isLt
        simp only [Operands.wellFormed, Config.maxData, List.length_take, decide_eq_true_eq]
        omega
      · have hl : BitVec.ofNat 16 (min (word16 lenHi lenLo).toNat tail.length) = word16 lenHi lenLo := by
          rw [Nat.min_eq_left h]; simp [-word16_toNat]
        simp only [descriptor, List.length_take, hl, be16_word16]
        simp
      · rw [hr]
        simp only [List.length_cons, List.length_drop]
        omega
      · simp only [decode, h, if_true]
    · left
      refine ⟨by simp only [decode, h, if_false], .inr ?_⟩
      rw [hr]
      simp only [List.length_cons]
      omega

end Sys2Proof
end

