-- ==== Sys2Proof/Laws/Ops.lean ====
section
/-! SUPPORT. What each shared operation can answer, once: accepting, ending and waiting, the three stream
primitives. Proofs cite these and do not unfold the operations. -/

namespace Sys2Proof.Machine

/-! ## Ending -/

theorem raise_eq (e : Status) (s : State) : raise e s = errorOutcome e.code s.ibuf s := rfl

theorem raise_after_discard (e : Status) (n : Nat) (s : State) :
    raise e (streamDiscard n s) = errorOutcome e.code (s.ibuf.drop n) s := rfl

theorem completeFrame_eq (tid : Half) (sid fc : Byte) (payload raw : List Byte) (s : State) :
    completeFrame tid sid fc payload raw s = frameOutcome tid sid fc payload raw s.ibuf s := rfl

theorem Status.code_legal (e : Status) : e.code.toNat ≤ 7 := by cases e <;> decide

theorem Status.code_eq_zero (e : Status) : e.code = 0x00 ↔ e = .ok := by cases e <;> decide

/-! ## Accepting -/

/-- A command that answers a next state was free to start, and ran from the accepted state. -/
theorem accept_next {run : State → State} {s t : State} (h : accept run s = .next t) :
    s.busy = false ∧ t = run { s with busy := true } := by
  unfold accept at h
  split at h
  · cases h
  · next hb => exact ⟨by simpa using hb, by simpa using h.symm⟩

theorem accept_free {run : State → State} {s : State} (h : s.busy = false) :
    accept run s = .next (run { s with busy := true }) := by simp [accept, h]

theorem accept_busy {run : State → State} {s : State} (h : s.busy = true) :
    accept run s = .refused .commandWhileBusy := by simp [accept, h]

theorem acceptUnder_next {v : Variant} {run : State → State} {s t : State} (h : acceptUnder v run s = .next t) :
    s.variant = v ∧ s.busy = false ∧ t = run { s with busy := true } := by
  unfold acceptUnder at h
  split at h
  · next hv => exact ⟨hv, accept_next h⟩
  · cases h

theorem acceptUnder_free {v : Variant} {run : State → State} {s : State} (hv : s.variant = v) (h : s.busy = false) :
    acceptUnder v run s = .next (run { s with busy := true }) := by simp [acceptUnder, hv, accept, h]

theorem acceptUnder_busy {v : Variant} {run : State → State} {s : State} (hv : s.variant = v) (h : s.busy = true) :
    acceptUnder v run s = .refused .commandWhileBusy := by simp [acceptUnder, hv, accept, h]

/-- Accepting a command never faults. -/
theorem accept_ne_fault (run : State → State) (s : State) (f : Fault) : accept run s ≠ .fault f := by
  unfold accept; split <;> intro h <;> cases h

theorem acceptUnder_ne_fault (v : Variant) (run : State → State) (s : State) (f : Fault) :
    acceptUnder v run s ≠ .fault f := by
  unfold acceptUnder
  split
  · exact accept_ne_fault run s f
  · intro h; cases h

/-! ## Waiting -/

/-- The three ways a wait is settled (R63). -/
theorem await_cases (p : Progress) (s : State) :
    (s.srcTimeout = true ∧ await p s = errorOutcome 0x06 s.ibuf s) ∨
    (s.srcTimeout = false ∧ s.srcEnd = true ∧ await p s = errorOutcome 0x05 s.ibuf s) ∨
    (s.srcTimeout = false ∧ s.srcEnd = false ∧ await p s = waitingOutcome p s.ibuf s) := by
  unfold await
  by_cases ht : s.srcTimeout = true
  · exact .inl ⟨ht, by rw [if_pos ht]; rfl⟩
  · have ht' : s.srcTimeout = false := by simpa using ht
    by_cases he : s.srcEnd = true
    · exact .inr (.inl ⟨ht', he, by rw [if_neg ht, if_pos he]; rfl⟩)
    · have he' : s.srcEnd = false := by simpa using he
      exact .inr (.inr ⟨ht', he', by rw [if_neg ht, if_neg he]; rfl⟩)

/-! ## The stream primitives -/

/-- A read whose bytes are in the stream takes exactly them. -/
theorem streamRead_enough {n : Nat} {got bs rest : List Byte} {p : List Byte → Progress} {s : State}
    (h : s.ibuf = bs ++ rest) (hn : got.length + bs.length = n) :
    streamRead n got p s = .bytes (got ++ bs) { s with ibuf := rest } := by
  have h1 : n - got.length = bs.length := by omega
  have h2 : n ≤ got.length + s.ibuf.length := by simp [h]; omega
  rw [streamRead, if_pos h2]
  simp [h1, h]

/-- A read whose bytes are not all in the stream takes what there is and waits. -/
theorem streamRead_short {n : Nat} {got : List Byte} {p : List Byte → Progress} {s : State}
    (h : got.length + s.ibuf.length < n) :
    streamRead n got p s = .stopped (await (p (got ++ s.ibuf)) { s with ibuf := [] }) := by
  have : ¬ n ≤ got.length + s.ibuf.length := by omega
  simp [streamRead, this]

/-- A read that lacks a byte and finds one takes it: one byte at a time, as R64 says. -/
theorem streamRead_takes_one {n : Nat} {got rest : List Byte} {b : Byte} {p : List Byte → Progress} {s : State}
    (hs : s.ibuf = b :: rest) (hn : got.length < n) :
    streamRead n got p s = streamRead n (got ++ [b]) p { s with ibuf := rest } := by
  unfold streamRead
  have e : n - got.length = (n - (got.length + 1)) + 1 := by omega
  simp only [hs, List.length_cons, List.length_append, List.length_nil, Nat.zero_add]
  by_cases h : n ≤ got.length + (rest.length + 1)
  · have h' : n ≤ got.length + 1 + rest.length := by omega
    simp [h, h', e]
  · have h' : ¬ n ≤ got.length + 1 + rest.length := by omega
    simp [h, h']

/-- Either a read takes a front part of the stream and is done, or it takes all and waits. -/
theorem streamRead_cases (n : Nat) (got : List Byte) (p : List Byte → Progress) (s : State) :
    (∃ bs rest, s.ibuf = bs ++ rest ∧ streamRead n got p s = .bytes (got ++ bs) { s with ibuf := rest } ∧
      (got.length ≤ n → (got ++ bs).length = n)) ∨
    (got.length + s.ibuf.length < n ∧
      streamRead n got p s = .stopped (await (p (got ++ s.ibuf)) { s with ibuf := [] })) := by
  by_cases h : n ≤ got.length + s.ibuf.length
  · left
    refine ⟨s.ibuf.take (n - got.length), s.ibuf.drop (n - got.length), by simp, by simp [streamRead, h], ?_⟩
    intro hg
    simp only [List.length_append, List.length_take]
    omega
  · exact .inr ⟨by omega, streamRead_short (by omega)⟩

/-- A peek that finds its bytes changes nothing; one that does not waits, and consumes nothing (R65). -/
theorem streamPeek_cases (n : Nat) (p : Progress) (s : State) :
    (∃ h rest, s.ibuf = h ++ rest ∧ h.length = n ∧ streamPeek n p s = .bytes h s) ∨
    (s.ibuf.length < n ∧ streamPeek n p s = .stopped (await p s)) := by
  by_cases h : n ≤ s.ibuf.length
  · exact .inl ⟨s.ibuf.take n, s.ibuf.drop n, by simp, by simp [h], by simp [streamPeek, h]⟩
  · exact .inr ⟨by omega, by simp [streamPeek, h]⟩

end Sys2Proof.Machine
end

