-- ==== Sys2Proof/Laws/Decodes.lean ====
section
/-! SUPPORT. How a decode can end, once for all its stages: with an error, with a frame, or waiting; what it has
then consumed, and, where it started from a good point, that the frame is a frame of the variant and the place it
waits at is well formed. -/

namespace Sys2Proof.Machine

/-- These five values make a frame of the variant: R40 and R42, or R41. -/
def frameValid (v : Variant) (tid : Half) (sid fc : Byte) (payload raw : List Byte) : Prop :=
  match v with
  | .rtu => tid = 0x0000 ∧ raw = sid :: fc :: payload ++ le16 (crc16 (sid :: fc :: payload))
  | .tcp => payload.length ≤ 65533 ∧ raw = mbapHeader tid (BitVec.ofNat 16 (2 + payload.length)) sid fc ++ payload

/-- The ways a decode of variant `v` ends from `s`, of whose frame `pre` was taken before; `good` says that the
stage it started at was well formed. -/
inductive DecodeOutcome (v : Variant) (good : Prop) (pre : List Byte) (s : State) : State → Prop
  | error (e : Status) (c : Half) (taken rest : List Byte) (he : e ≠ .ok) (hi : s.ibuf = taken ++ rest) :
      DecodeOutcome v good pre s (errorOutcome e.code rest { s with crc := c })
  | frame (tid : Half) (sid fc : Byte) (payload raw : List Byte) (c : Half) (taken rest : List Byte)
      (hi : s.ibuf = taken ++ rest)
      (hv : good → raw = pre ++ taken ∧ frameValid v tid sid fc payload raw ∧ ∃ f : FunctionCode, fc = f.code) :
      DecodeOutcome v good pre s (frameOutcome tid sid fc payload raw rest { s with crc := c })
  | waiting (p : Progress) (taken rest : List Byte) (hp : p ≠ .idle) (hi : s.ibuf = taken ++ rest)
      (ht : s.srcTimeout = false) (he : s.srcEnd = false) (hk : p.taken = pre ++ taken)
      (hw : good → progressWellFormed v p = true) :
      DecodeOutcome v good pre s (waitingOutcome p rest s)

/-- A later stage's end is an end of the stage before it, which took `bs`. -/
theorem DecodeOutcome.after {v : Variant} {good good' : Prop} {pre bs rest : List Byte} {s t : State}
    (hs : s.ibuf = bs ++ rest) (hg : good → good')
    (h : DecodeOutcome v good' (pre ++ bs) { s with ibuf := rest } t) : DecodeOutcome v good pre s t := by
  cases h with
  | error e c taken r he hi =>
    exact .error e c (bs ++ taken) r he (by simp only at hi; rw [hs, hi, List.append_assoc])
  | frame tid sid fc payload raw c taken r hi hv =>
    refine .frame tid sid fc payload raw c (bs ++ taken) r (by simp only at hi; rw [hs, hi, List.append_assoc]) ?_
    intro g
    obtain ⟨h1, h2⟩ := hv (hg g)
    exact ⟨by rw [h1, List.append_assoc], h2⟩
  | waiting p taken r hp hi ht he hk hw =>
    exact .waiting p (bs ++ taken) r hp (by simp only at hi; rw [hs, hi, List.append_assoc]) ht he
      (by rw [hk, List.append_assoc]) (fun g => hw (hg g))

/-- A read that cannot finish ends the decode or leaves it waiting. -/
theorem await_outcome {v : Variant} {good : Prop} {pre : List Byte} {p : Progress} {s : State} (taken rest : List Byte)
    (hs : s.ibuf = taken ++ rest) (hp : p ≠ .idle) (hk : p.taken = pre ++ taken)
    (hw : good → progressWellFormed v p = true) :
    DecodeOutcome v good pre s (await p { s with ibuf := rest }) := by
  rcases await_cases p { s with ibuf := rest } with ⟨-, h⟩ | ⟨-, -, h⟩ | ⟨h1, h2, h⟩
  · rw [h]; exact .error .transportTimeout s.crc taken rest (by decide) hs
  · rw [h]; exact .error .streamExhausted s.crc taken rest (by decide) hs
  · rw [h]; exact .waiting p taken rest hp hs h1 h2 hk hw

/-! ## RTU -/

theorem rtuVerify_outcome (good : Prop) (sid : Byte) (f : FunctionCode) (payload c : List Byte) (s : State) :
    DecodeOutcome .rtu good (sid :: f.code :: (payload ++ c)) s (rtuVerify sid f payload c s) := by
  unfold rtuVerify
  split
  · next h =>
    refine .frame 0 sid f.code payload _ _ [] s.ibuf (by simp) (fun _ => ⟨by simp, ⟨rfl, ?_⟩, f, rfl⟩)
    rw [h]; rfl
  · exact .error .checksumError _ [] s.ibuf (by decide) (by simp)

theorem rtuChecksum_outcome (dir : Direction) (sid : Byte) (f : FunctionCode) (payload got : List Byte) (s : State) :
    DecodeOutcome .rtu (wellShaped dir f payload = true) (sid :: f.code :: (payload ++ got)) s
      (rtuChecksum dir sid f payload got s) := by
  unfold rtuChecksum
  rcases streamRead_cases 2 got (.rtuChecksum dir sid f payload) s with ⟨bs, rest, hs, hr, -⟩ | ⟨hlt, hr⟩
  · rw [hr]
    refine DecodeOutcome.after hs (fun h => h) ?_
    have := rtuVerify_outcome (wellShaped dir f payload = true) sid f payload (got ++ bs) { s with ibuf := rest }
    simpa [List.append_assoc] using this
  · rw [hr]
    refine await_outcome s.ibuf [] (by simp) (by simp) (by simp [Progress.taken]) (fun g => ?_)
    simp only [progressWellFormed, g, decide_true, Bool.true_and, List.length_append]
    exact decide_eq_true hlt

/-- The shape fixes when a payload of a head and its data is well shaped. -/
theorem wellShaped_of_lengths {dir : Direction} {f : FunctionCode} {head d : List Byte}
    (hh : head.length = headLength (rtuShape dir f)) (hd : d.length = dataLength (rtuShape dir f) head) :
    wellShaped dir f (head ++ d) = true := by
  unfold wellShaped
  cases hsh : rtuShape dir f <;> rw [hsh] at hh hd <;> simp only [headLength, dataLength] at hh hd
  · simp [hh, hd]
  · have : byteAt (head ++ d) 4 = byteAt head 4 := by
      simp [byteAt, List.getD_eq_getElem?_getD, List.getElem?_append_left (show 4 < head.length by omega)]
    simp [hh, hd, this]
  · have : byteAt (head ++ d) 0 = byteAt head 0 := by
      simp [byteAt, List.getD_eq_getElem?_getD, List.getElem?_append_left (show 0 < head.length by omega)]
    simp [hh, hd, this]

/-- A well-shaped payload splits into its head and the data the head counts. -/
theorem lengths_of_wellShaped {dir : Direction} {f : FunctionCode} {p : List Byte} (h : wellShaped dir f p = true) :
    ∃ head d, p = head ++ d ∧ head.length = headLength (rtuShape dir f) ∧
      d.length = dataLength (rtuShape dir f) head := by
  refine ⟨p.take (headLength (rtuShape dir f)), p.drop (headLength (rtuShape dir f)), by simp, ?_, ?_⟩ <;>
    unfold wellShaped at h <;> cases hsh : rtuShape dir f <;> rw [hsh] at h <;>
    simp only [decide_eq_true_eq, Bool.and_eq_true] at h <;> simp only [headLength, dataLength, List.length_take,
      List.length_drop]
  · omega
  · omega
  · omega
  · omega
  · have : byteAt (p.take 5) 4 = byteAt p 4 := by simp [byteAt, List.getD_eq_getElem?_getD]
    rw [this]; omega
  · have : byteAt (p.take 1) 0 = byteAt p 0 := by simp [byteAt, List.getD_eq_getElem?_getD]
    rw [this]; omega

theorem rtuData_outcome (dir : Direction) (sid : Byte) (f : FunctionCode) (head got : List Byte) (s : State) :
    DecodeOutcome .rtu
      (head.length = headLength (rtuShape dir f) ∧ got.length ≤ dataLength (rtuShape dir f) head)
      (sid :: f.code :: (head ++ got)) s (rtuData dir sid f head got s) := by
  unfold rtuData
  rcases streamRead_cases (dataLength (rtuShape dir f) head) got (.rtuData dir sid f head) s with
    ⟨bs, rest, hs, hr, hl⟩ | ⟨hlt, hr⟩
  · rw [hr]
    refine DecodeOutcome.after hs (fun g => wellShaped_of_lengths g.1 (hl g.2)) ?_
    have := rtuChecksum_outcome dir sid f (head ++ (got ++ bs)) [] { s with ibuf := rest }
    simpa [List.append_assoc] using this
  · rw [hr]
    refine await_outcome s.ibuf [] (by simp) (by simp) (by simp [Progress.taken]) (fun g => ?_)
    simp only [progressWellFormed, decide_true, Bool.true_and, Bool.and_eq_true, decide_eq_true_eq,
      List.length_append]
    exact ⟨g.1, hlt⟩

theorem rtuHead_outcome (dir : Direction) (sid : Byte) (f : FunctionCode) (got : List Byte) (s : State) :
    DecodeOutcome .rtu (got.length ≤ headLength (rtuShape dir f)) (sid :: f.code :: got) s
      (rtuHead dir sid f got s) := by
  unfold rtuHead
  rcases streamRead_cases (headLength (rtuShape dir f)) got (.rtuHead dir sid f) s with
    ⟨bs, rest, hs, hr, hl⟩ | ⟨hlt, hr⟩
  · rw [hr]
    have := rtuData_outcome dir sid f (got ++ bs) [] { s with ibuf := rest }
    rw [List.append_nil] at this
    exact DecodeOutcome.after hs (fun g => ⟨hl g, Nat.zero_le _⟩) this
  · rw [hr]
    refine await_outcome s.ibuf [] (by simp) (by simp) (by simp [Progress.taken]) (fun g => ?_)
    simp only [progressWellFormed, decide_true, Bool.true_and, decide_eq_true_eq, List.length_append]
    exact hlt

theorem rtuSelect_outcome (dir : Direction) (sid fc : Byte) (s : State) :
    DecodeOutcome .rtu True [sid, fc] s (rtuSelect dir sid fc s) := by
  unfold rtuSelect
  split
  · next f hf =>
    have := rtuHead_outcome dir sid f [] s
    rw [code_of_decodeFunctionCode hf] at this
    exact DecodeOutcome.after (bs := []) (rest := s.ibuf) (by simp) (fun _ => Nat.zero_le _) this
  · exact .error .unknownFunctionCode s.crc [] s.ibuf (by decide) (by simp)

/-- A read of one byte takes the byte at the head of the stream, or waits when there is none. -/
theorem streamRead_one_cases (p : List Byte → Progress) (s : State) :
    (∃ b rest, s.ibuf = b :: rest ∧ streamRead 1 [] p s = .bytes [b] { s with ibuf := rest }) ∨
    (s.ibuf = [] ∧ streamRead 1 [] p s = .stopped (await (p []) { s with ibuf := [] })) := by
  cases h : s.ibuf with
  | nil => exact .inr ⟨rfl, by rw [streamRead_short (by simp [h])]; simp [h]⟩
  | cons b rest => exact .inl ⟨b, rest, rfl, streamRead_enough (got := []) (bs := [b]) h rfl⟩

theorem rtuFunction_outcome (dir : Direction) (sid : Byte) (s : State) :
    DecodeOutcome .rtu True [sid] s (rtuFunction dir sid s) := by
  unfold rtuFunction
  rcases streamRead_one_cases (fun _ => .rtuFunction dir sid) s with ⟨b, rest, hs, hr⟩ | ⟨hs, hr⟩
  · rw [hr]
    exact DecodeOutcome.after (bs := [b]) hs (fun _ => trivial) (rtuSelect_outcome dir sid b _)
  · rw [hr]
    exact await_outcome [] [] (by simp [hs]) (by simp) (by simp [Progress.taken]) (fun _ => by simp [progressWellFormed])

theorem rtuDecode_outcome (dir : Direction) (s : State) : DecodeOutcome .rtu True [] s (rtuDecode dir s) := by
  unfold rtuDecode
  rcases streamRead_one_cases (fun _ => .rtuStation dir) s with ⟨b, rest, hs, hr⟩ | ⟨hs, hr⟩
  · rw [hr]
    exact DecodeOutcome.after (bs := [b]) hs (fun _ => trivial) (rtuFunction_outcome dir b _)
  · rw [hr]
    exact await_outcome [] [] (by simp [hs]) (by simp) (by simp [Progress.taken]) (fun _ => by simp [progressWellFormed])

/-! ## TCP -/

/-- The header of an MBAP frame that has passed the three checks (R182). -/
structure GoodHeader (h : List Byte) : Prop where
  length : h.length = 8
  protocol : readBe16 h 2 = 0x0000#16
  code : ∃ f : FunctionCode, byteAt h 7 = f.code
  count : 2 ≤ (readBe16 h 4).toNat

/-- Eight bytes with protocol id 0 are the header of their own fields. -/
theorem header_eq {h : List Byte} (hl : h.length = 8) (hp : readBe16 h 2 = 0x0000#16) :
    h = mbapHeader (readBe16 h 0) (readBe16 h 4) (byteAt h 6) (byteAt h 7) := by
  match h, hl with
  | [a, b, c, d, e, f, g, i], _ =>
    have : word16 c d = 0 := hp
    obtain ⟨rfl, rfl⟩ := (word16_eq_zero c d).1 this
    simp [mbapHeader, readBe16, byteAt]

theorem tcpPayload_outcome (h got : List Byte) (s : State) :
    DecodeOutcome .tcp (GoodHeader h ∧ got.length ≤ tcpPayloadLength h) (h ++ got) s (tcpPayload h got s) := by
  unfold tcpPayload
  rcases streamRead_cases (tcpPayloadLength h) got (.tcpPayload h) s with ⟨bs, rest, hs, hr, hl⟩ | ⟨hlt, hr⟩
  · rw [hr]
    refine DecodeOutcome.after (good' := GoodHeader h ∧ (got ++ bs).length = tcpPayloadLength h) hs
      (fun g => ⟨g.1, hl g.2⟩) ?_
    simp only [completeFrame_eq]
    refine .frame _ _ _ _ _ s.crc [] rest (by simp) (fun g => ⟨by simp [List.append_assoc], ?_, g.1.code⟩)
    obtain ⟨g, hlen⟩ := g
    have hlt := (readBe16 h 4).isLt
    have hc := g.count
    have hlen' : (got ++ bs).length = (readBe16 h 4).toNat - 2 := hlen
    refine ⟨by omega, ?_⟩
    have e : BitVec.ofNat 16 (2 + (got ++ bs).length) = readBe16 h 4 := by
      rw [hlen', show 2 + ((readBe16 h 4).toNat - 2) = (readBe16 h 4).toNat by omega]
      simp
    rw [e, ← header_eq g.length g.protocol]
  · rw [hr]
    refine await_outcome s.ibuf [] (by simp) (by simp) (by simp [Progress.taken]) (fun g => ?_)
    obtain ⟨g, -⟩ := g
    obtain ⟨f, hf⟩ := g.code
    simp only [progressWellFormed, decide_true, Bool.true_and, Bool.and_eq_true, decide_eq_true_eq,
      List.length_append]
    refine ⟨⟨⟨⟨g.length, g.protocol⟩, ?_⟩, g.count⟩, hlt⟩
    rw [hf]; simp

theorem tcpLength_outcome (h rest : List Byte) (s : State) (hs : s.ibuf = h ++ rest) (hl : h.length = 8)
    (hp : readBe16 h 2 = 0x0000#16) (hf : ∃ f : FunctionCode, byteAt h 7 = f.code) :
    DecodeOutcome .tcp True [] s (tcpLength h s) := by
  unfold tcpLength
  split
  · rw [raise_after_discard]
    exact .error .invalidLength s.crc (s.ibuf.take 1) _ (by decide) (List.take_append_drop 1 _).symm
  · next hc =>
    have hd : streamDiscard 8 s = { s with ibuf := rest } := by simp [streamDiscard, hs, ← hl]
    rw [hd]
    have := tcpPayload_outcome h [] { s with ibuf := rest }
    rw [List.append_nil] at this
    exact DecodeOutcome.after (bs := h) hs (fun _ => ⟨⟨hl, hp, hf, by omega⟩, Nat.zero_le _⟩) this

theorem tcpSelect_outcome (h rest : List Byte) (s : State) (hs : s.ibuf = h ++ rest) (hl : h.length = 8)
    (hp : readBe16 h 2 = 0x0000#16) : DecodeOutcome .tcp True [] s (tcpSelect h s) := by
  unfold tcpSelect
  split
  · next f hf => exact tcpLength_outcome h rest s hs hl hp ⟨f, (code_of_decodeFunctionCode hf).symm⟩
  · rw [raise_after_discard]
    exact .error .unknownFunctionCode s.crc (s.ibuf.take 1) _ (by decide) (List.take_append_drop 1 _).symm

theorem tcpHeader_outcome (h rest : List Byte) (s : State) (hs : s.ibuf = h ++ rest) (hl : h.length = 8) :
    DecodeOutcome .tcp True [] s (tcpHeader h s) := by
  unfold tcpHeader
  split
  · next hp => exact tcpSelect_outcome h rest s hs hl hp
  · rw [raise_after_discard]
    exact .error .protocolFlagError s.crc (s.ibuf.take 1) _ (by decide) (List.take_append_drop 1 _).symm

theorem tcpDecode_outcome (s : State) : DecodeOutcome .tcp True [] s (tcpDecode s) := by
  unfold tcpDecode
  rcases streamPeek_cases 8 .tcpPeek s with ⟨h, rest, hs, hl, hr⟩ | ⟨-, hr⟩
  · rw [hr]; exact tcpHeader_outcome h rest s hs hl
  · rw [hr]
    exact await_outcome [] s.ibuf (by simp) (by simp) (by simp [Progress.taken]) (fun _ => by simp [progressWellFormed])

end Sys2Proof.Machine
end

