-- ==== Sys2Proof/Laws/Checksum.lean ====
section
/-! SUPPORT. The checksum generator: byte by byte, and one iteration is a bijection. -/

namespace Sys2Proof.Machine

theorem crcBytesFrom_append (c : Half) (a b : List Byte) :
    crcBytesFrom c (a ++ b) = crcBytesFrom (crcBytesFrom c a) b := by
  induction a generalizing c with
  | nil => rfl
  | cons x xs ih => exact ih (crcByte c x)

/-- One more byte is one more `crcByte`. -/
theorem crc16_append_byte (s : List Byte) (b : Byte) : crc16 (s ++ [b]) = crcByte (crc16 s) b := by
  rw [crc16, crcBytesFrom_append]; rfl

theorem crc16_append (s t : List Byte) : crc16 (s ++ t) = crcBytesFrom (crc16 s) t := crcBytesFrom_append _ s t

/-- The bit that an iteration shifts out shows in bit 15 of its result, which is 0 after the shift and 1 in 0xA001. -/
theorem crcShift_bit15 (c : Half) : (crcShift c).getLsbD 15 = c.getLsbD 0 := by
  unfold crcShift
  by_cases h : c.getLsbD 0 = true
  · rw [if_pos h, h]
    simp only [BitVec.getLsbD_xor, BitVec.getLsbD_ushiftRight]
    rw [BitVec.getLsbD_of_ge c (1 + 15) (by decide)]
    decide
  · rw [if_neg h]
    simp only [BitVec.getLsbD_ushiftRight]
    rw [BitVec.getLsbD_of_ge c (1 + 15) (by decide)]
    simpa using h

theorem crcShift_injective : Function.Injective crcShift := by
  intro a b h
  have h0 : a.getLsbD 0 = b.getLsbD 0 := by rw [← crcShift_bit15 a, ← crcShift_bit15 b, h]
  have hs : a >>> 1 = b >>> 1 := by
    unfold crcShift at h
    rw [h0] at h
    split at h
    · have := congrArg (· ^^^ 0xA001#16) h
      simpa [BitVec.xor_assoc] using this
    · exact h
  apply BitVec.eq_of_getLsbD_eq
  intro i hi
  cases i with
  | zero => exact h0
  | succ n =>
    have := congrArg (fun v => v.getLsbD n) hs
    simpa [BitVec.getLsbD_ushiftRight, Nat.add_comm] using this

theorem crcShifts_injective (n : Nat) : Function.Injective (crcShifts n) := by
  induction n with
  | zero => exact fun _ _ h => h
  | succ n ih => exact fun _ _ h => crcShift_injective (ih h)

end Sys2Proof.Machine
end

