-- ==== Sys2Proof/Laws/Frames.lean ====
section
/-! SUPPORT. A decode whose bytes are all in the stream, run through its stages to the last one. -/

namespace Sys2Proof.Machine

/-- From the payload on: a well-shaped payload and two checksum bytes are read, and then compared. -/
theorem rtuHead_of_payload {dir : Direction} {f : FunctionCode} {p rest : List Byte} (sid c0 c1 : Byte) (s : State)
    (hw : wellShaped dir f p = true) (hs : s.ibuf = p ++ [c0, c1] ++ rest) :
    rtuHead dir sid f [] s = rtuVerify sid f p [c0, c1] { s with ibuf := rest } := by
  obtain ⟨head, d, rfl, hh, hd⟩ := lengths_of_wellShaped hw
  have h1 : s.ibuf = head ++ (d ++ [c0, c1] ++ rest) := by simp [hs]
  simp only [rtuHead, streamRead_enough (got := []) h1 (by simpa using hh), List.nil_append]
  simp only [rtuData]
  rw [streamRead_enough (got := []) (bs := d) (rest := [c0, c1] ++ rest) (by simp) (by simpa using hd)]
  simp only [rtuChecksum, List.nil_append]
  rw [streamRead_enough (n := 2) (got := []) (bs := [c0, c1]) (rest := rest) (by simp) rfl]
  rfl

/-- From the function code on. -/
theorem rtuFunction_of_byte {dir : Direction} {sid fc : Byte} {rest : List Byte} {s : State} (hs : s.ibuf = fc :: rest) :
    rtuFunction dir sid s = rtuSelect dir sid fc { s with ibuf := rest } := by
  rw [rtuFunction, streamRead_enough (n := 1) (got := []) (bs := [fc]) hs rfl]
  rfl

/-- From the station id on. -/
theorem rtuDecode_of_bytes {dir : Direction} {sid fc : Byte} {rest : List Byte} {s : State}
    (hs : s.ibuf = sid :: fc :: rest) : rtuDecode dir s = rtuSelect dir sid fc { s with ibuf := rest } := by
  rw [rtuDecode, streamRead_enough (n := 1) (got := []) (bs := [sid]) (rest := fc :: rest) hs rfl]
  exact rtuFunction_of_byte rfl

theorem rtuSelect_code {dir : Direction} {sid : Byte} {f : FunctionCode} {s : State} :
    rtuSelect dir sid f.code s = rtuHead dir sid f [] s := by simp [rtuSelect]

theorem rtuDecode_of_frame {dir : Direction} {f : FunctionCode} {p rest : List Byte} {sid c0 c1 : Byte} {s : State}
    (hw : wellShaped dir f p = true) (hs : s.ibuf = [sid, f.code] ++ p ++ [c0, c1] ++ rest) :
    rtuDecode dir s = rtuVerify sid f p [c0, c1] { s with ibuf := rest } := by
  rw [rtuDecode_of_bytes (sid := sid) (fc := f.code) (rest := p ++ [c0, c1] ++ rest) (by simpa using hs), rtuSelect_code]
  exact rtuHead_of_payload sid c0 c1 _ hw rfl

/-- The two answers of the checksum comparison (R145, R146), field by field. -/
theorem rtuVerify_eq (sid : Byte) (f : FunctionCode) (p c : List Byte) (s : State) :
    rtuVerify sid f p c s =
      if c = le16 (crc16 (sid :: f.code :: p)) then
        frameOutcome 0x0000 sid f.code p (sid :: f.code :: p ++ c) s.ibuf { s with crc := crc16 (sid :: f.code :: p) }
      else errorOutcome 0x02 s.ibuf { s with crc := crc16 (sid :: f.code :: p) } := rfl

/-- A decode at the peek with eight bytes checks them. -/
theorem tcpDecode_of_header {h rest : List Byte} {s : State} (hs : s.ibuf = h ++ rest) (hl : h.length = 8) :
    tcpDecode s = tcpHeader h s := by
  have : 8 ≤ s.ibuf.length := by simp [hs, hl]
  rw [tcpDecode, streamPeek, if_pos this]
  simp [hs, ← hl]

/-- A checked header whose payload is in the stream gives the frame. -/
theorem tcpLength_of_payload {h p rest : List Byte} {s : State} (hs : s.ibuf = h ++ p ++ rest) (hl : h.length = 8)
    (hc : (readBe16 h 4).toNat = 2 + p.length) :
    tcpLength h s = frameOutcome (readBe16 h 0) (byteAt h 6) (byteAt h 7) p (h ++ p) rest s := by
  have hn : ¬ (readBe16 h 4).toNat < 2 := by omega
  have hd : streamDiscard 8 s = { s with ibuf := p ++ rest } := by simp [streamDiscard, hs, ← hl]
  rw [tcpLength, if_neg hn, hd, tcpPayload,
    streamRead_enough (got := []) (bs := p) (rest := rest) rfl (by simp [tcpPayloadLength, hc])]
  rfl

end Sys2Proof.Machine
end

