-- ==== Sys2Proof/Laws/Exec.lean ====
section
/-! SUPPORT. What an instruction can do, and what a step can do, once: the cases of `exec` and of `step` when they
answer a next state. -/

namespace Sys2Proof.Machine

/-- What an instruction that answers a next state has done. -/
inductive ExecOutcome (s : State) : Instr → State → Prop
  | crc16 (o : Operands) (hb : s.busy = false) :
      ExecOutcome s (.crc16 o) (completeChecksum (crc16 o.data) { s with busy := true, crc := crc16 o.data })
  | encodeRtu (o : Operands) (hv : s.variant = .rtu) (hb : s.busy = false) :
      ExecOutcome s (.encodeRtu o) (frameOutcome 0x0000 o.sid o.fc o.data
        (o.sid :: o.fc :: o.data ++ le16 (Machine.crc16 (o.sid :: o.fc :: o.data))) s.ibuf
        { s with crc := Machine.crc16 (o.sid :: o.fc :: o.data) })
  | encodeTcp (o : Operands) (hv : s.variant = .tcp) (hb : s.busy = false) (hl : o.data.length ≤ 65533) :
      ExecOutcome s (.encodeTcp o) (frameOutcome o.tid o.sid o.fc o.data
        (mbapHeader o.tid (BitVec.ofNat 16 (2 + o.data.length)) o.sid o.fc ++ o.data) s.ibuf s)
  | encodeTcpTooLong (o : Operands) (hv : s.variant = .tcp) (hb : s.busy = false) (hl : 65533 < o.data.length) :
      ExecOutcome s (.encodeTcp o) (errorOutcome 0x04 s.ibuf s)
  | decodeRtu (o : Operands) (i : Instr) (hi : i = .decodeReqRtu o ∨ i = .decodeRspRtu o) (hv : s.variant = .rtu)
      (hb : s.busy = false) (t : State) (h : DecodeOutcome .rtu True [] { s with busy := true } t) :
      ExecOutcome s i t
  | decodeTcp (o : Operands) (i : Instr) (hi : i = .decodeReqTcp o ∨ i = .decodeRspTcp o) (hv : s.variant = .tcp)
      (hb : s.busy = false) (t : State) (h : DecodeOutcome .tcp True [] { s with busy := true } t) :
      ExecOutcome s i t
  | functionCodeRtu (f : FunctionCode) (i : Instr) (hi : i = Instr.ofFunctionCode f) (dir : Direction) (sid : Byte)
      (hp : s.progress = .rtuFunction dir sid) (t : State) (h : DecodeOutcome .rtu True [sid, f.code] s t) :
      ExecOutcome s i t
  | functionCodeTcp (f : FunctionCode) (i : Instr) (hi : i = Instr.ofFunctionCode f) (hp : s.progress = .tcpPeek)
      (t : State) (h : DecodeOutcome .tcp True [] s t) : ExecOutcome s i t

/-- The meaning of a function-code row. -/
theorem exec_ofFunctionCode (f : FunctionCode) (s : State) :
    exec (Instr.ofFunctionCode f) s = takeFunctionCode f s := by cases f <;> rfl

theorem takeFunctionCode_next {f : FunctionCode} {s t : State} (h : takeFunctionCode f s = .next t) :
    ExecOutcome s (Instr.ofFunctionCode f) t := by
  unfold takeFunctionCode at h
  split at h
  case h_1 dir sid hp =>
    cases h
    exact .functionCodeRtu f _ rfl dir sid hp _ (DecodeOutcome.after (bs := []) (rest := s.ibuf) (by simp)
      (fun _ => Nat.zero_le _) (rtuHead_outcome dir sid f [] s))
  case h_2 hp =>
    split at h
    · next hc =>
      cases h
      obtain ⟨h8, h0, hf⟩ := hc
      have e : ∀ i < 8, byteAt (s.ibuf.take 8) i = byteAt s.ibuf i := by
        intro i hi
        simp [byteAt, List.getD_eq_getElem?_getD, hi]
      refine .functionCodeTcp f _ rfl hp _ (tcpLength_outcome _ (s.ibuf.drop 8) s (by simp) (by simp [h8]) ?_ ⟨f, ?_⟩)
      · simpa [readBe16, e] using h0
      · rw [e 7 (by decide), hf]
    · cases h
  all_goals cases h

/-- The two RTU decodes, when they answer a next state. -/
theorem execDecodeRtu_next {o : Operands} {i : Instr} {s t : State} (hi : i = .decodeReqRtu o ∨ i = .decodeRspRtu o)
    (h : exec i s = .next t) :
    s.variant = .rtu ∧ s.busy = false ∧ DecodeOutcome .rtu True [] { s with busy := true } t := by
  rcases hi with rfl | rfl <;> obtain ⟨hv, hb, rfl⟩ := acceptUnder_next h
  · exact ⟨hv, hb, rtuDecode_outcome .req _⟩
  · exact ⟨hv, hb, rtuDecode_outcome .rsp _⟩

/-- The two TCP decodes, when they answer a next state. -/
theorem execDecodeTcp_next {o : Operands} {i : Instr} {s t : State} (hi : i = .decodeReqTcp o ∨ i = .decodeRspTcp o)
    (h : exec i s = .next t) :
    s.variant = .tcp ∧ s.busy = false ∧ DecodeOutcome .tcp True [] { s with busy := true } t := by
  rcases hi with rfl | rfl <;> obtain ⟨hv, hb, rfl⟩ := acceptUnder_next h
  · exact ⟨hv, hb, tcpDecode_outcome _⟩
  · exact ⟨hv, hb, tcpDecode_outcome _⟩

/-- The cases of `exec`. -/
theorem exec_next {i : Instr} {s t : State} (h : exec i s = .next t) : ExecOutcome s i t := by
  cases i with
  | crc16 o => obtain ⟨hb, rfl⟩ := accept_next h; exact .crc16 o hb
  | encodeRtu o => obtain ⟨hv, hb, rfl⟩ := acceptUnder_next h; exact .encodeRtu o hv hb
  | encodeTcp o =>
    obtain ⟨hv, hb, rfl⟩ := acceptUnder_next h
    unfold tcpEncode
    by_cases hl : Config.maxTcpPayload < o.data.length
    · rw [if_pos hl]; exact .encodeTcpTooLong o hv hb hl
    · rw [if_neg hl]; exact .encodeTcp o hv hb (Nat.le_of_not_lt hl)
  | decodeReqRtu o =>
    obtain ⟨hv, hb, rfl⟩ := acceptUnder_next h
    exact .decodeRtu o _ (.inl rfl) hv hb _ (rtuDecode_outcome .req _)
  | decodeReqTcp o =>
    obtain ⟨hv, hb, rfl⟩ := acceptUnder_next h
    exact .decodeTcp o _ (.inl rfl) hv hb _ (tcpDecode_outcome _)
  | decodeRspRtu o =>
    obtain ⟨hv, hb, rfl⟩ := acceptUnder_next h
    exact .decodeRtu o _ (.inr rfl) hv hb _ (rtuDecode_outcome .rsp _)
  | decodeRspTcp o =>
    obtain ⟨hv, hb, rfl⟩ := acceptUnder_next h
    exact .decodeTcp o _ (.inr rfl) hv hb _ (tcpDecode_outcome _)
  | fcReadCoils => exact takeFunctionCode_next (f := .readCoils) h
  | fcReadDiscreteInputs => exact takeFunctionCode_next (f := .readDiscreteInputs) h
  | fcReadHoldingRegisters => exact takeFunctionCode_next (f := .readHoldingRegisters) h
  | fcReadInputRegisters => exact takeFunctionCode_next (f := .readInputRegisters) h
  | fcWriteSingleCoil => exact takeFunctionCode_next (f := .writeSingleCoil) h
  | fcWriteSingleRegister => exact takeFunctionCode_next (f := .writeSingleRegister) h
  | fcWriteMultipleCoils => exact takeFunctionCode_next (f := .writeMultipleCoils) h
  | fcWriteMultipleRegisters => exact takeFunctionCode_next (f := .writeMultipleRegisters) h

/-- The engine's going on: the stages of the decode, of whose frame the bytes at its place were taken before; the
variant is the block's own where the place is well formed for it. -/
theorem resume_outcome (s : State) (hp : s.progress ≠ .idle) :
    ∃ v, (progressWellFormed s.variant s.progress = true → v = s.variant) ∧
      DecodeOutcome v (progressWellFormed s.variant s.progress = true) s.progress.taken s (resume s) := by
  have stage : ∀ {v good good' pre t}, (good' → good) → DecodeOutcome v good pre s t →
      DecodeOutcome v good' pre s t := fun hg h =>
    DecodeOutcome.after (bs := []) (rest := s.ibuf) (by simp) hg (by simpa using h)
  unfold resume
  split <;> rename_i h <;> rw [h] <;> simp only [progressWellFormed, Bool.and_eq_true, decide_eq_true_eq]
  · exact absurd h hp
  · exact ⟨.rtu, Eq.symm, stage (fun _ => trivial) (rtuDecode_outcome _ s)⟩
  · exact ⟨.rtu, Eq.symm, stage (fun _ => trivial) (rtuFunction_outcome _ _ s)⟩
  · exact ⟨.rtu, fun g => g.1.symm, stage (fun g => Nat.le_of_lt g.2) (rtuHead_outcome _ _ _ _ s)⟩
  · exact ⟨.rtu, fun g => g.1.1.symm, stage (fun g => ⟨g.1.2, Nat.le_of_lt g.2⟩) (rtuData_outcome _ _ _ _ _ s)⟩
  · exact ⟨.rtu, fun g => g.1.1.symm, stage (fun g => g.1.2) (rtuChecksum_outcome _ _ _ _ _ s)⟩
  · exact ⟨.tcp, Eq.symm, stage (fun _ => trivial) (tcpDecode_outcome s)⟩
  · refine ⟨.tcp, fun g => g.1.1.1.1.1.symm, stage (fun g => ?_) (tcpPayload_outcome _ _ s)⟩
    obtain ⟨⟨⟨⟨⟨-, h2⟩, h3⟩, h4⟩, h5⟩, h6⟩ := g
    obtain ⟨f, hf⟩ := Option.isSome_iff_exists.1 h4
    exact ⟨⟨h2, h3, ⟨f, (code_of_decodeFunctionCode hf).symm⟩, h5⟩, Nat.le_of_lt h6⟩

/-- The same from a place that is well formed for the block's variant. -/
theorem resume_outcome_of_wellFormed (s : State) (hp : s.progress ≠ .idle)
    (hw : progressWellFormed s.variant s.progress = true) :
    DecodeOutcome s.variant True s.progress.taken s (resume s) := by
  obtain ⟨v, hv, h⟩ := resume_outcome s hp
  rw [← hv hw]
  exact DecodeOutcome.after (bs := []) (rest := s.ibuf) (by simp) (fun _ => hw) (by simpa using h)

end Sys2Proof.Machine
end

