-- ==== Sys2Proof/Laws/PerInstr.lean ====
section
/-! SUPPORT. A law of every instruction as syntax: how many bytes its encoding has (R91, R95). -/

namespace Sys2Proof.Laws.EncodedSize

/-- A command's descriptor has 7 bytes and its data, at most 65542 in all (R90, R91); a function code is one byte
(R95). -/
def Statement (i : Instr) : Prop :=
  i.wellFormed = true →
    (i.isCommand = true → 7 ≤ (encode i).length ∧ (encode i).length ≤ 65542) ∧
    (i.isCommand = false → (encode i).length = 1)

/-- The length of a descriptor (R91). -/
theorem descriptor_length (op : Byte) (o : Operands) : (descriptor op o).length = 7 + o.data.length := by
  simp [descriptor]; omega

/-- A well-formed command's descriptor keeps the bound. -/
theorem descriptor_bounds {op : Byte} {o : Operands} (h : o.wellFormed = true) :
    7 ≤ (descriptor op o).length ∧ (descriptor op o).length ≤ 65542 := by
  rw [descriptor_length]
  have : o.data.length ≤ 65535 := of_decide_eq_true h
  omega

theorem crc16 (o : Operands) : Statement (.crc16 o) :=
  fun h => ⟨fun _ => descriptor_bounds h, fun hc => nomatch hc⟩

theorem encodeRtu (o : Operands) : Statement (.encodeRtu o) :=
  fun h => ⟨fun _ => descriptor_bounds h, fun hc => nomatch hc⟩

theorem encodeTcp (o : Operands) : Statement (.encodeTcp o) :=
  fun h => ⟨fun _ => descriptor_bounds h, fun hc => nomatch hc⟩

theorem decodeReqRtu (o : Operands) : Statement (.decodeReqRtu o) :=
  fun h => ⟨fun _ => descriptor_bounds h, fun hc => nomatch hc⟩

theorem decodeReqTcp (o : Operands) : Statement (.decodeReqTcp o) :=
  fun h => ⟨fun _ => descriptor_bounds h, fun hc => nomatch hc⟩

theorem decodeRspRtu (o : Operands) : Statement (.decodeRspRtu o) :=
  fun h => ⟨fun _ => descriptor_bounds h, fun hc => nomatch hc⟩

theorem decodeRspTcp (o : Operands) : Statement (.decodeRspTcp o) :=
  fun h => ⟨fun _ => descriptor_bounds h, fun hc => nomatch hc⟩

theorem fcReadCoils : Statement .fcReadCoils := fun _ => ⟨(fun hc => nomatch hc), fun _ => rfl⟩

theorem fcReadDiscreteInputs : Statement .fcReadDiscreteInputs := fun _ => ⟨(fun hc => nomatch hc), fun _ => rfl⟩

theorem fcReadHoldingRegisters : Statement .fcReadHoldingRegisters := fun _ => ⟨(fun hc => nomatch hc), fun _ => rfl⟩

theorem fcReadInputRegisters : Statement .fcReadInputRegisters := fun _ => ⟨(fun hc => nomatch hc), fun _ => rfl⟩

theorem fcWriteSingleCoil : Statement .fcWriteSingleCoil := fun _ => ⟨(fun hc => nomatch hc), fun _ => rfl⟩

theorem fcWriteSingleRegister : Statement .fcWriteSingleRegister := fun _ => ⟨(fun hc => nomatch hc), fun _ => rfl⟩

theorem fcWriteMultipleCoils : Statement .fcWriteMultipleCoils := fun _ => ⟨(fun hc => nomatch hc), fun _ => rfl⟩

theorem fcWriteMultipleRegisters : Statement .fcWriteMultipleRegisters :=
  fun _ => ⟨(fun hc => nomatch hc), fun _ => rfl⟩

end Sys2Proof.Laws.EncodedSize
end

