-- ==== Sys2Proof/Laws/Step.lean ====
section
/-! SUPPORT. The cases of a step that answers a next state. -/

namespace Sys2Proof.Machine

/-- What a step from `s` has done; `rest` is the schedule after its turn. -/
inductive StepOutcome (s : State) : State → Prop
  /-- The host issued a command, and it was executed. -/
  | command (i : Instr) (rest : List Turn) (t : State) (h : ExecOutcome { s with schedule := rest } i t) :
      StepOutcome s t
  /-- The host issued a reserved `op`. -/
  | illegal (rest : List Turn) (hb : s.busy = false) :
      StepOutcome s (errorOutcome 0x07 s.ibuf { s with schedule := rest })
  /-- The engine took a function code, of an RTU decode from the head of the stream. -/
  | functionCodeRtu (f : FunctionCode) (rest : List Turn) (dir : Direction) (sid : Byte) (bs : List Byte) (t : State)
      (hp : s.progress = .rtuFunction dir sid) (hs : s.ibuf = f.code :: bs)
      (h : ExecOutcome { s with schedule := rest, ibuf := bs } (Instr.ofFunctionCode f) t) : StepOutcome s t
  /-- The engine took a function code, of a TCP decode from the peeked header. -/
  | functionCodeTcp (f : FunctionCode) (rest : List Turn) (t : State) (hp : s.progress = .tcpPeek)
      (h : ExecOutcome { s with schedule := rest } (Instr.ofFunctionCode f) t) : StepOutcome s t
  /-- The engine went on with the command in progress, or there was none. -/
  | resumed (rest : List Turn) : StepOutcome s (resume { s with schedule := rest })
  | fed (rest : List Turn) (bs : List Byte) : StepOutcome s { s with schedule := rest, ibuf := s.ibuf ++ bs }
  | ended (rest : List Turn) : StepOutcome s { s with schedule := rest, srcEnd := true }
  | timedOut (rest : List Turn) (hb : s.busy = true) : StepOutcome s { s with schedule := rest, srcTimeout := true }
  | timedOutIdle (rest : List Turn) (hb : s.busy = false) : StepOutcome s { s with schedule := rest }
  | reset (rest : List Turn) :
      StepOutcome s { State.reset with variant := s.variant, schedule := rest, copies := s.copies }
  | read (rest : List Turn) (r : HostReg) (v : RegValue) :
      StepOutcome s { s with schedule := rest, copies := ⟨r, v⟩ :: s.copies }

theorem engineTurn_next {s t : State} {rest : List Turn} (h : engineTurn { s with schedule := rest } = .next t) :
    StepOutcome s t := by
  unfold engineTurn at h
  split at h
  · next f u hf =>
    unfold fetchFunctionCode at hf
    split at hf
    case h_1 dir sid hp =>
      split at hf
      · next b bs hs =>
        obtain ⟨g, hg, he⟩ := Option.map_eq_some_iff.1 hf
        cases he
        have := code_of_decodeFunctionCode hg
        subst this
        exact .functionCodeRtu f rest dir sid bs t hp hs (exec_next h)
      · cases hf
    case h_2 hp =>
      split at hf
      · obtain ⟨g, hg, he⟩ := Option.map_eq_some_iff.1 hf
        cases he
        exact .functionCodeTcp f rest t hp (exec_next h)
      · cases hf
    all_goals cases hf
  · cases h
    exact .resumed rest

/-- The cases of `step`. -/
theorem step_next {s t : State} (h : step s = .next t) : StepOutcome s t := by
  unfold step at h
  split at h
  · next hs => exact engineTurn_next (rest := s.schedule) h
  · next rest hs => exact engineTurn_next h
  · next a rest hs =>
    unfold hostTurn at h
    split at h
    · unfold issueCommand at h
      split at h
      · exact .command _ rest t (exec_next h)
      · obtain ⟨hb, rfl⟩ := accept_next h
        exact .illegal rest hb
      all_goals cases h
    · unfold hostFeed at h
      split at h
      · cases h
      · cases h; exact .fed rest _
    · cases h; exact .ended rest
    · cases h
      dsimp only
      split
      · next hb => exact .timedOut rest hb
      · next hb => exact .timedOutIdle rest (by simpa using hb)
    · cases h; exact .reset rest
    · unfold hostRead at h
      split at h
      · cases h; exact .read rest _ _
      · cases h

end Sys2Proof.Machine
end

