-- ==== Sys2Proof/Tests/Slice0.lean ====
section
/-! SUPPORT. Tests of single steps and single words, with results taken from the vectors of 95_test_vectors.md (the
name in each comment) or computed by hand from R121, and for every statement with hypotheses a witness that meets
them. -/

namespace Sys2Proof.Tests

open Sys2Proof.Machine

/-! ## Small states -/

/-- A block of this variant after reset, with these bytes fed. -/
def block (v : Variant) (ibuf : List Byte) : State := { State.reset with variant := v, ibuf := ibuf }

/-- The same with a decode in progress. -/
def waiting (v : Variant) (p : Progress) (ibuf : List Byte) : State :=
  { block v ibuf with busy := true, progress := p }

/-- The same with one action of the host coming. -/
def acting (a : HostAction) (s : State) : State := { s with schedule := [.host a] }

/-- STATUS, R_VALID, R_RAW and IBUF of a next state. -/
def sees : Result → Option (Byte × Bool × List Byte × List Byte)
  | .next t => some (t.status, t.rValid, t.rRaw, t.ibuf)
  | .fault _ => none
  | .refused _ => none

/-- R_TID, R_SID, R_FC and R_PAYLOAD of a next state. -/
def frameOf : Result → Option (Half × Byte × Byte × List Byte)
  | .next t => some (t.rTid, t.rSid, t.rFc, t.rPayload)
  | .fault _ => none
  | .refused _ => none

/-- BUSY, STATUS and IBUF of a next state. -/
def waitOf : Result → Option (Bool × Byte × List Byte)
  | .next t => some (t.busy, t.status, t.ibuf)
  | .fault _ => none
  | .refused _ => none

/-- The next state. -/
def stateOf : Result → Option State
  | .next t => some t
  | .fault _ => none
  | .refused _ => none

/-- The reason of a fault. -/
def faultOf : Result → Option Fault
  | .next _ => none
  | .fault f => some f
  | .refused _ => none

/-- The reason of a refusal. -/
def refusalOf : Result → Option Refusal
  | .next _ => none
  | .fault _ => none
  | .refused r => some r

/-- No operands. -/
def none₀ : Operands := ⟨0, 0, 0, []⟩

/-! ## Well-formedness -/

/-- 65536 bytes of data cannot be counted in 16 bits (R90). -/
theorem test_data_too_long_is_ill_formed (t : Half) (s f : Byte) (d : List Byte) (h : d.length = 65536) :
    (Instr.crc16 ⟨t, s, f, d⟩).wellFormed = false ∧ (Instr.encodeRtu ⟨t, s, f, d⟩).wellFormed = false ∧
    (Instr.encodeTcp ⟨t, s, f, d⟩).wellFormed = false ∧ (Instr.decodeReqRtu ⟨t, s, f, d⟩).wellFormed = false ∧
    (Instr.decodeReqTcp ⟨t, s, f, d⟩).wellFormed = false ∧ (Instr.decodeRspRtu ⟨t, s, f, d⟩).wellFormed = false ∧
    (Instr.decodeRspTcp ⟨t, s, f, d⟩).wellFormed = false := by
  simp [Instr.wellFormed, Operands.wellFormed, Config.maxData, h]

/-- 65535 bytes can (R90). -/
theorem test_longest_data_is_well_formed (t : Half) (s f : Byte) (d : List Byte) (h : d.length = 65535) :
    (Instr.crc16 ⟨t, s, f, d⟩).wellFormed = true := by
  simp [Instr.wellFormed, Operands.wellFormed, Config.maxData, h]

/-- There are data of these lengths. -/
theorem test_data_of_every_length (n : Nat) : ∃ d : List Byte, d.length = n :=
  ⟨List.replicate n 0x00, List.length_replicate⟩

/-! ## Decoding words written out from R91, R92 and R95 -/

/-- P1 step 4: op 00, tid 0000, sid 00, fc 00, dlen 0006, data. -/
theorem test_word_crc16 :
    decode .rtu [0x00, 0x00, 0x00, 0x00, 0x00, 0x00, 0x06, 0x01, 0x03, 0x00, 0x0B, 0x00, 0x09]
      = .instr (.crc16 ⟨0, 0, 0, [0x01, 0x03, 0x00, 0x0B, 0x00, 0x09]⟩) [] := by decide

/-- P1 step 1, with tid 1234 of VE1: high byte first. -/
theorem test_word_encode_rtu :
    decode .rtu [0x01, 0x12, 0x34, 0x01, 0x03, 0x00, 0x04, 0x00, 0x0B, 0x00, 0x09]
      = .instr (.encodeRtu ⟨0x1234, 0x01, 0x03, [0x00, 0x0B, 0x00, 0x09]⟩) [] := by decide

/-- P5 step 1. -/
theorem test_word_encode_tcp :
    decode .tcp [0x01, 0x01, 0x02, 0x11, 0x06, 0x00, 0x04, 0x00, 0x01, 0x00, 0x03]
      = .instr (.encodeTcp ⟨0x0102, 0x11, 0x06, [0x00, 0x01, 0x00, 0x03]⟩) [] := by decide

/-- P1 step 3; the bytes after the descriptor stay. -/
theorem test_word_decode_req_rtu :
    decode .rtu [0x02, 0x00, 0x00, 0x00, 0x00, 0x00, 0x00, 0xAA] = .instr (.decodeReqRtu none₀) [0xAA] := by decide

/-- P3 step 2. -/
theorem test_word_decode_req_tcp :
    decode .tcp [0x02, 0x00, 0x00, 0x00, 0x00, 0x00, 0x00] = .instr (.decodeReqTcp none₀) [] := by decide

/-- P2 step 3. -/
theorem test_word_decode_rsp_rtu :
    decode .rtu [0x03, 0x00, 0x00, 0x00, 0x00, 0x00, 0x00] = .instr (.decodeRspRtu none₀) [] := by decide

/-- P5 step 3. -/
theorem test_word_decode_rsp_tcp :
    decode .tcp [0x03, 0x00, 0x00, 0x00, 0x00, 0x00, 0x00] = .instr (.decodeRspTcp none₀) [] := by decide

/-- P5 step 4 and VX2: the reserved values at both ends (R93). -/
theorem test_word_reserved :
    decode .tcp [0x04, 0x00, 0x00, 0x00, 0x00, 0x00, 0x00] = .reservedOp 0x04 [] ∧
    decode .rtu [0xFF, 0x00, 0x00, 0x00, 0x00, 0x00, 0x00] = .reservedOp 0xFF [] := by decide

/-- A descriptor shorter than its count asks for (R91). -/
theorem test_word_truncated :
    decode .rtu [0x00, 0x00, 0x00, 0x00, 0x00, 0x00, 0x02, 0x01] = .truncated ∧
    decode .rtu [0x00, 0x00, 0x00, 0x00, 0x00, 0x00] = .truncated := by decide

/-- R96 to R103, each byte; the neighbours of the set and an exception response are none (R106). -/
theorem test_word_function_codes :
    (decodeFunctionCode 0x01).map Instr.ofFunctionCode = some .fcReadCoils ∧
    (decodeFunctionCode 0x02).map Instr.ofFunctionCode = some .fcReadDiscreteInputs ∧
    (decodeFunctionCode 0x03).map Instr.ofFunctionCode = some .fcReadHoldingRegisters ∧
    (decodeFunctionCode 0x04).map Instr.ofFunctionCode = some .fcReadInputRegisters ∧
    (decodeFunctionCode 0x05).map Instr.ofFunctionCode = some .fcWriteSingleCoil ∧
    (decodeFunctionCode 0x06).map Instr.ofFunctionCode = some .fcWriteSingleRegister ∧
    (decodeFunctionCode 0x0F).map Instr.ofFunctionCode = some .fcWriteMultipleCoils ∧
    (decodeFunctionCode 0x10).map Instr.ofFunctionCode = some .fcWriteMultipleRegisters ∧
    (∀ b ∈ ([0x00, 0x07, 0x0E, 0x11, 0x81, 0x83, 0x8F, 0x90] : List Byte), decodeFunctionCode b = none) := by decide

/-! ## Words as the opcode table numbers them -/

/-- The table's values that are an op are commands of the variant reset stands for; the others are function codes
(log entry 14). -/
theorem test_table_words :
    decodeTableWord 8 0x00 = some (.crc16 none₀) ∧ decodeTableWord 8 0x01 = some (.encodeRtu none₀) ∧
    decodeTableWord 8 0x02 = some (.decodeReqRtu none₀) ∧ decodeTableWord 8 0x03 = some (.decodeRspRtu none₀) ∧
    decodeTableWord 8 0x04 = some .fcReadInputRegisters ∧ decodeTableWord 8 0x05 = some .fcWriteSingleCoil ∧
    decodeTableWord 8 0x06 = some .fcWriteSingleRegister ∧ decodeTableWord 8 0x0F = some .fcWriteMultipleCoils ∧
    decodeTableWord 8 0x10 = some .fcWriteMultipleRegisters ∧ decodeTableWord 8 0x07 = none := by decide

/-- A word with the whole descriptor in it: VC4, op in bits 7..0, dlen in bits 55..40, data in bits 63..56. -/
theorem test_table_word_with_data :
    decodeTableWord 64 0x0101000000000000 = some (.crc16 ⟨0, 0, 0, [0x01]⟩) := by decide

/-- The placed word is what the next step runs: CRC16 [] (VC1) and a write-single-coil code, which waits for its
payload. -/
theorem test_placed_word_runs :
    sees (step (State.reset.withFetchWord 8 0x00)) = some (0x00, true, [0xFF, 0xFF], []) ∧
    stateOf (step (State.reset.withFetchWord 8 0x05)) = some (waiting .rtu (.rtuHead .req 0x00 .writeSingleCoil []) [])
    := by decide

/-! ## Commands -/

/-- L1-1, VC5, through the step. -/
theorem test_crc16_source_vector :
    (match step (acting (.issue [0x00, 0x00, 0x00, 0x00, 0x00, 0x00, 0x05, 0x01, 0x03, 0x02, 0x19, 0x98])
        (block .rtu [])) with
      | .next t => some (t.rCrc, t.rRaw, t.rValid, t.schedule)
      | .fault _ => none
      | .refused _ => none) = some (0x7EB2, [0xB2, 0x7E], true, []) := by decide +kernel

/-- VC3 and VC11. -/
theorem test_crc16_values :
    crc16 [0xFF] = 0x00FF ∧ crc16 [0x31, 0x32, 0x33, 0x34, 0x35, 0x36, 0x37, 0x38, 0x39] = 0x4B37 := by
  decide +kernel

/-- VE1: tid ignored. -/
theorem test_encode_rtu_request :
    sees (exec (.encodeRtu ⟨0x1234, 0x01, 0x03, [0x00, 0x0B, 0x00, 0x09]⟩) (block .rtu [0xAA]))
      = some (0x00, true, [0x01, 0x03, 0x00, 0x0B, 0x00, 0x09, 0xF4, 0x0E], [0xAA]) ∧
    frameOf (exec (.encodeRtu ⟨0x1234, 0x01, 0x03, [0x00, 0x0B, 0x00, 0x09]⟩) (block .rtu [0xAA]))
      = some (0x0000, 0x01, 0x03, [0x00, 0x0B, 0x00, 0x09]) := by decide +kernel

/-- VE8: an exception function code is encodable. -/
theorem test_encode_rtu_any_code :
    sees (exec (.encodeRtu ⟨0, 0x01, 0x83, [0x02]⟩) (block .rtu [])) = some (0x00, true, [0x01, 0x83, 0x02, 0xC0, 0xF1], [])
      := by decide +kernel

/-- VT6. -/
theorem test_encode_tcp_frame :
    sees (exec (.encodeTcp ⟨0x0102, 0x11, 0x06, [0x00, 0x01, 0x00, 0x03]⟩) (block .tcp []))
      = some (0x00, true, [0x01, 0x02, 0x00, 0x00, 0x00, 0x06, 0x11, 0x06, 0x00, 0x01, 0x00, 0x03], []) := by decide

/-- VT5: 65534 bytes do not fit. -/
theorem test_encode_tcp_too_long (d : List Byte) (h : d.length = 65534) :
    sees (exec (.encodeTcp ⟨0x0001, 0x01, 0x03, d⟩) (block .tcp [])) = some (0x04, false, [], []) := by
  have hl : Config.maxTcpPayload < d.length := by rw [h]; decide
  have e : exec (.encodeTcp ⟨0x0001, 0x01, 0x03, d⟩) (block .tcp []) =
      .next (tcpEncode 0x0001 0x01 0x03 d { block .tcp [] with busy := true }) := rfl
  rw [e, tcpEncode, if_pos hl]
  decide

/-- VD4: the shortest HDR4_LEN frame. -/
theorem test_decode_req_rtu_shortest :
    sees (exec (.decodeReqRtu none₀) (block .rtu [0x01, 0x0F, 0x00, 0x00, 0x00, 0x00, 0x00, 0x0B, 0x3F]))
      = some (0x00, true, [0x01, 0x0F, 0x00, 0x00, 0x00, 0x00, 0x00, 0x0B, 0x3F], []) ∧
    frameOf (exec (.decodeReqRtu none₀) (block .rtu [0x01, 0x0F, 0x00, 0x00, 0x00, 0x00, 0x00, 0x0B, 0x3F]))
      = some (0x0000, 0x01, 0x0F, [0x00, 0x00, 0x00, 0x00, 0x00]) := by decide +kernel

/-- VD23: a wrong checksum byte; the whole frame is gone. -/
theorem test_decode_req_rtu_checksum_error :
    sees (exec (.decodeReqRtu none₀) (block .rtu [0x01, 0x03, 0x00, 0x0B, 0x00, 0x09, 0xF4, 0x0F, 0x77]))
      = some (0x02, false, [], [0x77]) := by decide +kernel

/-- VD30: a request read as a response. -/
theorem test_decode_rsp_rtu_misframes :
    sees (exec (.decodeRspRtu none₀) (block .rtu [0x11, 0x0F, 0x00, 0x13, 0x00, 0x0A, 0x02, 0xCD, 0x01, 0xBF, 0x0B]))
      = some (0x02, false, [], [0x01, 0xBF, 0x0B]) := by decide +kernel

/-- VD22: an exception response fails after two bytes. -/
theorem test_decode_rsp_rtu_exception_response :
    sees (exec (.decodeRspRtu none₀) (block .rtu [0x01, 0x83, 0x02, 0xC0, 0xF1]))
      = some (0x01, false, [], [0x02, 0xC0, 0xF1]) := by decide

/-- VU4: the next frame's bytes stay. -/
theorem test_decode_req_tcp_leaves_the_rest :
    sees (exec (.decodeReqTcp none₀)
        (block .tcp [0x00, 0x01, 0x00, 0x00, 0x00, 0x06, 0x01, 0x03, 0x00, 0x0B, 0x00, 0x09, 0x00, 0x02]))
      = some (0x00, true, [0x00, 0x01, 0x00, 0x00, 0x00, 0x06, 0x01, 0x03, 0x00, 0x0B, 0x00, 0x09], [0x00, 0x02]) := by
  decide

/-- VU7 and VU10: the order of the three checks. -/
theorem test_decode_req_tcp_check_order :
    sees (exec (.decodeReqTcp none₀) (block .tcp [0x00, 0x01, 0x00, 0x01, 0x00, 0x03, 0x01, 0x83, 0x02]))
      = some (0x03, false, [], [0x01, 0x00, 0x01, 0x00, 0x03, 0x01, 0x83, 0x02]) ∧
    sees (exec (.decodeReqTcp none₀) (block .tcp [0x00, 0x01, 0x00, 0x00, 0x00, 0x00, 0x01, 0x07]))
      = some (0x01, false, [], [0x01, 0x00, 0x00, 0x00, 0x00, 0x01, 0x07]) := by decide

/-- VU9: length field 1. -/
theorem test_decode_rsp_tcp_short_length :
    sees (exec (.decodeRspTcp none₀) (block .tcp [0x00, 0x01, 0x00, 0x00, 0x00, 0x01, 0x01, 0x03, 0xAA]))
      = some (0x04, false, [], [0x01, 0x00, 0x00, 0x00, 0x01, 0x01, 0x03, 0xAA]) := by decide

/-- VU12, up to its wait: the header and two payload bytes are consumed. -/
theorem test_decode_rsp_tcp_waits_in_the_payload :
    waitOf (exec (.decodeRspTcp none₀) (block .tcp [0x00, 0x01, 0x00, 0x00, 0x00, 0x06, 0x01, 0x03, 0x00, 0x0B]))
      = some (true, 0x00, []) := by decide

/-! ## Function codes, taken where an RTU decode is at one -/

/-- VD14. -/
theorem test_fc_read_coils :
    sees (exec .fcReadCoils (waiting .rtu (.rtuFunction .rsp 0x01) [0x01, 0x05, 0x91, 0x8B]))
      = some (0x00, true, [0x01, 0x01, 0x01, 0x05, 0x91, 0x8B], []) := by decide +kernel

/-- VD10. -/
theorem test_fc_read_discrete_inputs :
    sees (exec .fcReadDiscreteInputs (waiting .rtu (.rtuFunction .rsp 0x01) [0x00, 0x21, 0x60]))
      = some (0x00, true, [0x01, 0x02, 0x00, 0x21, 0x60], []) := by decide +kernel

/-- VD1 in the request direction, VD7 in the response direction. -/
theorem test_fc_read_holding_registers :
    sees (exec .fcReadHoldingRegisters (waiting .rtu (.rtuFunction .req 0x01) [0x00, 0x0B, 0x00, 0x09, 0xF4, 0x0E]))
      = some (0x00, true, [0x01, 0x03, 0x00, 0x0B, 0x00, 0x09, 0xF4, 0x0E], []) ∧
    sees (exec .fcReadHoldingRegisters (waiting .rtu (.rtuFunction .rsp 0x01) [0x02, 0x19, 0x98, 0xB2, 0x7E]))
      = some (0x00, true, [0x01, 0x03, 0x02, 0x19, 0x98, 0xB2, 0x7E], []) := by decide +kernel

/-- By hand: the checksum of 01 04 02 00 0A is 3739, low byte first. -/
theorem test_fc_read_input_registers :
    sees (exec .fcReadInputRegisters (waiting .rtu (.rtuFunction .rsp 0x01) [0x02, 0x00, 0x0A, 0x39, 0x37]))
      = some (0x00, true, [0x01, 0x04, 0x02, 0x00, 0x0A, 0x39, 0x37], []) := by decide +kernel

/-- VD11. -/
theorem test_fc_write_single_coil :
    sees (exec .fcWriteSingleCoil (waiting .rtu (.rtuFunction .rsp 0x11) [0x00, 0xAC, 0xFF, 0x00, 0x4E, 0x8B]))
      = some (0x00, true, [0x11, 0x05, 0x00, 0xAC, 0xFF, 0x00, 0x4E, 0x8B], []) := by decide +kernel

/-- VE4's frame. -/
theorem test_fc_write_single_register :
    sees (exec .fcWriteSingleRegister (waiting .rtu (.rtuFunction .req 0x11) [0x00, 0x01, 0x00, 0x03, 0x9A, 0x9B]))
      = some (0x00, true, [0x11, 0x06, 0x00, 0x01, 0x00, 0x03, 0x9A, 0x9B], []) := by decide +kernel

/-- VD12: four bytes in the acknowledgment (C1). -/
theorem test_fc_write_multiple_coils :
    sees (exec .fcWriteMultipleCoils (waiting .rtu (.rtuFunction .rsp 0x11) [0x00, 0x13, 0x00, 0x0A, 0x26, 0x99, 0x05]))
      = some (0x00, true, [0x11, 0x0F, 0x00, 0x13, 0x00, 0x0A, 0x26, 0x99], [0x05]) := by decide +kernel

/-- VD3. -/
theorem test_fc_write_multiple_registers :
    sees (exec .fcWriteMultipleRegisters (waiting .rtu (.rtuFunction .req 0x11)
        [0x00, 0x01, 0x00, 0x02, 0x04, 0x00, 0x0A, 0x01, 0x02, 0xC6, 0xF0]))
      = some (0x00, true, [0x11, 0x10, 0x00, 0x01, 0x00, 0x02, 0x04, 0x00, 0x0A, 0x01, 0x02, 0xC6, 0xF0], []) := by
  decide +kernel

/-- VU3 from its peek: the code in the header's byte 7. -/
theorem test_fc_in_a_tcp_header :
    frameOf (exec .fcWriteMultipleRegisters (waiting .tcp .tcpPeek [0x00, 0x07, 0x00, 0x00, 0x00, 0x02, 0x05, 0x10]))
      = some (0x0007, 0x05, 0x10, []) := by decide

/-! ## Waits, refusals, reset, reads -/

/-- VD26: the four bytes stay consumed, and END ends the wait. -/
theorem test_wait_end :
    waitOf (exec (.decodeReqRtu none₀) (block .rtu [0x01, 0x03, 0x00, 0x0B])) = some (true, 0x00, []) ∧
    waitOf (step { waiting .rtu (.rtuHead .req 0x01 .readHoldingRegisters [0x00, 0x0B]) [] with srcEnd := true })
      = some (false, 0x05, []) := by decide

/-- VU13: TIMEOUT ends the peek's wait, which consumes nothing; TIMEOUT comes before END (R63). -/
theorem test_wait_timeout :
    waitOf (step { waiting .tcp .tcpPeek [0x00, 0x01, 0x00, 0x00, 0x00] with srcTimeout := true, srcEnd := true })
      = some (false, 0x06, [0x00, 0x01, 0x00, 0x00, 0x00]) := by decide

/-- VD33: buffered bytes come before END. -/
theorem test_bytes_before_end :
    sees (exec (.decodeReqRtu none₀)
        { block .rtu [0x01, 0x03, 0x00, 0x0B, 0x00, 0x09, 0xF4, 0x0E] with srcEnd := true })
      = some (0x00, true, [0x01, 0x03, 0x00, 0x0B, 0x00, 0x09, 0xF4, 0x0E], []) := by decide +kernel

/-- VD32: TIMEOUT without a command has no effect. -/
theorem test_timeout_when_idle :
    stateOf (step (acting .timeout (block .rtu [0x01]))) = some (block .rtu [0x01]) := by decide

/-- VX1: the stream is untouched. -/
theorem test_illegal_command :
    sees (step (acting (.issue [0x04, 0x00, 0x00, 0x00, 0x00, 0x00, 0x00]) (block .rtu [0x01, 0x03])))
      = some (0x07, false, [], [0x01, 0x03]) := by decide

/-- VX4: the ENCODE is refused while the decode waits, and the host goes on without it. -/
theorem test_command_while_busy :
    refusalOf (step (acting (.issue [0x01, 0x00, 0x00, 0x01, 0x03, 0x00, 0x00]) (waiting .rtu (.rtuStation .rsp) [])))
      = some .commandWhileBusy ∧
    sees (step (withoutRefusedTurn (acting (.issue [0x01, 0x00, 0x00, 0x01, 0x03, 0x00, 0x00])
        (waiting .rtu (.rtuStation .rsp) [0x01, 0x03, 0x02, 0x19, 0x98, 0xB2, 0x7E]))))
      = some (0x00, true, [0x01, 0x03, 0x02, 0x19, 0x98, 0xB2, 0x7E], []) := by decide +kernel

/-- VX5. -/
theorem test_feed_after_end :
    refusalOf (step (acting (.feed [0x01]) { block .rtu [] with srcEnd := true })) = some .feedAfterEnd := by decide

/-- VX6: RESET while the decode waits for the length byte. -/
theorem test_reset_abandons :
    stateOf (step (acting .reset { waiting .rtu (.rtuHead .rsp 0x01 .readHoldingRegisters []) [0x55] with
        srcEnd := true, srcTimeout := true, status := 0x02, statusHeld := true })) = some (block .rtu []) := by decide

/-- VX8, VX9, VX10: reads of registers that hold no value. -/
theorem test_reads_fault :
    faultOf (step (acting (.read .rSid) { block .rtu [] with rValid := true, held := .checksum }))
      = some (.registerHoldsNoValue .rSid) ∧
    faultOf (step (acting (.read .rCrc) { block .rtu [] with rValid := true, held := .frame }))
      = some (.registerHoldsNoValue .rCrc) ∧
    faultOf (step (acting (.read .status) (block .rtu []))) = some (.registerHoldsNoValue .status) := by decide

/-- A read of VARIANT gives 1 under TCP (R33), and the host keeps it. -/
theorem test_read_variant :
    stateOf (step (acting (.read .variant) (block .tcp [])))
      = some { block .tcp [] with copies := [⟨.variant, .bit 1⟩] } := by decide

/-! ## Witnesses: for every statement with hypotheses, states and operands that meet all of them -/

/-- VD1's frame, VD4's, VD7's and VD9's. -/
def readRequest : List Byte := [0x01, 0x03, 0x00, 0x0B, 0x00, 0x09, 0xF4, 0x0E]
def coilsRequest : List Byte := [0x01, 0x0F, 0x00, 0x00, 0x00, 0x00, 0x00, 0x0B, 0x3F]
def readResponse : List Byte := [0x01, 0x03, 0x02, 0x19, 0x98, 0xB2, 0x7E]
def emptyResponse : List Byte := [0x01, 0x03, 0x00, 0x20, 0xF0]
/-- VU1's frame and VU3's. -/
def tcpFrame : List Byte := [0x00, 0x01, 0x00, 0x00, 0x00, 0x06, 0x01, 0x03, 0x00, 0x0B, 0x00, 0x09]
def tcpEmptyFrame : List Byte := [0x00, 0x07, 0x00, 0x00, 0x00, 0x02, 0x05, 0x10]

/-- A command completed with this status. -/
def completedWith (st : Byte) (r : Result) : Bool :=
  match r with
  | .next t => !t.busy && t.status == st
  | .fault _ => false
  | .refused _ => false

/-- What `completedWith` says, as the hypotheses of the statements. -/
theorem completedWith_spec {st : Byte} {r : Result} (h : completedWith st r = true) :
    ∃ t, r = .next t ∧ t.busy = false ∧ t.status = st := by
  cases r with
  | next t =>
    simp only [completedWith, Bool.and_eq_true, Bool.not_eq_true', beq_iff_eq] at h
    exact ⟨t, rfl, h⟩
  | fault _ => cases h
  | refused _ => cases h

/-- A decode that goes on in `s` completes with this status. -/
def resumesWith (st : Byte) (s : State) : Bool :=
  s.progress ≠ .idle && !(resume s).busy && (resume s).status == st

/-- A command answers a state in which it waits. -/
def waits (r : Result) : Bool :=
  match r with
  | .next t => t.busy
  | .fault _ => false
  | .refused _ => false

theorem test_witness_EncodedInstructionDecodesToItself :
    (∃ d : List Byte, d.length = 65535 ∧ (Instr.crc16 ⟨0, 0, 0, d⟩).wellFormed = true ∧
      (Instr.crc16 ⟨0, 0, 0, d⟩).isCommand = true ∧ (Instr.crc16 ⟨0, 0, 0, d⟩).availableIn .tcp = true) ∧
    (Instr.encodeTcp ⟨0xFFFF, 0xFF, 0x10, []⟩).isCommand = true ∧
    (Instr.encodeTcp ⟨0xFFFF, 0xFF, 0x10, []⟩).availableIn .tcp = true ∧
    (Instr.encodeTcp ⟨0xFFFF, 0xFF, 0x10, []⟩).wellFormed = true := by
  obtain ⟨d, h⟩ := test_data_of_every_length 65535
  exact ⟨⟨d, h, test_longest_data_is_well_formed 0 0 0 d h, rfl, rfl⟩, by decide⟩

theorem test_witness_DecodedInstructionEncodesToItsBytes :
    decode .rtu [0x00, 0xAB, 0xCD, 0x01, 0x02, 0x00, 0x01, 0x55, 0x66]
      = .instr (.crc16 ⟨0xABCD, 0x01, 0x02, [0x55]⟩) [0x66] ∧
    decodeFunctionCode 0x10 = some .writeMultipleRegisters := by decide

theorem test_witness_StepExecutesIssuedCommand :
    let s := acting (.issue [0x02, 0x00, 0x00, 0x00, 0x00, 0x00, 0x00]) (block .tcp [])
    s.schedule = [.host (.issue [0x02, 0x00, 0x00, 0x00, 0x00, 0x00, 0x00])] ∧
    decode s.variant [0x02, 0x00, 0x00, 0x00, 0x00, 0x00, 0x00] = .instr (.decodeReqTcp none₀) [] := by decide

/-- Both ways the engine has the next turn. -/
theorem test_witness_engineNext (p : Progress) (ibuf : List Byte) :
    engineNext (waiting .rtu p ibuf) [] ∧
    engineNext { waiting .rtu p ibuf with schedule := [.engine, .host .timeout] } [.host .timeout] :=
  ⟨.inr ⟨rfl, rfl⟩, .inl rfl⟩

theorem test_witness_StepExecutesFunctionCode :
    (let s := waiting .rtu (.rtuFunction .rsp 0x01) [0x03, 0x02]
     s.progress = .rtuFunction .rsp 0x01 ∧ s.ibuf = [0x03, 0x02] ∧
       decodeFunctionCode 0x03 = some .readHoldingRegisters) ∧
    (let s := waiting .tcp .tcpPeek tcpEmptyFrame
     s.progress = .tcpPeek ∧ 8 ≤ s.ibuf.length ∧ readBe16 s.ibuf 2 = 0x0000#16 ∧
       decodeFunctionCode (byteAt s.ibuf 7) = some .writeMultipleRegisters) := by decide

theorem test_witness_FunctionCodeGoesOnWithTheDecode :
    fetchFunctionCode (waiting .rtu (.rtuFunction .req 0x01) [0x10])
      = some (.writeMultipleRegisters, waiting .rtu (.rtuFunction .req 0x01) []) ∧
    fetchFunctionCode (waiting .tcp .tcpPeek tcpFrame)
      = some (.readHoldingRegisters, waiting .tcp .tcpPeek tcpFrame) := by decide

theorem test_witness_ReservedOpCompletesWithIllegalCommand :
    ([] : List Byte).length = (word16 0x00 0x00).toNat ∧ 0x04 ≤ (0x04 : Byte).toNat ∧ 0x04 ≤ (0xFF : Byte).toNat ∧
    (block .rtu [0x01]).busy = false := by decide

theorem test_witness_CommandWhileBusyIsRefused :
    let s := waiting .rtu (.rtuStation .rsp) []
    s.busy = true ∧ (Instr.encodeRtu ⟨0, 0x01, 0x03, []⟩).isCommand = true ∧
    (Instr.encodeRtu ⟨0, 0x01, 0x03, []⟩).wellFormed = true ∧
    (Instr.encodeRtu ⟨0, 0x01, 0x03, []⟩).availableIn s.variant = true ∧ 0x04 ≤ (0x04 : Byte).toNat ∧
    none₀.wellFormed = true := by decide

theorem test_witness_MalformedDescriptorIsRefused :
    ([0x00, 0x00, 0x00, 0x00, 0x00, 0x00] : List Byte).length < 7 ∧
    ([0x00, 0x00, 0x00, 0x00, 0x00, 0x00, 0x00, 0x55] : List Byte).length
      ≠ 7 + (readBe16 [0x00, 0x00, 0x00, 0x00, 0x00, 0x00, 0x00, 0x55] 5).toNat ∧
    refusalOf (step (acting (.issue [0x00, 0x00, 0x00, 0x00, 0x00, 0x00, 0x00, 0x55]) (block .rtu [])))
      = some .malformedDescriptor := by decide

theorem test_witness_InstructionOutOfPlaceIsRefused :
    ((Instr.encodeTcp none₀).isCommand = true ∧ (Instr.encodeTcp none₀).availableIn (block .rtu []).variant = false) ∧
    ((block .rtu []).progress ≠ .tcpPeek ∧ ∀ dir sid, (block .rtu []).progress ≠ .rtuFunction dir sid) ∧
    ((waiting .tcp .tcpPeek tcpFrame).progress = .tcpPeek ∧
      byteAt (waiting .tcp .tcpPeek tcpFrame).ibuf 7 ≠ FunctionCode.code .readCoils) ∧
    readBe16 (waiting .tcp .tcpPeek [0x00, 0x01, 0x00, 0x01, 0x00, 0x06, 0x01, 0x03]).ibuf 2 ≠ 0x0000#16 ∧
    (waiting .tcp .tcpPeek [0x00]).ibuf.length < 8 := by
  refine ⟨by decide, ⟨by decide, fun dir sid h => by cases h⟩, by decide, by decide, by decide⟩

theorem test_witness_IgnoredFieldsHaveNoEffect :
    (⟨0x1234, 0x01, 0x02, [0x55]⟩ : Operands).data = (⟨0x4321, 0x10, 0x20, [0x55]⟩ : Operands).data ∧
    completedWith 0x00 (exec (.crc16 ⟨0x1234, 0x01, 0x02, [0x55]⟩) (block .rtu [])) = true ∧
    completedWith 0x00 (exec (.encodeRtu ⟨0x1234, 0x01, 0x02, [0x55]⟩) (block .rtu [])) = true ∧
    completedWith 0x00 (exec (.encodeTcp ⟨0x1234, 0x01, 0x02, [0x55]⟩) (block .tcp [])) = true := by decide +kernel

theorem test_witness_ChangedByteChangesTheChecksum : (0x19 : Byte) ≠ 0x18 := by decide

theorem test_witness_Crc16WritesTheChecksum :
    (block .tcp []).busy = false ∧ completedWith 0x00 (exec (.crc16 none₀) (block .tcp [])) = true := by decide +kernel

theorem test_witness_EncodeRtuBuildsTheFrame : (block .rtu []).variant = .rtu ∧ (block .rtu []).busy = false := by decide

theorem test_witness_EncodeTcpBuildsTheFrame :
    (block .tcp []).variant = .tcp ∧ (block .tcp []).busy = false ∧
    (∃ d : List Byte, d.length = 65533) ∧ (∃ d : List Byte, d.length = 65534) :=
  ⟨rfl, rfl, test_data_of_every_length _, test_data_of_every_length _⟩

/-- In each direction, and a payload whose length byte is 0 and one whose length byte is not. -/
theorem test_witness_RtuDecodeOfAFrameCompletes :
    (wellShaped .req .writeMultipleCoils [0x00, 0x00, 0x00, 0x00, 0x00] = true ∧
      (block .rtu (coilsRequest ++ [0x77])).ibuf = [0x01, FunctionCode.code .writeMultipleCoils] ++ [0x00, 0x00, 0x00, 0x00, 0x00]
        ++ le16 (crc16 ([0x01, FunctionCode.code .writeMultipleCoils] ++ [0x00, 0x00, 0x00, 0x00, 0x00])) ++ [0x77]) ∧
    (wellShaped .req .readHoldingRegisters [0x00, 0x0B, 0x00, 0x09] = true ∧
      (block .rtu readRequest).ibuf = [0x01, FunctionCode.code .readHoldingRegisters] ++ [0x00, 0x0B, 0x00, 0x09]
        ++ le16 (crc16 ([0x01, FunctionCode.code .readHoldingRegisters] ++ [0x00, 0x0B, 0x00, 0x09])) ++ []) ∧
    (wellShaped .rsp .readHoldingRegisters [0x00] = true ∧
      (block .rtu emptyResponse).ibuf = [0x01, FunctionCode.code .readHoldingRegisters] ++ [0x00]
        ++ le16 (crc16 ([0x01, FunctionCode.code .readHoldingRegisters] ++ [0x00])) ++ []) ∧
    (wellShaped .rsp .readHoldingRegisters [0x02, 0x19, 0x98] = true ∧
      (block .rtu readResponse).ibuf = [0x01, FunctionCode.code .readHoldingRegisters] ++ [0x02, 0x19, 0x98]
        ++ le16 (crc16 ([0x01, FunctionCode.code .readHoldingRegisters] ++ [0x02, 0x19, 0x98])) ++ []) ∧
    (block .rtu readRequest).variant = .rtu ∧ (block .rtu readRequest).busy = false := by decide +kernel

/-- The longest payloads a length byte can count are well shaped (VD17, VD18). -/
theorem test_witness_longest_payloads :
    wellShaped .req .writeMultipleRegisters ([0x00, 0x00, 0x00, 0x7F, 0xFF] ++ List.replicate 255 0x00) = true ∧
    wellShaped .rsp .readCoils ([0xFF] ++ List.replicate 255 0x00) = true := by decide +kernel

/-- A matching and a mismatching checksum in each direction. -/
theorem test_witness_RtuChecksumIsVerified :
    (block .rtu readRequest).ibuf = [0x01, FunctionCode.code .readHoldingRegisters] ++ [0x00, 0x0B, 0x00, 0x09] ++ [0xF4, 0x0E] ++ [] ∧
    (block .rtu [0x01, 0x03, 0x02, 0x19, 0x98, 0xB2, 0x7F]).ibuf
      = [0x01, FunctionCode.code .readHoldingRegisters] ++ [0x02, 0x19, 0x98] ++ [0xB2, 0x7F] ++ [] ∧
    ((0xF4 : Byte) = (crc16 ([0x01, FunctionCode.code .readHoldingRegisters] ++ [0x00, 0x0B, 0x00, 0x09])).extractLsb' 0 8 ∧
      (0x0E : Byte) = (crc16 ([0x01, FunctionCode.code .readHoldingRegisters] ++ [0x00, 0x0B, 0x00, 0x09])).extractLsb' 8 8) ∧
    ¬ (0x7F : Byte) = (crc16 ([0x01, FunctionCode.code .readHoldingRegisters] ++ [0x02, 0x19, 0x98])).extractLsb' 8 8 ∧
    wellShaped .req .readHoldingRegisters [0x00, 0x0B, 0x00, 0x09] = true ∧
    wellShaped .rsp .readHoldingRegisters [0x02, 0x19, 0x98] = true := by decide +kernel

theorem test_witness_RtuUnknownFunctionCodeTakesTwoBytes :
    (block .rtu [0x01, 0x83, 0x02]).ibuf = 0x01 :: 0x83 :: [0x02] ∧
    (0x83 : Byte) ∉ ([0x01, 0x02, 0x03, 0x04, 0x05, 0x06, 0x0F, 0x10] : List Byte) ∧
    (0x07 : Byte) ∉ ([0x01, 0x02, 0x03, 0x04, 0x05, 0x06, 0x0F, 0x10] : List Byte) := by decide

/-- Nothing of the frame, and all but its last byte; with and without END. -/
theorem test_witness_RtuDecodeOfAFrameBeginning :
    ((block .rtu []).ibuf ++ readRequest
      = [0x01, FunctionCode.code .readHoldingRegisters] ++ [0x00, 0x0B, 0x00, 0x09] ++ [0xF4, 0x0E] ∧ readRequest ≠ []) ∧
    ((block .rtu [0x01, 0x03, 0x02, 0x19, 0x98, 0xB2]).ibuf ++ [0x7E]
      = [0x01, FunctionCode.code .readHoldingRegisters] ++ [0x02, 0x19, 0x98] ++ [0xB2, 0x7E]) ∧
    (block .rtu []).srcTimeout = false ∧ (block .rtu []).srcEnd = false ∧
    ({ block .rtu [] with srcEnd := true } : State).srcEnd = true := by decide

/-- Each shape. -/
theorem test_witness_RtuFrameLengthFollowsTheShape :
    completedWith 0x00 (exec (.decodeReqRtu none₀) (block .rtu readRequest)) = true ∧
    completedWith 0x00 (exec (.decodeReqRtu none₀) (block .rtu coilsRequest)) = true ∧
    completedWith 0x00 (exec (.decodeRspRtu none₀) (block .rtu readResponse)) = true := by decide +kernel

/-- The first row and the last. -/
theorem test_witness_FunctionCodesHaveTheirShapes :
    ((0x01 : Byte), FunctionCode.readCoils, Shape.fixed4, Shape.len)
      ∈ [((0x01 : Byte), FunctionCode.readCoils, Shape.fixed4, Shape.len),
        (0x10, .writeMultipleRegisters, .hdr4Len, .fixed4)] ∧
    ((0x10 : Byte), FunctionCode.writeMultipleRegisters, Shape.hdr4Len, Shape.fixed4)
      ∈ [((0x01 : Byte), FunctionCode.readCoils, Shape.fixed4, Shape.len),
        (0x10, .writeMultipleRegisters, .hdr4Len, .fixed4)] := by decide

theorem test_witness_ReadCodesSelectTheirShapes :
    ((waiting .rtu (.rtuFunction .req 0x01) (readRequest.drop 2)).progress = .rtuFunction .req 0x01 ∧
      (waiting .rtu (.rtuFunction .req 0x01) (readRequest.drop 2)).ibuf
        = [0x00, 0x0B, 0x00, 0x09] ++ le16 (crc16 [0x01, 0x03, 0x00, 0x0B, 0x00, 0x09]) ++ []) ∧
    ((waiting .rtu (.rtuFunction .rsp 0x01) (readResponse.drop 2)).progress = .rtuFunction .rsp 0x01 ∧
      ([0x19, 0x98] : List Byte).length = (0x02 : Byte).toNat ∧
      (waiting .rtu (.rtuFunction .rsp 0x01) (readResponse.drop 2)).ibuf
        = 0x02 :: [0x19, 0x98] ++ le16 (crc16 (0x01 :: 0x03 :: 0x02 :: [0x19, 0x98])) ++ []) := by decide +kernel

theorem test_witness_WriteSingleCodesSelectTheirShape :
    (waiting .rtu (.rtuFunction .rsp 0x11) [0x00, 0xAC, 0xFF, 0x00, 0x4E, 0x8B]).ibuf
      = [0x00, 0xAC, 0xFF, 0x00] ++ le16 (crc16 [0x11, 0x05, 0x00, 0xAC, 0xFF, 0x00]) ++ [] := by decide +kernel

theorem test_witness_WriteMultipleCodesSelectTheirShapes :
    (([] : List Byte).length = (0x00 : Byte).toNat ∧
      (waiting .rtu (.rtuFunction .req 0x01) (coilsRequest.drop 2)).ibuf = 0x00 :: 0x00 :: 0x00 :: 0x00 :: 0x00 :: [] ++
        le16 (crc16 (0x01 :: 0x0F :: 0x00 :: 0x00 :: 0x00 :: 0x00 :: 0x00 :: [])) ++ []) ∧
    (waiting .rtu (.rtuFunction .rsp 0x11) [0x00, 0x13, 0x00, 0x0A, 0x26, 0x99]).ibuf
      = [0x00, 0x13, 0x00, 0x0A] ++ le16 (crc16 [0x11, 0x0F, 0x00, 0x13, 0x00, 0x0A]) ++ [] := by decide +kernel

/-- The shortest payload and another; by a command and by a waiting peek; and payloads of the greatest length exist. -/
theorem test_witness_TcpDecodeOfAFrameCompletes :
    (block .tcp tcpEmptyFrame).ibuf = be16 0x0007 ++ [0x00, 0x00] ++ be16 (BitVec.ofNat 16 (2 + ([] : List Byte).length))
      ++ [0x05, FunctionCode.code .writeMultipleRegisters] ++ [] ++ [] ∧
    (waiting .tcp .tcpPeek (tcpFrame ++ [0x77])).ibuf = be16 0x0001 ++ [0x00, 0x00]
      ++ be16 (BitVec.ofNat 16 (2 + ([0x00, 0x0B, 0x00, 0x09] : List Byte).length))
      ++ [0x01, FunctionCode.code .readHoldingRegisters] ++ [0x00, 0x0B, 0x00, 0x09] ++ [0x77] ∧
    (waiting .tcp .tcpPeek (tcpFrame ++ [0x77])).progress = .tcpPeek ∧ (block .tcp tcpEmptyFrame).variant = .tcp ∧
    (block .tcp tcpEmptyFrame).busy = false := by decide

/-- VU5, VU7 and VU6. -/
theorem test_witness_TcpHeaderErrorSkipsOneByte :
    ((block .tcp [0x00, 0x01, 0x00, 0x01, 0x00, 0x03, 0x01, 0x83, 0x02]).ibuf
      = 0x00 :: 0x01 :: 0x00 :: 0x01 :: 0x00 :: 0x03 :: 0x01 :: 0x83 :: [0x02] ∧
      ¬ ((0x00 : Byte) = 0x00 ∧ (0x01 : Byte) = 0x00)) ∧
    ((block .tcp [0x00, 0x01, 0x00, 0x00, 0x00, 0x03, 0x01, 0x83, 0x02]).ibuf
      = 0x00 :: 0x01 :: 0x00 :: 0x00 :: 0x00 :: 0x03 :: 0x01 :: 0x83 :: [0x02] ∧
      (0x83 : Byte) ∉ ([0x01, 0x02, 0x03, 0x04, 0x05, 0x06, 0x0F, 0x10] : List Byte)) := by decide

/-- VU8 and VU9. -/
theorem test_witness_TcpShortLengthFieldSkipsOneByte :
    ((0x00 : Byte).toNat < 2 ∧ (block .tcp [0x00, 0x01, 0x00, 0x00, 0x00, 0x00, 0x01, 0x03]).ibuf
      = 0x00 :: 0x01 :: 0x00 :: 0x00 :: 0x00 :: 0x00 :: 0x01 :: FunctionCode.code .readHoldingRegisters :: []) ∧
    ((0x01 : Byte).toNat < 2 ∧ (block .tcp [0x00, 0x01, 0x00, 0x00, 0x00, 0x01, 0x01, 0x03, 0xAA]).ibuf
      = 0x00 :: 0x01 :: 0x00 :: 0x00 :: 0x00 :: 0x01 :: 0x01 :: FunctionCode.code .readHoldingRegisters :: [0xAA]) := by
  decide

/-- No byte and seven bytes; with and without END. -/
theorem test_witness_TcpPeekConsumesNothing :
    (block .tcp []).ibuf.length < 8 ∧ (block .tcp (tcpFrame.take 7)).ibuf.length < 8 ∧
    (block .tcp []).srcTimeout = false ∧ (block .tcp []).srcEnd = false ∧ (block .tcp []).busy = false ∧
    ({ block .tcp [] with srcEnd := true } : State).srcEnd = true := by decide

/-- VU12: two payload bytes of four; and a header alone. -/
theorem test_witness_TcpDecodeOfAFrameBeginning :
    (2 + ([0x00, 0x0B] : List Byte).length < (0x0006 : Half).toNat ∧
      (block .tcp (tcpFrame.take 10)).ibuf = be16 0x0001 ++ [0x00, 0x00] ++ be16 0x0006
        ++ [0x01, FunctionCode.code .readHoldingRegisters] ++ [0x00, 0x0B]) ∧
    (2 + ([] : List Byte).length < (0x0003 : Half).toNat ∧
      (block .tcp [0x00, 0x01, 0x00, 0x00, 0x00, 0x03, 0x01, 0x03]).ibuf = be16 0x0001 ++ [0x00, 0x00] ++ be16 0x0003
        ++ [0x01, FunctionCode.code .readHoldingRegisters] ++ []) := by decide

/-- At once, and after a wait in a state that meets the invariant. -/
theorem test_witness_RtuFrameInRegistersIsValid :
    completedWith 0x00 (exec (.encodeRtu none₀) (block .rtu [])) = true ∧
    completedWith 0x00 (exec (.decodeReqRtu none₀) (block .rtu readRequest)) = true ∧
    completedWith 0x00 (exec (.decodeRspRtu none₀) (block .rtu readResponse)) = true ∧
    (waiting .rtu (.rtuStation .rsp) readResponse).Inv ∧
    resumesWith 0x00 (waiting .rtu (.rtuStation .rsp) readResponse) = true := by
  refine ⟨?_, ?_, ?_, ?_, ?_⟩ <;> first | decide +kernel | (constructor <;> decide)

/-- At once, and after a wait at the peek and in the payload. -/
theorem test_witness_TcpFrameInRegistersIsValid :
    completedWith 0x00 (exec (.encodeTcp none₀) (block .tcp [])) = true ∧
    completedWith 0x00 (exec (.decodeReqTcp none₀) (block .tcp tcpFrame)) = true ∧
    completedWith 0x00 (exec (.decodeRspTcp none₀) (block .tcp tcpEmptyFrame)) = true ∧
    ((waiting .tcp .tcpPeek tcpFrame).Inv ∧ resumesWith 0x00 (waiting .tcp .tcpPeek tcpFrame) = true) ∧
    (waiting .tcp (.tcpPayload (tcpFrame.take 8) [0x00, 0x0B]) [0x00, 0x09]).Inv ∧
    resumesWith 0x00 (waiting .tcp (.tcpPayload (tcpFrame.take 8) [0x00, 0x0B]) [0x00, 0x09]) = true := by
  refine ⟨?_, ?_, ?_, ⟨?_, ?_⟩, ?_, ?_⟩ <;> first | decide | (constructor <;> decide)

/-- In each variant. -/
theorem test_witness_FunctionCodeFrameInRegistersIsValid :
    ((waiting .rtu (.rtuFunction .req 0x01) (readRequest.drop 2)).Inv ∧
      completedWith 0x00 (exec (Instr.ofFunctionCode .readHoldingRegisters)
        (waiting .rtu (.rtuFunction .req 0x01) (readRequest.drop 2))) = true) ∧
    (waiting .tcp .tcpPeek tcpFrame).Inv ∧
    completedWith 0x00 (exec (Instr.ofFunctionCode .readHoldingRegisters) (waiting .tcp .tcpPeek tcpFrame)) = true := by
  refine ⟨⟨?_, ?_⟩, ?_, ?_⟩ <;> first | decide +kernel | (constructor <;> decide)

/-- At once and after a wait: OK (in the states of the two witnesses above), a wait (that goes on waiting), and the
three errors that consume one byte. -/
theorem test_witness_DecodeConsumesExactlyItsFrame :
    completedWith 0x00 (exec (.decodeReqTcp none₀) (block .tcp tcpFrame)) = true ∧
    waits (exec (.decodeReqRtu none₀) (block .rtu (readRequest.take 7))) = true ∧
    waits (exec (.decodeRspTcp none₀) (block .tcp (tcpFrame.take 7))) = true ∧
    (resume (waiting .rtu (.rtuFunction .req 0x01) [0x03, 0x00])).busy = true ∧
    completedWith 0x01 (exec (.decodeReqTcp none₀) (block .tcp [0x00, 0x01, 0x00, 0x00, 0x00, 0x00, 0x01, 0x07])) = true ∧
    completedWith 0x03 (exec (.decodeRspTcp none₀) (block .tcp [0x00, 0x01, 0x00, 0x01, 0x00, 0x00, 0x01, 0x03])) = true ∧
    completedWith 0x04 (exec (.decodeRspTcp none₀) (block .tcp [0x00, 0x01, 0x00, 0x00, 0x00, 0x00, 0x01, 0x03])) = true ∧
    resumesWith 0x01 (waiting .tcp .tcpPeek [0x00, 0x01, 0x00, 0x00, 0x00, 0x00, 0x01, 0x07]) = true ∧
    resumesWith 0x03 (waiting .tcp .tcpPeek [0x00, 0x01, 0x00, 0x01, 0x00, 0x00, 0x01, 0x03]) = true ∧
    resumesWith 0x04 (waiting .tcp .tcpPeek [0x00, 0x01, 0x00, 0x00, 0x00, 0x01, 0x01, 0x03]) = true := by
  decide

/-- Under RTU a code that completes its frame and one that waits; under TCP these two and InvalidLength. -/
theorem test_witness_FunctionCodeConsumesItsFrame :
    completedWith 0x00 (exec (Instr.ofFunctionCode .readHoldingRegisters)
      (waiting .rtu (.rtuFunction .rsp 0x01) (readResponse.drop 2))) = true ∧
    waits (exec (Instr.ofFunctionCode .writeMultipleCoils) (waiting .rtu (.rtuFunction .req 0x01) [0x00])) = true ∧
    completedWith 0x00 (exec (Instr.ofFunctionCode .writeMultipleRegisters) (waiting .tcp .tcpPeek tcpEmptyFrame)) = true ∧
    waits (exec (Instr.ofFunctionCode .readHoldingRegisters) (waiting .tcp .tcpPeek (tcpFrame.take 10))) = true ∧
    completedWith 0x04 (exec (Instr.ofFunctionCode .readHoldingRegisters)
      (waiting .tcp .tcpPeek [0x00, 0x01, 0x00, 0x00, 0x00, 0x01, 0x01, 0x03])) = true := by decide +kernel

/-- A decode that waits, one that fails, and a function code that goes on. -/
theorem test_witness_DecodeFrame :
    waitOf (exec (.decodeReqRtu none₀) (block .rtu [0x01])) = some (true, 0x00, []) ∧
    completedWith 0x01 (exec (.decodeRspRtu none₀) (block .rtu [0x01, 0x83])) = true ∧
    waitOf (exec (Instr.ofFunctionCode .readCoils) (waiting .rtu (.rtuFunction .req 0x01) [0x00])) = some (true, 0x00, []) := by
  decide

/-- VRT1 and VRT3. -/
theorem test_witness_RtuRoundTrip :
    (⟨0, 0x01, 0x03, [0x00, 0x0B, 0x00, 0x09]⟩ : Operands).fc = FunctionCode.code .readHoldingRegisters ∧
    completedWith 0x00 (exec (.encodeRtu ⟨0, 0x01, 0x03, [0x00, 0x0B, 0x00, 0x09]⟩) (block .rtu [])) = true ∧
    wellShaped .req .readHoldingRegisters [0x00, 0x0B, 0x00, 0x09] = true ∧
    wellShaped .rsp .readHoldingRegisters [0x02, 0x19, 0x98] = true ∧
    completedWith 0x00 (exec (.encodeRtu ⟨0, 0x01, 0x03, [0x02, 0x19, 0x98]⟩) (block .rtu [])) = true := by decide +kernel

/-- VRT7 and VRT10. -/
theorem test_witness_TcpRoundTrip :
    completedWith 0x00 (exec (.encodeTcp ⟨0xFFFF, 0xFF, 0x10, []⟩) (block .tcp [])) = true ∧
    (0x10 : Byte) ∈ ([0x01, 0x02, 0x03, 0x04, 0x05, 0x06, 0x0F, 0x10] : List Byte) ∧
    completedWith 0x00 (exec (.encodeTcp ⟨0x0002, 0x01, 0x83, [0x02]⟩) (block .tcp [])) = true ∧
    (0x83 : Byte) ∉ ([0x01, 0x02, 0x03, 0x04, 0x05, 0x06, 0x0F, 0x10] : List Byte) := by decide

/-- A command that completes with OK and one with an error, at once; and after a wait OK and each error. -/
theorem test_witness_ValidExactlyAfterOk :
    resumesWith 0x00 (waiting .rtu (.rtuStation .rsp) readResponse) = true ∧
    resumesWith 0x02 (waiting .rtu (.rtuStation .rsp) [0x01, 0x03, 0x02, 0x19, 0x98, 0xB2, 0x7F]) = true ∧
    resumesWith 0x05 { waiting .rtu (.rtuStation .rsp) [] with srcEnd := true } = true ∧
    resumesWith 0x06 { waiting .tcp .tcpPeek [] with srcTimeout := true } = true ∧
    completedWith 0x00 (exec (.crc16 none₀) (block .rtu [])) = true ∧
    completedWith 0x01 (exec (.decodeRspRtu none₀) (block .rtu [0x01, 0x83])) = true := by decide +kernel

theorem test_witness_NoErrorIsSticky :
    completedWith 0x01 (exec (.decodeRspRtu none₀) { block .rtu [0x01, 0x83] with status := 0x06, statusHeld := true })
      = true ∧
    resumesWith 0x00 { waiting .tcp .tcpPeek tcpFrame with status := 0x06, statusHeld := true } = true := by decide

/-- A decode in which a byte is still missing meets the invariant: RTU at each place, TCP at both. -/
theorem test_witness_Inv :
    (waiting .rtu (.rtuStation .req) []).Inv ∧ (waiting .rtu (.rtuFunction .rsp 0xFF) []).Inv ∧
    (waiting .rtu (.rtuHead .req 0x01 .writeMultipleCoils [0x00, 0x00, 0x00, 0x00]) []).Inv ∧
    (waiting .rtu (.rtuData .rsp 0x01 .readCoils [0x02] [0x01]) []).Inv ∧
    (waiting .rtu (.rtuChecksum .rsp 0x01 .readCoils [0x00] [0x21]) []).Inv ∧
    (waiting .tcp .tcpPeek (tcpFrame.take 7)).Inv ∧
    (waiting .tcp (.tcpPayload (tcpFrame.take 8) [0x00, 0x0B, 0x00]) []).Inv := by
  refine ⟨?_, ?_, ?_, ?_, ?_, ?_, ?_⟩ <;> constructor <;> decide

/-- A decode that the bytes let end, one they do not, with no signal, with END, and with both; and a starved one. -/
theorem test_witness_WaitIsSettledInOrder :
    (waiting .rtu (.rtuStation .rsp) readResponse).busy = true ∧
    (waiting .rtu (.rtuStation .rsp) readResponse).progress ≠ .idle ∧
    (resume (waiting .rtu (.rtuStation .rsp) readResponse)).busy = false ∧
    (resume (waiting .rtu (.rtuStation .rsp) [0x01])).busy = true ∧
    starved (waiting .rtu (.rtuStation .rsp) []) = true ∧ starved (waiting .tcp .tcpPeek (tcpFrame.take 7)) = true ∧
    starved { waiting .tcp .tcpPeek [] with srcTimeout := true, srcEnd := true } = true := by decide +kernel

/-- A waiting decode with bytes, at each kind of place, has its turn from an empty schedule and from one with a turn. -/
theorem test_witness_EngineStepGoesOnWithTheCommand (p : Progress) (ibuf : List Byte) (rest : List Turn) :
    engineNext { waiting .rtu p ibuf with schedule := [] } [] ∧
    engineNext { waiting .rtu p ibuf with schedule := .engine :: rest } rest ∧ (block .rtu ibuf).progress = .idle :=
  ⟨.inr ⟨rfl, rfl⟩, .inl rfl, rfl⟩

/-- VD23's checksum error, and VU7's header error, after a wait and through the engine's step. -/
theorem test_engine_step_goes_on :
    waitOf (step (waiting .rtu (.rtuStation .req) [0x01, 0x03, 0x00, 0x0B, 0x00, 0x09, 0xF4, 0x0F, 0x77]))
      = some (false, 0x02, [0x77]) ∧
    waitOf (step (waiting .tcp .tcpPeek [0x00, 0x01, 0x00, 0x01, 0x00, 0x03, 0x01, 0x83, 0x02]))
      = some (false, 0x03, [0x01, 0x00, 0x01, 0x00, 0x03, 0x01, 0x83, 0x02]) := by decide +kernel

theorem test_witness_FedInPiecesIsFedAtOnce :
    let s := waiting .rtu (.rtuStation .req) []
    s.srcTimeout = false ∧ s.srcEnd = false ∧ (resume { s with ibuf := s.ibuf ++ [0x01, 0x03, 0x00] }).busy = true := by
  decide

/-- Each of the four decodes on a stream too short for it, and a function code of each variant. -/
theorem test_witness_WaitingCommandIsTheSameCommand :
    waits (exec (.decodeReqRtu none₀) (block .rtu [0x01, 0x03])) = true ∧
    waits (exec (.decodeRspRtu none₀) (block .rtu [0x01, 0x03])) = true ∧
    waits (exec (.decodeReqTcp none₀) (block .tcp (tcpFrame.take 7))) = true ∧
    waits (exec (.decodeRspTcp none₀) (block .tcp (tcpFrame.take 8))) = true ∧
    (block .rtu [0x01, 0x03]).srcTimeout = false ∧ (block .rtu [0x01, 0x03]).srcEnd = false ∧
    (waiting .rtu (.rtuFunction .req 0x01) [0x00]).busy = true ∧
    waits (exec (Instr.ofFunctionCode .readCoils) (waiting .rtu (.rtuFunction .req 0x01) [0x00])) = true ∧
    waits (exec (Instr.ofFunctionCode .readHoldingRegisters) (waiting .tcp .tcpPeek (tcpFrame.take 8))) = true := by decide

/-- VD7's frame in two pieces, as VD31 feeds VD1's: a response decode that waits completes as a response. -/
theorem test_wait_keeps_the_direction :
    (match exec (.decodeRspRtu none₀) (block .rtu (readResponse.take 2)) with
      | .next w => resumesWith 0x00 { w with ibuf := w.ibuf ++ readResponse.drop 2 }
      | .fault _ => false
      | .refused _ => false) = true := by decide +kernel

theorem test_witness_HostActsOnTheStream :
    (acting (.feed [0x01]) (block .rtu [])).schedule = [.host (.feed [0x01])] ∧
    (acting (.feed [0x01]) (block .rtu [])).srcEnd = false ∧
    (acting (.feed [0x01]) { block .rtu [] with srcEnd := true }).srcEnd = true ∧
    (acting .endOfStream (block .rtu [])).schedule = [.host .endOfStream] ∧
    (acting .timeout (waiting .tcp .tcpPeek [])).busy = true ∧ (acting .timeout (block .tcp [])).busy = false ∧
    (acting .timeout (block .tcp [])).schedule = [.host .timeout] := by decide

theorem test_witness_ResetLeavesTheResetState :
    (acting .reset (waiting .tcp .tcpPeek [])).schedule = [.host .reset] := by decide

/-- After an error; after CRC16; after ENCODE, and a decode that waited; after a reserved op; after reset. -/
theorem test_witness_ReadWithoutValueFaults :
    (block .rtu []).rValid = false ∧
    completedWith 0x00 (exec (.crc16 none₀) (block .rtu [])) = true ∧
    completedWith 0x00 (exec (.encodeTcp none₀) (block .tcp [])) = true ∧
    (∀ o, Instr.encodeTcp none₀ ≠ .crc16 o) ∧
    resumesWith 0x00 (waiting .rtu (.rtuStation .rsp) readResponse) = true ∧
    completedWith 0x07 (illegalCommand (block .rtu [])) = true ∧ (block .rtu []).statusHeld = false :=
  ⟨by decide, by decide +kernel, by decide, (fun _ h => by cases h), by decide +kernel, by decide, by decide⟩

/-- After a decode that completes with OK at once, after one that waited, and after CRC16. -/
theorem test_witness_ReadGivesTheContents :
    ((∀ o, Instr.decodeRspRtu none₀ ≠ .crc16 o) ∧
      completedWith 0x00 (exec (.decodeRspRtu none₀) (block .rtu readResponse)) = true) ∧
    resumesWith 0x00 (waiting .tcp .tcpPeek tcpFrame) = true ∧
    completedWith 0x00 (exec (.crc16 none₀) (block .tcp [])) = true :=
  ⟨⟨(fun _ h => by cases h), by decide +kernel⟩, by decide, by decide +kernel⟩

/-- VD11's registers as the host reads them: the station id and the function code are not exchanged. -/
theorem test_reads_of_a_frame :
    (match exec (.decodeRspRtu none₀) (block .rtu [0x11, 0x05, 0x00, 0xAC, 0xFF, 0x00, 0x4E, 0x8B]) with
      | .next t => (stateOf (step (acting (.read .rSid) t))).map State.copies
      | .fault _ => none
      | .refused _ => none) = some [⟨.rSid, .byte 0x11⟩] ∧
    (match exec (.decodeRspRtu none₀) (block .rtu [0x11, 0x05, 0x00, 0xAC, 0xFF, 0x00, 0x4E, 0x8B]) with
      | .next t => (stateOf (step (acting (.read .rFc) t))).map State.copies
      | .fault _ => none
      | .refused _ => none) = some [⟨.rFc, .byte 0x05⟩] := by decide +kernel

/-- A step of the host and a step of the engine that change a state. -/
theorem test_witness_steps :
    stateOf (step (acting (.feed [0x01]) (block .tcp []))) = some (block .tcp [0x01]) ∧
    stateOf (step { waiting .rtu (.rtuStation .req) [0x01] with schedule := [.engine] })
      = some (waiting .rtu (.rtuFunction .req 0x01) []) := by decide

/-- VX10, VX8 and VX9, in states that meet the invariant. -/
theorem test_witness_OnlyAReadWithoutValueFaults :
    ((acting (.read .status) (block .tcp [])).Inv ∧
      faultOf (step (acting (.read .status) (block .tcp []))) = some (.registerHoldsNoValue .status)) ∧
    (match exec (.crc16 ⟨0, 0, 0, [0x01]⟩) (block .rtu []) with
      | .next t => faultOf (step (acting (.read .rSid) t))
      | .fault _ => none
      | .refused _ => none) = some (.registerHoldsNoValue .rSid) ∧
    (match exec (.encodeRtu ⟨0, 0x01, 0x03, []⟩) (block .rtu []) with
      | .next t => faultOf (step (acting (.read .rCrc) t))
      | .fault _ => none
      | .refused _ => none) = some (.registerHoldsNoValue .rCrc) := by
  refine ⟨⟨?_, ?_⟩, ?_, ?_⟩ <;> first | decide +kernel | (constructor <;> decide)

/-- STATUS changes: VX2. -/
theorem test_witness_StatusIsAlwaysALegalCode :
    waitOf (step (acting (.issue [0xFF, 0x00, 0x00, 0x00, 0x00, 0x00, 0x00]) (block .tcp []))) = some (false, 0x07, []) ∧
    (0x07 : Byte) ≠ (block .tcp []).status := by decide

theorem test_witness_IdleBlockStaysAsItIs :
    (block .rtu [0x01]).schedule = [] ∧ (block .rtu [0x01]).progress = .idle := by decide

end Sys2Proof.Tests
end

/-! Proofs of the statements about the registers (10_state): what a completed command leaves in the flags and the
result registers, what a read of a register answers, and what no step changes or shows. -/

namespace Sys2Proof.Machine

/-! ## What a completed command leaves in STATUS, R_VALID and the holders of a value (R35, R36, R48) -/

/-- The result registers an instruction writes when it completes with OK (R45). -/
def writtenBy : Instr → Held
  | .crc16 _ => .checksum
  | _ => .frame

/-- How a completed command leaves `STATUS`, `R_VALID` and the holders of a value, where it writes the registers `w`
if it ends with OK (R36, R45, R48). -/
structure CompletedWith (w : Held) (t : State) : Prop where
  statusHeld : t.statusHeld = true
  rValid : t.rValid = true ↔ t.status = 0x00
  held : t.held = if t.status = 0x00 then w else .nothing

namespace CompletedWith

theorem of_error {w : Held} {code : Byte} (h : code ≠ 0x00) (rest : List Byte) (s : State) :
    CompletedWith w (errorOutcome code rest s) :=
  ⟨rfl, by simpa using h, by rw [errorOutcome_status, if_neg h]; rfl⟩

theorem of_frame (tid : Half) (sid fc : Byte) (payload raw rest : List Byte) (s : State) :
    CompletedWith .frame (frameOutcome tid sid fc payload raw rest s) :=
  ⟨rfl, by simp, by simp⟩

theorem of_checksum (c : Half) (s : State) : CompletedWith .checksum (completeChecksum c s) :=
  ⟨rfl, by simp [Status.code], by simp [Status.code]⟩

theorem of_decode {v : Variant} {good : Prop} {pre : List Byte} {s t : State} (h : DecodeOutcome v good pre s t)
    (hb : t.busy = false) : CompletedWith .frame t := by
  cases h with
  | error e c taken rest he hi => exact of_error (mt (Status.code_eq_zero e).1 he) rest _
  | frame tid sid fc payload raw c taken rest hi hv => exact of_frame tid sid fc payload raw rest _
  | waiting p taken rest hp hi ht he hk hw => simp at hb

theorem of_exec {i : Instr} {s t : State} (h : exec i s = .next t) (hb : t.busy = false) :
    CompletedWith (writtenBy i) t := by
  cases exec_next h with
  | crc16 o => exact of_checksum _ _
  | encodeRtu o => exact of_frame _ _ _ _ _ _ _
  | encodeTcp o => exact of_frame _ _ _ _ _ _ _
  | encodeTcpTooLong o => exact of_error (by decide) _ _
  | decodeRtu o _ hi _ _ _ hd => rcases hi with rfl | rfl <;> exact of_decode hd hb
  | decodeTcp o _ hi _ _ _ hd => rcases hi with rfl | rfl <;> exact of_decode hd hb
  | functionCodeRtu f _ hi _ _ _ _ hd => subst hi; cases f <;> exact of_decode hd hb
  | functionCodeTcp f _ hi _ _ hd => subst hi; cases f <;> exact of_decode hd hb

theorem of_resume {s : State} (hp : s.progress ≠ .idle) (hb : (resume s).busy = false) :
    CompletedWith .frame (resume s) := by
  obtain ⟨_, -, h⟩ := resume_outcome s hp
  exact of_decode h hb

theorem of_illegal {w : Held} {s t : State} (h : illegalCommand s = .next t) :
    CompletedWith w t ∧ t.status = 0x07 := by
  obtain ⟨-, rfl⟩ := accept_next h
  exact ⟨of_error (by decide) _ _, rfl⟩

/-- `R_VALID` says whether the result registers hold the command's result (R36). -/
theorem rValid_iff_held {w : Held} {t : State} (h : CompletedWith w t) (hw : w ≠ .nothing) :
    t.rValid = true ↔ t.held ≠ .nothing := by
  rw [h.rValid, h.held]
  by_cases hs : t.status = 0x00 <;> simp [hs, hw]

end CompletedWith

theorem writtenBy_ne_nothing (i : Instr) : writtenBy i ≠ .nothing := by cases i <;> simp [writtenBy]

theorem writtenBy_of_ne_crc16 {i : Instr} (h : ∀ o, i ≠ .crc16 o) : writtenBy i = .frame := by
  cases i with
  | crc16 o => exact absurd rfl (h o)
  | _ => rfl

/-- Settles O41: by the ways an instruction, a waiting decode and a reserved `op` can end. -/
theorem validExactlyAfterOk : Obligations.ValidExactlyAfterOk := by
  refine ⟨?_, ?_, ?_, rfl⟩
  · intro i s t h hb
    obtain ⟨w, hw, hc⟩ : ∃ w, w ≠ .nothing ∧ CompletedWith w t := by
      rcases h with h | ⟨hp, rfl⟩
      · exact ⟨_, writtenBy_ne_nothing i, .of_exec h hb⟩
      · exact ⟨.frame, by decide, .of_resume hp hb⟩
    exact ⟨hc.rValid, hc.statusHeld, hc.rValid_iff_held hw⟩
  · intro s t h
    obtain ⟨hc, hs⟩ := CompletedWith.of_illegal (w := .frame) h
    have hne : t.status ≠ 0x00 := by rw [hs]; decide
    exact ⟨Bool.eq_false_iff.2 (mt hc.rValid.1 hne), hne, hc.statusHeld⟩
  · intro s t h
    cases h
    rfl

/-! ## What a read of a register answers (R48, R79) -/

/-- Whether a register holds a value is no matter of the host's turns. -/
theorem holdsValue_schedule (r : HostReg) (s : State) (turns : List Turn) :
    holdsValue r { s with schedule := turns } = holdsValue r s := by cases r <;> rfl

theorem regContents_schedule (r : HostReg) (s : State) (turns : List Turn) :
    regContents r { s with schedule := turns } = regContents r s := by cases r <;> rfl

theorem readFaults_of_no_value {r : HostReg} {s : State} (h : holdsValue r s = false) : readFaults r s := by
  intro rest
  exact if_neg (Bool.eq_false_iff.1 ((holdsValue_schedule r s rest).trans h))

theorem readGives_of_value {r : HostReg} {s : State} (h : holdsValue r s = true) :
    readGives r (regContents r s) s := by
  intro rest
  rw [← regContents_schedule r s rest]
  exact if_pos ((holdsValue_schedule r s rest).trans h)

/-- The result registers (R38, R39). -/
def resultRegs : List HostReg := [.rTid, .rSid, .rFc, .rPayload, .rRaw, .rCrc]

/-- While `R_VALID` is 0 no result register holds a value (R48). -/
theorem holdsValue_false_of_rValid_false {s : State} (h : s.rValid = false) {r : HostReg} (hr : r ∈ resultRegs) :
    holdsValue r s = false := by
  simp only [resultRegs, List.mem_cons, List.not_mem_nil, or_false] at hr
  rcases hr with rfl | rfl | rfl | rfl | rfl | rfl <;> simp [holdsValue, h]

/-- Where the last command did not write a frame, the four registers of a frame alone hold no value (R45, R48). -/
theorem holdsValue_false_of_held_ne_frame {s : State} (h : s.held ≠ .frame) {r : HostReg}
    (hr : r ∈ [HostReg.rTid, .rSid, .rFc, .rPayload]) : holdsValue r s = false := by
  simp only [List.mem_cons, List.not_mem_nil, or_false] at hr
  rcases hr with rfl | rfl | rfl | rfl <;> simp [holdsValue, h]

/-- `R_VALID` as the host reads it (R36). -/
theorem regContents_rValid (s : State) : regContents .rValid s = .bit (if s.rValid = true then 1 else 0) := by
  cases h : s.rValid <;> simp [regContents, h]

/-- `VARIANT` as the host reads it (R33). -/
theorem regContents_variant (s : State) : regContents .variant s = .bit (if s.variant = .tcp then 1 else 0) := by
  cases h : s.variant <;> simp [regContents, h, Variant.bit]

/-- Settles O49: each part comes down to whether the register holds a value. -/
theorem readWithoutValueFaults : Obligations.ReadWithoutValueFaults := by
  refine ⟨?_, ?_, ?_, ?_, ?_⟩
  · intro s hv r hr
    exact readFaults_of_no_value (holdsValue_false_of_rValid_false hv hr)
  · intro s t o h r hr
    obtain ⟨-, rfl⟩ := accept_next h
    exact readFaults_of_no_value (holdsValue_false_of_held_ne_frame (by simp [checksumCommand]) hr)
  · intro s t i h hb
    have hc : CompletedWith .frame t := by
      rcases h with ⟨hi, h⟩ | ⟨hp, rfl⟩
      · exact writtenBy_of_ne_crc16 hi ▸ .of_exec h hb
      · exact .of_resume hp hb
    have hne : t.held ≠ .checksum := by rw [hc.held]; split <;> decide
    exact readFaults_of_no_value (by simp [holdsValue, hne])
  · intro s t i h hb
    obtain ⟨w, hc⟩ : ∃ w, CompletedWith w t := by
      rcases h with h | h | ⟨hp, rfl⟩
      · exact ⟨_, .of_exec h hb⟩
      · exact ⟨.frame, (CompletedWith.of_illegal h).1⟩
      · exact ⟨_, .of_resume hp hb⟩
    refine ⟨readGives_of_value hc.statusHeld, ?_⟩
    rw [← regContents_rValid]
    exact readGives_of_value rfl
  · intro s h
    exact readFaults_of_no_value h

/-! ## Reset (R49, R260) -/

/-- With neither `STATUS` nor a result held, a read of any register that R49 leaves without a value faults. -/
theorem readFaults_of_nothing_held {s : State} (hs : s.statusHeld = false) (hv : s.rValid = false) {r : HostReg}
    (hr : r ∈ HostReg.status :: resultRegs) : readFaults r s := by
  rcases List.mem_cons.1 hr with rfl | hr
  · exact readFaults_of_no_value hs
  · exact readFaults_of_no_value (holdsValue_false_of_rValid_false hv hr)

/-- Settles O48: the state after RESET is written out in `hostReset`, and it holds nothing. -/
theorem resetLeavesTheResetState : Obligations.ResetLeavesTheResetState := by
  constructor
  · intro s rest h
    refine ⟨{ State.reset with variant := s.variant, schedule := rest, copies := s.copies }, ?_, rfl, rfl, rfl, rfl,
      rfl, rfl, rfl, rfl, rfl, fun r hr => readFaults_of_nothing_held rfl rfl hr⟩
    simp only [step, h]
    rfl
  · exact ⟨rfl, rfl, rfl, rfl, rfl, rfl, fun r hr => readFaults_of_nothing_held rfl rfl hr⟩

/-! ## VARIANT (R33) -/

theorem DecodeOutcome.variant_eq {v : Variant} {good : Prop} {pre : List Byte} {s t : State}
    (h : DecodeOutcome v good pre s t) : t.variant = s.variant := by cases h <;> rfl

theorem ExecOutcome.variant_eq {i : Instr} {s t : State} (h : ExecOutcome s i t) : t.variant = s.variant := by
  cases h with
  | crc16 | encodeRtu | encodeTcp | encodeTcpTooLong => rfl
  | decodeRtu _ _ _ _ _ _ h => exact h.variant_eq
  | decodeTcp _ _ _ _ _ _ h => exact h.variant_eq
  | functionCodeRtu _ _ _ _ _ _ _ h => exact h.variant_eq
  | functionCodeTcp _ _ _ _ _ h => exact h.variant_eq

/-- With no command in progress the engine does nothing (R261). -/
theorem resume_idle {s : State} (h : s.progress = .idle) : resume s = s := by simp [resume, h]

theorem resume_variant (s : State) : (resume s).variant = s.variant := by
  by_cases hp : s.progress = .idle
  · rw [resume_idle hp]
  · obtain ⟨_, -, h⟩ := resume_outcome s hp
    exact h.variant_eq

theorem StepOutcome.variant_eq {s t : State} (h : StepOutcome s t) : t.variant = s.variant := by
  cases h with
  | command i rest _ h => exact h.variant_eq
  | functionCodeRtu _ _ _ _ _ _ _ _ h => exact h.variant_eq
  | functionCodeTcp _ _ _ _ h => exact h.variant_eq
  | resumed rest => exact resume_variant _
  | illegal | fed | ended | timedOut | timedOutIdle | reset | read => rfl

/-- Settles O52: by the cases of a step. -/
theorem variantIsFixed : Obligations.VariantIsFixed := by
  refine ⟨fun s t h => (step_next h).variant_eq, fun s => ?_⟩
  rw [← regContents_variant]
  exact readGives_of_value rfl

/-! ## The frame in the result registers (R40, R41, R42) -/

theorem DecodeOutcome.frameValid {v : Variant} {good : Prop} {pre : List Byte} {s t : State}
    (h : DecodeOutcome v good pre s t) (hg : good) (hb : t.busy = false) (hs : t.status = 0x00) :
    frameValid v t.rTid t.rSid t.rFc t.rPayload t.rRaw := by
  cases h with
  | error e c taken rest he hi => exact absurd ((Status.code_eq_zero e).1 hs) he
  | frame tid sid fc payload raw c taken rest hi hv => exact (hv hg).2.1
  | waiting p taken rest hp hi ht he hk hw => simp at hb

/-- A decode that goes on from a good state to OK leaves a frame of the block's variant. -/
theorem resume_frameValid {s : State} (hi : s.Inv) (hp : s.progress ≠ .idle) (hb : (resume s).busy = false)
    (hs : (resume s).status = 0x00) :
    frameValid s.variant (resume s).rTid (resume s).rSid (resume s).rFc (resume s).rPayload (resume s).rRaw :=
  (resume_outcome_of_wellFormed s hp hi.progress).frameValid trivial hb hs

theorem encodeRtu_frameValid {o : Operands} {s t : State} (h : exec (.encodeRtu o) s = .next t) :
    frameValid .rtu t.rTid t.rSid t.rFc t.rPayload t.rRaw := by
  obtain ⟨-, -, rfl⟩ := acceptUnder_next h
  exact ⟨rfl, rfl⟩

theorem encodeTcp_frameValid {o : Operands} {s t : State} (h : exec (.encodeTcp o) s = .next t)
    (hs : t.status = 0x00) : frameValid .tcp t.rTid t.rSid t.rFc t.rPayload t.rRaw := by
  obtain ⟨-, -, rfl⟩ := acceptUnder_next h
  unfold tcpEncode at hs ⊢
  split
  · next hl =>
    rw [if_pos hl] at hs
    exact absurd ((Status.code_eq_zero .invalidLength).1 hs) (by decide)
  · next hl => exact ⟨Nat.le_of_not_lt hl, rfl⟩

/-- Settles O33: each way to complete leaves `frameValid` registers. -/
theorem rtuFrameInRegistersIsValid : Obligations.RtuFrameInRegistersIsValid := by
  intro s t o h hb hs
  have hv : frameValid .rtu t.rTid t.rSid t.rFc t.rPayload t.rRaw := by
    rcases h with h | h | h | ⟨hi, hv, hp, rfl⟩
    · exact encodeRtu_frameValid h
    · obtain ⟨-, -, hd⟩ := execDecodeRtu_next (.inl rfl) h
      exact hd.frameValid trivial hb hs
    · obtain ⟨-, -, hd⟩ := execDecodeRtu_next (.inr rfl) h
      exact hd.frameValid trivial hb hs
    · exact hv ▸ resume_frameValid hi hp hb hs
  obtain ⟨htid, hraw⟩ := hv
  refine ⟨hraw, ?_, htid⟩
  simp only [hraw, List.length_append, List.length_cons, le16_length]
  omega

/-- Settles O34: each way to complete leaves `frameValid` registers. -/
theorem tcpFrameInRegistersIsValid : Obligations.TcpFrameInRegistersIsValid := by
  intro s t o h hb hs
  have hv : frameValid .tcp t.rTid t.rSid t.rFc t.rPayload t.rRaw := by
    rcases h with h | h | h | ⟨hi, hv, hp, rfl⟩
    · exact encodeTcp_frameValid h hs
    · obtain ⟨-, -, hd⟩ := execDecodeTcp_next (.inl rfl) h
      exact hd.frameValid trivial hb hs
    · obtain ⟨-, -, hd⟩ := execDecodeTcp_next (.inr rfl) h
      exact hd.frameValid trivial hb hs
    · exact hv ▸ resume_frameValid hi hp hb hs
  obtain ⟨hlen, hraw⟩ := hv
  refine ⟨hraw, ?_, by omega⟩
  simp only [hraw, mbapHeader, List.length_append, List.length_cons, List.length_nil, be16_length]

/-! ## The register crc (R47)

A state function that starts every checksum afresh gives, from two states that differ in `crc` alone, two states
that differ in `crc` alone; so do the stages of a decode, an instruction and a step in turn. -/

/-- `s` with another value in `crc`. -/
def setCrc (c : Half) (s : State) : State := { s with crc := c }

@[simp] theorem setCrc_variant (c : Half) (s : State) : (setCrc c s).variant = s.variant := rfl
@[simp] theorem setCrc_busy (c : Half) (s : State) : (setCrc c s).busy = s.busy := rfl
@[simp] theorem setCrc_ibuf (c : Half) (s : State) : (setCrc c s).ibuf = s.ibuf := rfl
@[simp] theorem setCrc_srcEnd (c : Half) (s : State) : (setCrc c s).srcEnd = s.srcEnd := rfl
@[simp] theorem setCrc_srcTimeout (c : Half) (s : State) : (setCrc c s).srcTimeout = s.srcTimeout := rfl
@[simp] theorem setCrc_progress (c : Half) (s : State) : (setCrc c s).progress = s.progress := rfl
@[simp] theorem setCrc_schedule (c : Half) (s : State) : (setCrc c s).schedule = s.schedule := rfl

/-- From states that differ in `crc` alone `f` answers states that do. -/
def IgnoresCrc (f : State → State) : Prop := ∀ s c, ∃ d, f (setCrc c s) = setCrc d (f s)

/-- From states that differ in `crc` alone `f` answers the same outcome, up to `crc`. -/
def OutcomeIgnoresCrc (f : State → Result) : Prop := ∀ s c, sameButCrc (f s) (f (setCrc c s))

/-- A function that neither reads nor writes `crc`. -/
theorem IgnoresCrc.of_carries {f : State → State} (h : ∀ s c, f (setCrc c s) = setCrc c (f s)) :
    IgnoresCrc f := fun s c => ⟨c, h s c⟩

/-- A function that writes `crc` without reading it. -/
theorem IgnoresCrc.of_overwrites {f : State → State} (h : ∀ s c, f (setCrc c s) = f s) : IgnoresCrc f :=
  fun s c => ⟨(f s).crc, h s c⟩

theorem IgnoresCrc.comp {f g : State → State} (hf : IgnoresCrc f) (hg : IgnoresCrc g) :
    IgnoresCrc (fun s => f (g s)) := by
  intro s c
  obtain ⟨d, hd⟩ := hg s c
  simpa only [hd] using hf (g s) d

theorem IgnoresCrc.sameButCrc {f : State → State} (h : IgnoresCrc f) (s : State) (c : Half) :
    sameButCrc (.next (f s)) (.next (f (setCrc c s))) := by
  obtain ⟨d, hd⟩ := h s c
  rw [hd]
  rfl

theorem streamDiscard_ignoresCrc (n : Nat) : IgnoresCrc (streamDiscard n) := .of_carries fun _ _ => rfl

theorem raise_ignoresCrc (e : Status) : IgnoresCrc (raise e) := .of_carries fun _ _ => rfl

theorem completeFrame_ignoresCrc (tid : Half) (sid fc : Byte) (payload raw : List Byte) :
    IgnoresCrc (completeFrame tid sid fc payload raw) := .of_carries fun _ _ => rfl

/-- How a stage of a decode uses what a stream primitive answers: `k` goes on with the bytes. -/
def Taken.andThen (k : List Byte → State → State) : Taken → State
  | .bytes bs s => k bs s
  | .stopped s => s

/-- The answer of a primitive with `crc` replaced. -/
def Taken.withCrc (c : Half) : Taken → Taken
  | .bytes bs s => .bytes bs (setCrc c s)
  | .stopped s => .stopped (setCrc c s)

theorem await_setCrc (p : Progress) (s : State) (c : Half) :
    await p (setCrc c s) = setCrc c (await p s) := by
  unfold await
  rw [setCrc_srcTimeout, setCrc_srcEnd]
  split
  · rfl
  · split <;> rfl

theorem streamRead_setCrc (n : Nat) (got : List Byte) (p : List Byte → Progress) (s : State) (c : Half) :
    streamRead n got p (setCrc c s) = (streamRead n got p s).withCrc c := by
  unfold streamRead
  rw [setCrc_ibuf]
  split
  · rfl
  · exact congrArg Taken.stopped (await_setCrc _ { s with ibuf := [] } c)

theorem streamPeek_setCrc (n : Nat) (p : Progress) (s : State) (c : Half) :
    streamPeek n p (setCrc c s) = (streamPeek n p s).withCrc c := by
  unfold streamPeek
  rw [setCrc_ibuf]
  split
  · rfl
  · exact congrArg Taken.stopped (await_setCrc p s c)

theorem Taken.andThen_withCrc {k : List Byte → State → State} (hk : ∀ bs, IgnoresCrc (k bs)) (a : Taken) (c : Half) :
    ∃ d, (a.withCrc c).andThen k = setCrc d (a.andThen k) := by
  cases a with
  | bytes bs s => exact hk bs s c
  | stopped s => exact ⟨c, rfl⟩

/-- A stage that reads and goes on ignores `crc` when what follows does. -/
theorem streamRead_andThen_ignoresCrc (n : Nat) (got : List Byte) (p : List Byte → Progress)
    {k : List Byte → State → State} (hk : ∀ bs, IgnoresCrc (k bs)) :
    IgnoresCrc (fun s => (streamRead n got p s).andThen k) := by
  intro s c
  simpa only [streamRead_setCrc] using Taken.andThen_withCrc hk (streamRead n got p s) c

theorem streamPeek_andThen_ignoresCrc (n : Nat) (p : Progress) {k : List Byte → State → State}
    (hk : ∀ bs, IgnoresCrc (k bs)) : IgnoresCrc (fun s => (streamPeek n p s).andThen k) := by
  intro s c
  simpa only [streamPeek_setCrc] using Taken.andThen_withCrc hk (streamPeek n p s) c

theorem rtuVerify_ignoresCrc (sid : Byte) (f : FunctionCode) (payload c : List Byte) :
    IgnoresCrc (rtuVerify sid f payload c) := .of_overwrites fun _ _ => rfl

theorem rtuChecksum_ignoresCrc (dir : Direction) (sid : Byte) (f : FunctionCode) (payload got : List Byte) :
    IgnoresCrc (rtuChecksum dir sid f payload got) :=
  streamRead_andThen_ignoresCrc 2 got (.rtuChecksum dir sid f payload) fun c => rtuVerify_ignoresCrc sid f payload c

theorem rtuData_ignoresCrc (dir : Direction) (sid : Byte) (f : FunctionCode) (head got : List Byte) :
    IgnoresCrc (rtuData dir sid f head got) :=
  streamRead_andThen_ignoresCrc (dataLength (rtuShape dir f) head) got (.rtuData dir sid f head)
    fun d => rtuChecksum_ignoresCrc dir sid f (head ++ d) []

theorem rtuHead_ignoresCrc (dir : Direction) (sid : Byte) (f : FunctionCode) (got : List Byte) :
    IgnoresCrc (rtuHead dir sid f got) :=
  streamRead_andThen_ignoresCrc (headLength (rtuShape dir f)) got (.rtuHead dir sid f)
    fun h => rtuData_ignoresCrc dir sid f h []

theorem rtuSelect_ignoresCrc (dir : Direction) (sid fc : Byte) : IgnoresCrc (rtuSelect dir sid fc) := by
  unfold rtuSelect
  cases decodeFunctionCode fc with
  | some f => exact rtuHead_ignoresCrc dir sid f []
  | none => exact raise_ignoresCrc _

theorem rtuFunction_ignoresCrc (dir : Direction) (sid : Byte) : IgnoresCrc (rtuFunction dir sid) :=
  streamRead_andThen_ignoresCrc 1 [] (fun _ => .rtuFunction dir sid) fun b => rtuSelect_ignoresCrc dir sid (byteAt b 0)

theorem rtuDecode_ignoresCrc (dir : Direction) : IgnoresCrc (rtuDecode dir) :=
  streamRead_andThen_ignoresCrc 1 [] (fun _ => .rtuStation dir) fun b => rtuFunction_ignoresCrc dir (byteAt b 0)

theorem tcpPayload_ignoresCrc (h got : List Byte) : IgnoresCrc (tcpPayload h got) :=
  streamRead_andThen_ignoresCrc (tcpPayloadLength h) got (.tcpPayload h)
    fun p => completeFrame_ignoresCrc (readBe16 h 0) (byteAt h 6) (byteAt h 7) p (h ++ p)

/-- An error of a TCP header drops one byte (R183, R184). -/
theorem raise_after_discard_ignoresCrc (e : Status) (n : Nat) : IgnoresCrc (fun s => raise e (streamDiscard n s)) :=
  (raise_ignoresCrc e).comp (streamDiscard_ignoresCrc n)

theorem tcpLength_ignoresCrc (h : List Byte) : IgnoresCrc (tcpLength h) := by
  unfold tcpLength
  by_cases hc : (readBe16 h 4).toNat < 2
  · simpa only [if_pos hc] using raise_after_discard_ignoresCrc .invalidLength 1
  · simpa only [if_neg hc] using (tcpPayload_ignoresCrc h []).comp (streamDiscard_ignoresCrc 8)

theorem tcpSelect_ignoresCrc (h : List Byte) : IgnoresCrc (tcpSelect h) := by
  unfold tcpSelect
  cases decodeFunctionCode (byteAt h 7) with
  | some f => exact tcpLength_ignoresCrc h
  | none => exact raise_after_discard_ignoresCrc .unknownFunctionCode 1

theorem tcpHeader_ignoresCrc (h : List Byte) : IgnoresCrc (tcpHeader h) := by
  unfold tcpHeader
  by_cases hp : readBe16 h 2 = 0x0000#16
  · simpa only [if_pos hp] using tcpSelect_ignoresCrc h
  · simpa only [if_neg hp] using raise_after_discard_ignoresCrc .protocolFlagError 1

theorem tcpDecode_ignoresCrc : IgnoresCrc tcpDecode :=
  streamPeek_andThen_ignoresCrc 8 .tcpPeek fun h => tcpHeader_ignoresCrc h

theorem tcpEncode_ignoresCrc (tid : Half) (sid fc : Byte) (data : List Byte) :
    IgnoresCrc (tcpEncode tid sid fc data) := by
  unfold tcpEncode
  by_cases hl : Config.maxTcpPayload < data.length
  · simpa only [if_pos hl] using raise_ignoresCrc .invalidLength
  · simpa only [if_neg hl] using completeFrame_ignoresCrc tid sid fc data _

theorem resume_ignoresCrc : IgnoresCrc resume := by
  intro s c
  unfold resume
  rw [setCrc_progress]
  cases s.progress with
  | idle => exact ⟨c, rfl⟩
  | rtuStation dir => exact rtuDecode_ignoresCrc dir s c
  | rtuFunction dir sid => exact rtuFunction_ignoresCrc dir sid s c
  | rtuHead dir sid f got => exact rtuHead_ignoresCrc dir sid f got s c
  | rtuData dir sid f head got => exact rtuData_ignoresCrc dir sid f head got s c
  | rtuChecksum dir sid f payload got => exact rtuChecksum_ignoresCrc dir sid f payload got s c
  | tcpPeek => exact tcpDecode_ignoresCrc s c
  | tcpPayload h got => exact tcpPayload_ignoresCrc h got s c

theorem accept_ignoresCrc {run : State → State} (h : IgnoresCrc run) : OutcomeIgnoresCrc (accept run) := by
  intro s c
  unfold accept
  rw [setCrc_busy]
  split
  · rfl
  · exact h.sameButCrc { s with busy := true } c

theorem acceptUnder_ignoresCrc (v : Variant) {run : State → State} (h : IgnoresCrc run) :
    OutcomeIgnoresCrc (acceptUnder v run) := by
  intro s c
  unfold acceptUnder
  rw [setCrc_variant]
  split
  · exact accept_ignoresCrc h s c
  · rfl

theorem takeFunctionCode_ignoresCrc (f : FunctionCode) : OutcomeIgnoresCrc (takeFunctionCode f) := by
  intro s c
  unfold takeFunctionCode
  rw [setCrc_progress, setCrc_ibuf]
  cases s.progress with
  | rtuFunction dir sid => exact (rtuHead_ignoresCrc dir sid f []).sameButCrc s c
  | tcpPeek =>
    dsimp only
    split
    · exact (tcpLength_ignoresCrc (s.ibuf.take 8)).sameButCrc s c
    · rfl
  | _ => rfl

theorem exec_ignoresCrc (i : Instr) : OutcomeIgnoresCrc (exec i) := by
  cases i with
  | crc16 o => exact accept_ignoresCrc (.of_overwrites fun _ _ => rfl)
  | encodeRtu o => exact acceptUnder_ignoresCrc .rtu (.of_overwrites fun _ _ => rfl)
  | encodeTcp o => exact acceptUnder_ignoresCrc .tcp (tcpEncode_ignoresCrc o.tid o.sid o.fc o.data)
  | decodeReqRtu o => exact acceptUnder_ignoresCrc .rtu (rtuDecode_ignoresCrc .req)
  | decodeRspRtu o => exact acceptUnder_ignoresCrc .rtu (rtuDecode_ignoresCrc .rsp)
  | decodeReqTcp o => exact acceptUnder_ignoresCrc .tcp tcpDecode_ignoresCrc
  | decodeRspTcp o => exact acceptUnder_ignoresCrc .tcp tcpDecode_ignoresCrc
  | fcReadCoils => exact takeFunctionCode_ignoresCrc .readCoils
  | fcReadDiscreteInputs => exact takeFunctionCode_ignoresCrc .readDiscreteInputs
  | fcReadHoldingRegisters => exact takeFunctionCode_ignoresCrc .readHoldingRegisters
  | fcReadInputRegisters => exact takeFunctionCode_ignoresCrc .readInputRegisters
  | fcWriteSingleCoil => exact takeFunctionCode_ignoresCrc .writeSingleCoil
  | fcWriteSingleRegister => exact takeFunctionCode_ignoresCrc .writeSingleRegister
  | fcWriteMultipleCoils => exact takeFunctionCode_ignoresCrc .writeMultipleCoils
  | fcWriteMultipleRegisters => exact takeFunctionCode_ignoresCrc .writeMultipleRegisters

/-- The function code a decode is at does not depend on `crc`. -/
theorem fetchFunctionCode_setCrc (s : State) (c : Half) :
    fetchFunctionCode (setCrc c s) =
      (fetchFunctionCode s).map fun ft => (ft.1, setCrc c ft.2) := by
  unfold fetchFunctionCode
  rw [setCrc_progress, setCrc_ibuf]
  cases s.progress with
  | rtuFunction dir sid =>
    cases s.ibuf with
    | nil => rfl
    | cons b rest => dsimp only; rw [Option.map_map]; rfl
  | tcpPeek =>
    dsimp only
    split
    · rw [Option.map_map]; rfl
    · rfl
  | _ => rfl

theorem engineTurn_ignoresCrc : OutcomeIgnoresCrc engineTurn := by
  intro s c
  unfold engineTurn
  rw [fetchFunctionCode_setCrc]
  cases fetchFunctionCode s with
  | some ft => exact exec_ignoresCrc _ ft.2 c
  | none => exact resume_ignoresCrc.sameButCrc s c

theorem issueCommand_ignoresCrc (bytes : List Byte) : OutcomeIgnoresCrc (issueCommand bytes) := by
  intro s c
  unfold issueCommand
  rw [setCrc_variant]
  split
  · exact exec_ignoresCrc _ s c
  · exact accept_ignoresCrc (raise_ignoresCrc .illegalCommand) s c
  all_goals rfl

theorem hostFeed_ignoresCrc (bs : List Byte) : OutcomeIgnoresCrc (hostFeed bs) := by
  intro s c
  unfold hostFeed
  rw [setCrc_srcEnd]
  split <;> rfl

theorem hostTimeout_ignoresCrc : OutcomeIgnoresCrc hostTimeout := by
  intro s c
  unfold hostTimeout
  rw [setCrc_busy]
  split <;> rfl

theorem hostRead_ignoresCrc (r : HostReg) : OutcomeIgnoresCrc (hostRead r) := by
  intro s c
  have hv : holdsValue r (setCrc c s) = holdsValue r s := by cases r <;> rfl
  have hc : regContents r (setCrc c s) = regContents r s := by cases r <;> rfl
  unfold hostRead
  rw [hv, hc]
  split <;> rfl

theorem hostTurn_ignoresCrc (a : HostAction) : OutcomeIgnoresCrc (hostTurn a) := by
  intro s c
  cases a with
  | issue bytes => exact issueCommand_ignoresCrc bytes s c
  | feed bs => exact hostFeed_ignoresCrc bs s c
  | endOfStream => rfl
  | timeout => exact hostTimeout_ignoresCrc s c
  | reset => rfl
  | read r => exact hostRead_ignoresCrc r s c

/-- Settles O55: every checksum starts afresh, so each turn ignores `crc`. -/
theorem checksumRegisterIsNotObservable : Obligations.ChecksumRegisterIsNotObservable := by
  intro s c
  change sameButCrc (step s) (step (setCrc c s))
  unfold step
  rw [setCrc_schedule]
  split
  · exact engineTurn_ignoresCrc s c
  · next rest _ => exact engineTurn_ignoresCrc { s with schedule := rest } c
  · next a rest _ => exact hostTurn_ignoresCrc a { s with schedule := rest } c

end Sys2Proof.Machine

/-! Proofs of the statements about the input stream and its waits (20_memory): what a decode takes from `IBUF`, the
order in which a wait is settled, the host's actions on the stream, and the host's copies. -/

namespace Sys2Proof.Machine

/-! ## The host's actions on the stream (R62, R264) -/

theorem step_host {s : State} {a : HostAction} {rest : List Turn} (h : s.schedule = .host a :: rest) :
    step s = hostTurn a { s with schedule := rest } := by rw [step, h]

/-- Settles O47: each action is the host's next turn, and its flag decides. -/
theorem hostActsOnTheStream : Obligations.HostActsOnTheStream := by
  intro s rest
  refine ⟨fun bs h he => ?_, fun bs h he => ?_, step_host, fun h hb => ?_, fun h hb => ?_⟩ <;> rw [step_host h]
  · simp [hostTurn, hostFeed, he]
  · simp [hostTurn, hostFeed, he]
  · simp [hostTurn, hostTimeout, hb]
  · simp [hostTurn, hostTimeout, hb]

/-! ## The host's copies (R79) -/

theorem DecodeOutcome.copies_eq {v : Variant} {good : Prop} {pre : List Byte} {s t : State}
    (h : DecodeOutcome v good pre s t) : t.copies = s.copies := by cases h <;> rfl

theorem ExecOutcome.copies_eq {i : Instr} {s t : State} (h : ExecOutcome s i t) : t.copies = s.copies := by
  cases h with
  | crc16 | encodeRtu | encodeTcp | encodeTcpTooLong => rfl
  | decodeRtu _ _ _ _ _ _ h => exact h.copies_eq
  | decodeTcp _ _ _ _ _ _ h => exact h.copies_eq
  | functionCodeRtu _ _ _ _ _ _ _ h => exact h.copies_eq
  | functionCodeTcp _ _ _ _ _ h => exact h.copies_eq

theorem resume_copies (s : State) : (resume s).copies = s.copies := by
  by_cases hp : s.progress = .idle
  · rw [resume_idle hp]
  · obtain ⟨_, -, h⟩ := resume_outcome s hp
    exact h.copies_eq

/-- A step leaves the copies alone, or it is a read and puts one before them. -/
theorem StepOutcome.copies_cases {s t : State} (h : StepOutcome s t) :
    t.copies = s.copies ∨ ∃ c, t.copies = c :: s.copies := by
  cases h with
  | read _ r v => exact .inr ⟨⟨r, v⟩, rfl⟩
  | command _ _ _ h => exact .inl h.copies_eq
  | functionCodeRtu _ _ _ _ _ _ _ _ h => exact .inl h.copies_eq
  | functionCodeTcp _ _ _ _ h => exact .inl h.copies_eq
  | resumed _ => exact .inl (resume_copies _)
  | illegal | fed | ended | timedOut | timedOutIdle | reset => exact .inl rfl

/-- Settles O51: by the cases of a step. -/
theorem hostCopiesStayAsRead : Obligations.HostCopiesStayAsRead := by
  intro s t h
  rcases (step_next h).copies_cases with hc | ⟨c, hc⟩
  · exact ⟨[], by simp, hc⟩
  · exact ⟨[c], by simp, hc⟩

/-! ## The bytes a decode takes (R67) -/

/-- A decode of whose frame `pre` was taken before has then taken its whole frame if it ends with OK, and the bytes it
holds if it waits. -/
theorem DecodeOutcome.consumes {v : Variant} {pre : List Byte} {s t : State} (h : DecodeOutcome v True pre s t) :
    (t.busy = false → t.status = 0x00 → pre ++ s.ibuf = t.rRaw ++ t.ibuf) ∧
    (t.busy = true → pre ++ s.ibuf = t.progress.taken ++ t.ibuf) := by
  cases h with
  | error e c taken rest he hi =>
    exact ⟨fun _ hs => absurd ((Status.code_eq_zero e).1 hs) he, fun hb => by simp at hb⟩
  | frame tid sid fc payload raw c taken rest hi hv =>
    exact ⟨fun _ _ => by simp [hi, (hv trivial).1], fun hb => by simp at hb⟩
  | waiting p taken rest hp hi ht he hk hw =>
    exact ⟨fun hb => by simp at hb, fun _ => by simp [hi, hk]⟩

/-- The codes of the three checks of a TCP header (R183, R184). -/
def headerErrorCodes : List Byte := [0x01, 0x03, 0x04]

/-- A decode that is short of bytes ends with no error of a header. -/
theorem await_not_header_error {p : Progress} {s : State} (hb : (await p s).busy = false) :
    (await p s).status ∉ headerErrorCodes := by
  rcases await_cases p s with ⟨-, h⟩ | ⟨-, -, h⟩ | ⟨-, -, h⟩
  · rw [h, errorOutcome_status]; decide
  · rw [h, errorOutcome_status]; decide
  · simp [h] at hb

/-- Past the checks of its header a TCP decode ends with no error of one. -/
theorem tcpPayload_not_header_error {h got : List Byte} {s : State} (hb : (tcpPayload h got s).busy = false) :
    (tcpPayload h got s).status ∉ headerErrorCodes := by
  unfold tcpPayload at hb ⊢
  rcases streamRead_cases (tcpPayloadLength h) got (.tcpPayload h) s with ⟨bs, rest, -, hr, -⟩ | ⟨-, hr⟩
  · simp only [hr, completeFrame_status]; decide
  · rw [hr] at hb ⊢; exact await_not_header_error hb

/-- The three checks of a header: one fails and drops the first byte (R183, R184), or the decode goes on to the
payload. -/
theorem tcpHeader_cases (h : List Byte) (s : State) :
    (∃ e : Status, tcpHeader h s = errorOutcome e.code (s.ibuf.drop 1) s) ∨
      tcpHeader h s = tcpPayload h [] (streamDiscard 8 s) := by
  unfold tcpHeader
  split
  · unfold tcpSelect
    split
    · unfold tcpLength
      split
      · exact .inl ⟨.invalidLength, rfl⟩
      · exact .inr rfl
    · exact .inl ⟨.unknownFunctionCode, rfl⟩
  · exact .inl ⟨.protocolFlagError, rfl⟩

/-- A TCP decode that ends with an error of its header has taken one byte. -/
theorem tcpDecode_header_error {s : State} (hb : (tcpDecode s).busy = false)
    (hs : (tcpDecode s).status ∈ headerErrorCodes) : ∃ b, s.ibuf = b :: (tcpDecode s).ibuf := by
  rcases streamPeek_cases 8 .tcpPeek s with ⟨h, rest, hi, hl, -⟩ | ⟨-, hr⟩
  · rw [tcpDecode_of_header hi hl] at hb hs ⊢
    rcases tcpHeader_cases h s with ⟨e, he⟩ | hp
    · obtain ⟨b, bs, hbs⟩ := List.exists_cons_of_length_pos (l := s.ibuf) (by simp [hi, hl])
      exact ⟨b, by simp [he, hbs]⟩
    · rw [hp] at hb hs
      exact absurd hs (tcpPayload_not_header_error hb)
  · rw [tcpDecode, hr] at hb hs
    exact absurd hs (await_not_header_error hb)

/-- A decode command that answers a next state has run one of the two decodes from its start. -/
theorem execDecode_outcome {o : Operands} {i : Instr} {s t : State}
    (hi : i ∈ [Instr.decodeReqRtu o, .decodeRspRtu o, .decodeReqTcp o, .decodeRspTcp o]) (h : exec i s = .next t) :
    ∃ v, DecodeOutcome v True [] { s with busy := true } t := by
  simp only [List.mem_cons, List.not_mem_nil, or_false] at hi
  rcases or_assoc.2 hi with hi | hi
  · obtain ⟨-, -, hd⟩ := execDecodeRtu_next hi h
    exact ⟨.rtu, hd⟩
  · obtain ⟨-, -, hd⟩ := execDecodeTcp_next hi h
    exact ⟨.tcp, hd⟩

theorem execDecodeTcp_eq {o : Operands} {i : Instr} {s t : State} (hi : i ∈ [Instr.decodeReqTcp o, .decodeRspTcp o])
    (h : exec i s = .next t) : t = tcpDecode { s with busy := true } := by
  obtain ⟨-, -, ht⟩ : s.variant = .tcp ∧ s.busy = false ∧ t = tcpDecode { s with busy := true } := by
    simp only [List.mem_cons, List.not_mem_nil, or_false] at hi
    rcases hi with rfl | rfl <;> exact acceptUnder_next h
  exact ht

/-- Settles O36: by the ways a decode ends, and for the errors of a TCP header by its checks. -/
theorem decodeConsumesExactlyItsFrame : Obligations.DecodeConsumesExactlyItsFrame := by
  refine ⟨?_, ?_, ?_, ?_⟩
  · intro s t o i hi h
    obtain ⟨_, hd⟩ := execDecode_outcome hi h
    exact hd.consumes
  · rintro s t hinv hp rfl
    exact (resume_outcome_of_wellFormed s hp hinv.progress).consumes
  · intro s t o i hi h hb hs
    obtain rfl := execDecodeTcp_eq hi h
    exact tcpDecode_header_error hb hs
  · rintro s t hp rfl hb hs
    have hr : resume s = tcpDecode s := by rw [resume, hp]
    rw [hr] at hb hs ⊢
    exact tcpDecode_header_error hb hs

/-! ## The order in which a wait is settled (R63) -/

/-- `s` with no TIMEOUT and no END signalled. -/
def quiet (s : State) : State := { s with srcTimeout := false, srcEnd := false }

theorem quiet_eq_self {s : State} (ht : s.srcTimeout = false) (he : s.srcEnd = false) : quiet s = s := by
  cases s
  cases ht
  cases he
  rfl

@[simp] theorem quiet_progress (s : State) : (quiet s).progress = s.progress := rfl

/-- A wait is settled by a pending TIMEOUT, then by END (R63). -/
theorem await_eq (p : Progress) (s : State) :
    await p s =
      if s.srcTimeout = true then errorOutcome 0x06 s.ibuf s
      else if s.srcEnd = true then errorOutcome 0x05 s.ibuf s
      else waitingOutcome p s.ibuf s := by
  rcases await_cases p s with ⟨ht, h⟩ | ⟨ht, he, h⟩ | ⟨ht, he, h⟩
  · simp [ht, h]
  · simp [ht, he, h]
  · simp [ht, he, h]

/-- The answer of a decode from `s`, the last argument, beside its answer from `quiet s`: the bytes end it in both, or
it is short of bytes in both, at the same place, and there the signals of `s` settle the wait. -/
inductive Settled (s : State) : State → State → Prop
  | ended {w t : State} (hb : w.busy = false) (h : t = { w with srcEnd := s.srcEnd }) : Settled s w t
  | short (p : Progress) (rest : List Byte) :
      Settled s (waitingOutcome p rest (quiet s)) (await p { s with ibuf := rest })

/-- The order of R63. -/
theorem Settled.in_order {s w t : State} (h : Settled s w t) :
    (w.busy = false → t = { w with srcEnd := s.srcEnd }) ∧
    (w.busy = true → t =
      if s.srcTimeout = true then errorOutcome 0x06 w.ibuf s
      else if s.srcEnd = true then errorOutcome 0x05 w.ibuf s
      else w) := by
  cases h with
  | ended hb h => exact ⟨fun _ => h, fun hw => by simp [hb] at hw⟩
  | short p rest =>
    refine ⟨fun hw => by simp at hw, fun _ => (await_eq p { s with ibuf := rest }).trans ?_⟩
    dsimp only
    split_ifs with ht he
    · rfl
    · rfl
    · rw [quiet_eq_self (Bool.eq_false_iff.2 ht) (Bool.eq_false_iff.2 he)]
      rfl

/-- From every state, the bytes come before the signals. -/
def BytesBeforeSignals (f : State → State) : Prop := ∀ s, Settled s (f (quiet s)) (f s)

/-- A stage later in the decode finds another stream and the same signals. -/
theorem Settled.of_ibuf {s w t : State} {rest : List Byte} (h : Settled { s with ibuf := rest } w t) :
    Settled s w t := by
  cases h with
  | ended hb h => exact .ended hb h
  | short p rest' => exact .short p rest'

theorem raise_bytesBeforeSignals (e : Status) : BytesBeforeSignals (raise e) := fun _ => .ended rfl rfl

theorem completeFrame_bytesBeforeSignals (tid : Half) (sid fc : Byte) (payload raw : List Byte) :
    BytesBeforeSignals (completeFrame tid sid fc payload raw) := fun _ => .ended rfl rfl

theorem BytesBeforeSignals.after_discard {f : State → State} (hf : BytesBeforeSignals f) (n : Nat) :
    BytesBeforeSignals (fun s => f (streamDiscard n s)) := fun s => (hf (streamDiscard n s)).of_ibuf

/-- A stage that reads and goes on. -/
theorem streamRead_bytesBeforeSignals (n : Nat) (got : List Byte) (p : List Byte → Progress)
    {k : List Byte → State → State} (hk : ∀ bs, BytesBeforeSignals (k bs)) :
    BytesBeforeSignals (fun s => (streamRead n got p s).andThen k) := by
  intro s
  by_cases h : n ≤ got.length + s.ibuf.length
  · have hq : n ≤ got.length + (quiet s).ibuf.length := h
    simp only [streamRead, if_pos h, if_pos hq, Taken.andThen]
    exact (hk _ { s with ibuf := s.ibuf.drop (n - got.length) }).of_ibuf
  · have hq : ¬ n ≤ got.length + (quiet s).ibuf.length := h
    simp only [streamRead, if_neg h, if_neg hq, Taken.andThen]
    exact .short _ []

theorem streamPeek_bytesBeforeSignals (n : Nat) (p : Progress) {k : List Byte → State → State}
    (hk : ∀ bs, BytesBeforeSignals (k bs)) : BytesBeforeSignals (fun s => (streamPeek n p s).andThen k) := by
  intro s
  by_cases h : n ≤ s.ibuf.length
  · have hq : n ≤ (quiet s).ibuf.length := h
    simp only [streamPeek, if_pos h, if_pos hq, Taken.andThen]
    exact hk _ s
  · have hq : ¬ n ≤ (quiet s).ibuf.length := h
    simp only [streamPeek, if_neg h, if_neg hq, Taken.andThen]
    exact .short p s.ibuf

theorem rtuVerify_bytesBeforeSignals (sid : Byte) (f : FunctionCode) (payload c : List Byte) :
    BytesBeforeSignals (rtuVerify sid f payload c) := by
  intro s
  unfold rtuVerify
  split
  · exact .ended rfl rfl
  · exact .ended rfl rfl

theorem rtuChecksum_bytesBeforeSignals (dir : Direction) (sid : Byte) (f : FunctionCode) (payload got : List Byte) :
    BytesBeforeSignals (rtuChecksum dir sid f payload got) :=
  streamRead_bytesBeforeSignals 2 got (.rtuChecksum dir sid f payload) (rtuVerify_bytesBeforeSignals sid f payload)

theorem rtuData_bytesBeforeSignals (dir : Direction) (sid : Byte) (f : FunctionCode) (head got : List Byte) :
    BytesBeforeSignals (rtuData dir sid f head got) :=
  streamRead_bytesBeforeSignals (dataLength (rtuShape dir f) head) got (.rtuData dir sid f head)
    fun d => rtuChecksum_bytesBeforeSignals dir sid f (head ++ d) []

theorem rtuHead_bytesBeforeSignals (dir : Direction) (sid : Byte) (f : FunctionCode) (got : List Byte) :
    BytesBeforeSignals (rtuHead dir sid f got) :=
  streamRead_bytesBeforeSignals (headLength (rtuShape dir f)) got (.rtuHead dir sid f)
    fun h => rtuData_bytesBeforeSignals dir sid f h []

theorem rtuSelect_bytesBeforeSignals (dir : Direction) (sid fc : Byte) : BytesBeforeSignals (rtuSelect dir sid fc) := by
  unfold rtuSelect
  cases decodeFunctionCode fc with
  | some f => exact rtuHead_bytesBeforeSignals dir sid f []
  | none => exact raise_bytesBeforeSignals _

theorem rtuFunction_bytesBeforeSignals (dir : Direction) (sid : Byte) : BytesBeforeSignals (rtuFunction dir sid) :=
  streamRead_bytesBeforeSignals 1 [] (fun _ => .rtuFunction dir sid)
    fun b => rtuSelect_bytesBeforeSignals dir sid (byteAt b 0)

theorem rtuDecode_bytesBeforeSignals (dir : Direction) : BytesBeforeSignals (rtuDecode dir) :=
  streamRead_bytesBeforeSignals 1 [] (fun _ => .rtuStation dir)
    fun b => rtuFunction_bytesBeforeSignals dir (byteAt b 0)

theorem tcpPayload_bytesBeforeSignals (h got : List Byte) : BytesBeforeSignals (tcpPayload h got) :=
  streamRead_bytesBeforeSignals (tcpPayloadLength h) got (.tcpPayload h)
    fun p => completeFrame_bytesBeforeSignals (readBe16 h 0) (byteAt h 6) (byteAt h 7) p (h ++ p)

/-- Which check of a header fails is no matter of the signals. -/
theorem tcpHeader_bytesBeforeSignals (h : List Byte) : BytesBeforeSignals (tcpHeader h) := by
  have hdrop : ∀ e, BytesBeforeSignals (fun s => raise e (streamDiscard 1 s)) := fun e =>
    (raise_bytesBeforeSignals e).after_discard 1
  intro s
  unfold tcpHeader
  split
  · unfold tcpSelect
    split
    · unfold tcpLength
      split
      · exact hdrop .invalidLength s
      · exact (tcpPayload_bytesBeforeSignals h []).after_discard 8 s
    · exact hdrop .unknownFunctionCode s
  · exact hdrop .protocolFlagError s

theorem tcpDecode_bytesBeforeSignals : BytesBeforeSignals tcpDecode :=
  streamPeek_bytesBeforeSignals 8 .tcpPeek tcpHeader_bytesBeforeSignals

theorem resume_settled {s : State} (hp : s.progress ≠ .idle) : Settled s (resume (quiet s)) (resume s) := by
  unfold resume
  rw [quiet_progress]
  cases hs : s.progress with
  | idle => exact absurd hs hp
  | rtuStation dir => exact rtuDecode_bytesBeforeSignals dir s
  | rtuFunction dir sid => exact rtuFunction_bytesBeforeSignals dir sid s
  | rtuHead dir sid f got => exact rtuHead_bytesBeforeSignals dir sid f got s
  | rtuData dir sid f head got => exact rtuData_bytesBeforeSignals dir sid f head got s
  | rtuChecksum dir sid f payload got => exact rtuChecksum_bytesBeforeSignals dir sid f payload got s
  | tcpPeek => exact tcpDecode_bytesBeforeSignals s
  | tcpPayload h got => exact tcpPayload_bytesBeforeSignals h got s

/-- A read that lacks a byte and finds none waits where it was. -/
theorem streamRead_of_empty {n : Nat} {got : List Byte} {p : List Byte → Progress} {s : State} (hi : s.ibuf = [])
    (hn : got.length < n) : streamRead n got p s = .stopped (await (p got) s) := by
  have hs : { s with ibuf := [] } = s := by rw [← hi]
  rw [streamRead_short (by simpa [hi] using hn), hs, hi, List.append_nil]

/-- A decode with nothing to go on with is at once where it waits. -/
theorem resume_of_starved {s : State} (hw : progressWellFormed s.variant s.progress = true) (h : starved s = true) :
    resume s = await s.progress s := by
  unfold starved at h
  unfold resume
  cases hp : s.progress <;>
    simp only [hp, progressWellFormed, Bool.and_eq_true, decide_eq_true_eq, Bool.false_eq_true] at h hw ⊢
  case rtuStation dir => simp only [rtuDecode, streamRead_of_empty (got := []) h Nat.one_pos]
  case rtuFunction dir sid => simp only [rtuFunction, streamRead_of_empty (got := []) h Nat.one_pos]
  case rtuHead dir sid f got => simp only [rtuHead, streamRead_of_empty h hw.2]
  case rtuData dir sid f head got => simp only [rtuData, streamRead_of_empty h hw.2]
  case rtuChecksum dir sid f payload got => simp only [rtuChecksum, streamRead_of_empty h hw.2]
  case tcpPeek => simp only [tcpDecode, streamPeek, if_neg (Nat.not_le_of_lt h)]
  case tcpPayload header got => simp only [tcpPayload, streamRead_of_empty h hw.2]

/-- A decode with nothing to go on with is before no function code. -/
theorem fetchFunctionCode_of_starved {s : State} (h : starved s = true) : fetchFunctionCode s = none := by
  unfold starved at h
  unfold fetchFunctionCode
  cases hp : s.progress <;> simp only [hp, decide_eq_true_eq] at h ⊢
  case rtuFunction dir sid => rw [h]
  case tcpPeek => exact if_neg fun hc => absurd hc.1 (Nat.not_le_of_lt h)

theorem engineTurn_of_starved {s : State} (hw : progressWellFormed s.variant s.progress = true)
    (h : starved s = true) : engineTurn s = .next (await s.progress s) := by
  rw [engineTurn, fetchFunctionCode_of_starved h, resume_of_starved hw h]

theorem step_of_engineNext {s : State} {rest : List Turn} (h : engineNext s rest) :
    step s = engineTurn { s with schedule := rest } := by
  rcases h with h | ⟨h, rfl⟩
  · rw [step, h]
  · have hs : { s with schedule := [] } = s := by rw [← h]
    rw [step, h, hs]

theorem progress_ne_idle_of_starved {s : State} (h : starved s = true) : s.progress ≠ .idle := by
  intro hp
  simp [starved, hp] at h

/-- A decode that waits where it waited is as it was. -/
theorem waitingOutcome_eq_self {s : State} (hb : s.busy = true) : waitingOutcome s.progress s.ibuf s = s := by
  unfold waitingOutcome
  rw [← hb]

/-- Settles O43: with and without the signals a decode runs short of bytes at the same place, and a starved one where it
stands. -/
theorem waitIsSettledInOrder : Obligations.WaitIsSettledInOrder := by
  constructor
  · rintro s w - hp rfl
    exact (resume_settled hp).in_order
  · intro s rest hinv hst hn
    have hb : s.busy = true := hinv.busy.2 (progress_ne_idle_of_starved hst)
    have hstay : waitingOutcome s.progress s.ibuf { s with schedule := rest } = { s with schedule := rest } :=
      waitingOutcome_eq_self (s := { s with schedule := rest }) hb
    calc step s = engineTurn { s with schedule := rest } := step_of_engineNext hn
      _ = .next (await s.progress { s with schedule := rest }) := engineTurn_of_starved hinv.progress hst
      _ = _ := by rw [await_eq, hstay]

end Sys2Proof.Machine

/-! Proofs of the statements about the encodings (30_encoding): a reserved `op`, the use of a command's fields, and
the tables of the function codes and their payload shapes. -/

namespace Sys2Proof.Machine

/-! ## A reserved `op` (R93, R240) -/

/-- The decoder on one whole descriptor with a reserved `op`. -/
theorem decode_reservedOp (v : Variant) {op : Byte} (tidHi tidLo sid fc : Byte) {lenHi lenLo : Byte}
    {data : List Byte} (hop : 0x04 ≤ op.toNat) (hlen : data.length = (word16 lenHi lenLo).toNat) :
    decode v (op :: tidHi :: tidLo :: sid :: fc :: lenHi :: lenLo :: data) = .reservedOp op [] := by
  have h := decode_fields v op tidHi tidLo sid fc lenHi lenLo data [] hlen
  rwa [List.append_nil, decodeOp_reserved hop] at h

theorem issueCommand_of_reservedOp {s : State} {bytes : List Byte} {op : Byte}
    (h : decode s.variant bytes = .reservedOp op []) : issueCommand bytes s = illegalCommand s := by
  rw [issueCommand, h]

theorem illegalCommand_free {s : State} (h : s.busy = false) :
    illegalCommand s = .next (errorOutcome 0x07 s.ibuf s) := accept_free h

/-- Settles O7: the descriptor decodes to its reserved `op`, and the free block ends that with IllegalCommand. -/
theorem reservedOpCompletesWithIllegalCommand : Obligations.ReservedOpCompletesWithIllegalCommand := by
  intro s op tidHi tidLo sid fc lenHi lenLo data rest hs hlen hop hb
  have hd := decode_reservedOp s.variant tidHi tidLo sid fc hop hlen
  calc step s = issueCommand _ { s with schedule := rest } := step_host hs
    _ = illegalCommand { s with schedule := rest } := issueCommand_of_reservedOp hd
    _ = .next (errorOutcome 0x07 s.ibuf { s with schedule := rest }) := illegalCommand_free hb

/-! ## The use of a command's fields (R94) -/

/-- The meaning of CRC16: of its fields `data` alone. -/
theorem exec_crc16 (o : Operands) (s : State) : exec (.crc16 o) s = accept (checksumCommand o.data) s := rfl

/-- The meaning of ENCODE under RTU: all its fields but `tid`. -/
theorem exec_encodeRtu (o : Operands) (s : State) :
    exec (.encodeRtu o) s = acceptUnder .rtu (rtuEncode o.sid o.fc o.data) s := rfl

/-- ENCODE under TCP of a payload that the length field can count (R180, R181). -/
theorem tcpEncode_of_fits {data : List Byte} (h : data.length ≤ 65533) (tid : Half) (sid fc : Byte) (s : State) :
    tcpEncode tid sid fc data s =
      frameOutcome tid sid fc data (mbapHeader tid (BitVec.ofNat 16 (2 + data.length)) sid fc ++ data) s.ibuf s :=
  if_neg (Nat.not_lt_of_le h)

/-- Settles O11: each meaning names the fields it uses, and the frame or checksum it writes is made of these. -/
theorem ignoredFieldsHaveNoEffect : Obligations.IgnoredFieldsHaveNoEffect := by
  refine ⟨?_, ?_, ?_, ?_, ?_, fun s o o' => ⟨rfl, rfl, rfl, rfl⟩⟩
  · intro s o o' hdata
    rw [exec_crc16, exec_crc16, hdata]
  · intro s o o' hsid hfc hdata
    rw [exec_encodeRtu, exec_encodeRtu, hsid, hfc, hdata]
  · intro s t o h
    obtain ⟨-, rfl⟩ := accept_next h
    rfl
  · intro s t o h
    obtain ⟨-, -, rfl⟩ := acceptUnder_next h
    exact ⟨rfl, rfl, rfl, rfl⟩
  · intro s t o h hl
    obtain ⟨-, -, rfl⟩ := acceptUnder_next h
    rw [tcpEncode_of_fits hl]
    exact ⟨rfl, rfl, rfl, rfl⟩

/-! ## The function codes and their payload shapes (R96 to R103, R105) -/

/-- Settles O18: each part reads a few entries of the table. -/
theorem shapeTable : Obligations.ShapeTable := ⟨by decide, by decide, by decide, by decide⟩

/-- The eight function codes in the order of their bytes (R95). -/
def functionCodes : List FunctionCode :=
  [.readCoils, .readDiscreteInputs, .readHoldingRegisters, .readInputRegisters, .writeSingleCoil,
    .writeSingleRegister, .writeMultipleCoils, .writeMultipleRegisters]

/-- What the model says of a function code: its byte, the code, its shape as a request and as a response. -/
def functionCodeRow (f : FunctionCode) : Byte × FunctionCode × Shape × Shape :=
  (f.code, f, rtuShape .req f, rtuShape .rsp f)

/-- Settles O24: the table of the rules is the list of the model's rows. -/
theorem functionCodesHaveTheirShapes : Obligations.FunctionCodesHaveTheirShapes := by
  intro fc f req rsp h
  have hrow : (fc, f, req, rsp) ∈ functionCodes.map functionCodeRow := h
  obtain ⟨g, -, hg⟩ := List.mem_map.1 hrow
  cases hg
  exact ⟨rfl, decodeFunctionCode_code f, rfl, rfl⟩

end Sys2Proof.Machine

/-! Proofs of the statements about the checksum and the CRC16 command (40_checksum). -/

namespace Sys2Proof.Machine

/-! ## The byte rule (R121) -/

theorem crcShifts_eq_iterate (n : Nat) (c : Half) : crcShifts n c = crcShift^[n] c := by
  induction n generalizing c with
  | zero => rfl
  | succ n ih => exact ih (crcShift c)

/-- Settles O12: one more byte is one more `crcByte`, whose 8 iterations are the iterate of `crcShift`. -/
theorem checksumFollowsTheByteRule : Obligations.ChecksumFollowsTheByteRule := by
  refine ⟨rfl, fun s b => ?_⟩
  calc crc16 (s ++ [b]) = crcByte (crc16 s) b := crc16_append_byte s b
    _ = crcShift^[8] (crc16 s ^^^ b.setWidth 16) := crcShifts_eq_iterate 8 _

/-! ## CRC16 (R120) -/

/-- CRC16 in a free block. The BUSY that `accept` sets on the way is cleared by the completion. -/
theorem exec_crc16_free {s : State} (o : Operands) (h : s.busy = false) :
    exec (.crc16 o) s = .next (checksumCommand o.data s) := accept_free h

/-- What the work of CRC16 writes in a free block: BUSY, which its completion clears, was clear before. -/
theorem checksumCommand_of_free {s : State} (data : List Byte) (h : s.busy = false) :
    checksumCommand data s =
      { s with rCrc := crc16 data, rRaw := le16 (crc16 data), crc := crc16 data, status := 0x00, statusHeld := true,
               rValid := true, held := .checksum, srcTimeout := false, progress := .idle } := by
  have hs : { s with busy := false } = s := by rw [← h]
  rw [← hs]
  rfl

/-- Settles O15: a free block does the work of CRC16, and whenever CRC16 completes no frame is held. -/
theorem crc16WritesTheChecksum : Obligations.Crc16WritesTheChecksum := by
  refine ⟨?_, ?_, by decide +kernel⟩
  · intro s o h
    rw [exec_crc16_free o h, checksumCommand_of_free o.data h]
    rfl
  · intro s t o h r hr
    obtain ⟨-, rfl⟩ := accept_next h
    exact holdsValue_false_of_held_ne_frame (by simp [checksumCommand]) hr

end Sys2Proof.Machine

/-! Proofs of the statements about the RTU encoder and decoder (41_rtu_codec). -/

namespace Sys2Proof.Machine

/-! ## The two checksum bytes on the wire (R11, R122) -/

/-- The wire bytes of a checksum as the statements name them, by their bits. -/
theorem le16_eq_extract (v : Half) : le16 v = [v.extractLsb' 0 8, v.extractLsb' 8 8] := by
  rw [le16, lo8_eq_extract, hi8_eq_extract]

/-- Two received bytes are the wire bytes of a checksum when each is the byte of its place. -/
theorem pair_eq_le16_iff (c0 c1 : Byte) (v : Half) :
    [c0, c1] = le16 v ↔ c0 = v.extractLsb' 0 8 ∧ c1 = v.extractLsb' 8 8 := by
  rw [le16_eq_extract]
  simp

/-! ## ENCODE (R140) -/

/-- ENCODE in a free RTU block always completes: the BUSY that `accept` sets on the way is cleared by the
completion. -/
theorem exec_encodeRtu_free {s : State} (o : Operands) (hv : s.variant = .rtu) (hb : s.busy = false) :
    exec (.encodeRtu o) s = .next (rtuEncode o.sid o.fc o.data s) := acceptUnder_free hv hb

/-- What the work of ENCODE writes, field by field. -/
theorem rtuEncode_eq (sid fc : Byte) (data : List Byte) (s : State) :
    rtuEncode sid fc data s =
      frameOutcome 0x0000 sid fc data (sid :: fc :: data ++ le16 (crc16 (sid :: fc :: data))) s.ibuf
        { s with crc := crc16 (sid :: fc :: data) } := rfl

/-- Settles O16: a free RTU block does the work of ENCODE, whose two last bytes are those of the checksum. -/
theorem encodeRtuBuildsTheFrame : Obligations.EncodeRtuBuildsTheFrame := by
  constructor
  · intro s o hv hb
    rw [exec_encodeRtu_free o hv hb, rtuEncode_eq, le16_eq_extract]
    rfl
  · decide +kernel

/-! ## The decodes at their start (R143, R144) -/

/-- DECODE_REQ in a free RTU block runs the decode of requests. -/
theorem exec_decodeReqRtu_free {s : State} (o : Operands) (hv : s.variant = .rtu) (hb : s.busy = false) :
    exec (.decodeReqRtu o) s = .next (rtuDecode .req { s with busy := true }) := acceptUnder_free hv hb

/-- DECODE_RSP in a free RTU block runs the decode of responses. -/
theorem exec_decodeRspRtu_free {s : State} (o : Operands) (hv : s.variant = .rtu) (hb : s.busy = false) :
    exec (.decodeRspRtu o) s = .next (rtuDecode .rsp { s with busy := true }) := acceptUnder_free hv hb

/-! ## The comparison of the checksum (R145, R146) -/

/-- An accepted decode of either direction on a payload of that direction and any two bytes after it. -/
theorem rtuDecode_of_any_checksum {dir : Direction} {f : FunctionCode} {p rest : List Byte} {sid c0 c1 : Byte}
    {s : State} (hw : wellShaped dir f p = true) (hs : s.ibuf = [sid, f.code] ++ p ++ [c0, c1] ++ rest) :
    rtuDecode dir { s with busy := true } =
      if c0 = (crc16 ([sid, f.code] ++ p)).extractLsb' 0 8 ∧ c1 = (crc16 ([sid, f.code] ++ p)).extractLsb' 8 8 then
        frameOutcome 0x0000 sid f.code p ([sid, f.code] ++ p ++ [c0, c1]) rest
          { s with crc := crc16 ([sid, f.code] ++ p) }
      else errorOutcome 0x02 rest { s with crc := crc16 ([sid, f.code] ++ p) } := by
  have hverify : rtuDecode dir { s with busy := true } =
      rtuVerify sid f p [c0, c1] { s with busy := true, ibuf := rest } := rtuDecode_of_frame hw hs
  rw [hverify, rtuVerify_eq, if_congr (pair_eq_le16_iff c0 c1 _) rfl rfl]
  rfl

/-- Settles O20: both directions read the frame to its end and compare its two last bytes. -/
theorem rtuChecksumIsVerified : Obligations.RtuChecksumIsVerified := by
  constructor
  · intro s o sid c0 c1 f p rest hv hb hw hs
    rw [exec_decodeReqRtu_free o hv hb, rtuDecode_of_any_checksum hw hs]
  · intro s o sid c0 c1 f p rest hv hb hw hs
    rw [exec_decodeRspRtu_free o hv hb, rtuDecode_of_any_checksum hw hs]

/-! ## The check of the function code (R142) -/

/-- A function code outside the eight ends the decode where it stands. -/
theorem rtuSelect_unknown {fc : Byte} (h : decodeFunctionCode fc = none) (dir : Direction) (sid : Byte) (s : State) :
    rtuSelect dir sid fc s = errorOutcome 0x01 s.ibuf s := by
  rw [rtuSelect, h]
  rfl

/-- An accepted decode of either direction whose second byte is no function code has taken these two bytes. -/
theorem rtuDecode_of_unknown {sid fc : Byte} {rest : List Byte} {s : State} (h : decodeFunctionCode fc = none)
    (hs : s.ibuf = sid :: fc :: rest) (dir : Direction) :
    rtuDecode dir { s with busy := true } = errorOutcome 0x01 rest s := by
  have hselect : rtuDecode dir { s with busy := true } =
      rtuSelect dir sid fc { s with busy := true, ibuf := rest } := rtuDecode_of_bytes hs
  rw [hselect, rtuSelect_unknown h]
  rfl

/-- Settles O21: the check of the function code comes before the direction matters. -/
theorem rtuUnknownFunctionCodeTakesTwoBytes : Obligations.RtuUnknownFunctionCodeTakesTwoBytes := by
  intro s o sid fc rest hv hb hs hfc
  have hnone : decodeFunctionCode fc = none := (decodeFunctionCode_none_iff fc).2 hfc
  rw [exec_decodeReqRtu_free o hv hb, exec_decodeRspRtu_free o hv hb, rtuDecode_of_unknown hnone hs,
    rtuDecode_of_unknown hnone hs]
  exact ⟨rfl, rfl⟩

end Sys2Proof.Machine

/-! Proofs of the statements about the TCP encoder and decoder (42_tcp_codec). -/

namespace Sys2Proof.Machine

/-! ## The decodes at their start (R182) -/

/-- DECODE_REQ in a free TCP block runs the one TCP decode. -/
theorem exec_decodeReqTcp_free {s : State} (o : Operands) (hv : s.variant = .tcp) (hb : s.busy = false) :
    exec (.decodeReqTcp o) s = .next (tcpDecode { s with busy := true }) := acceptUnder_free hv hb

/-- DECODE_RSP in a free TCP block runs the same decode. -/
theorem exec_decodeRspTcp_free {s : State} (o : Operands) (hv : s.variant = .tcp) (hb : s.busy = false) :
    exec (.decodeRspTcp o) s = .next (tcpDecode { s with busy := true }) := acceptUnder_free hv hb

/-! ## The checks of the protocol id and of the function code (R183) -/

/-- A protocol id other than 0 ends the decode before the function code is looked at. -/
theorem tcpHeader_nonzero_protocol {h : List Byte} (hp : readBe16 h 2 ≠ 0x0000#16) (s : State) :
    tcpHeader h s = errorOutcome 0x03 (s.ibuf.drop 1) s := by
  rw [tcpHeader, if_neg hp]
  exact raise_after_discard .protocolFlagError 1 s

/-- With protocol id 0, a function code outside the eight ends the decode. -/
theorem tcpHeader_unknown {h : List Byte} (hp : readBe16 h 2 = 0x0000#16)
    (hf : decodeFunctionCode (byteAt h 7) = none) (s : State) :
    tcpHeader h s = errorOutcome 0x01 (s.ibuf.drop 1) s := by
  rw [tcpHeader, if_pos hp, tcpSelect, hf]
  exact raise_after_discard .unknownFunctionCode 1 s

/-- A decode on eight bytes whose protocol id is not 0 consumes the first of them. -/
theorem tcpDecode_of_nonzero_protocol {b0 b1 b2 b3 b4 b5 b6 b7 : Byte} {rest : List Byte} {s : State}
    (hs : s.ibuf = b0 :: b1 :: b2 :: b3 :: b4 :: b5 :: b6 :: b7 :: rest) (hp : ¬ (b2 = 0x00 ∧ b3 = 0x00)) :
    tcpDecode s = errorOutcome 0x03 (b1 :: b2 :: b3 :: b4 :: b5 :: b6 :: b7 :: rest) s := by
  have hpid : readBe16 [b0, b1, b2, b3, b4, b5, b6, b7] 2 ≠ 0x0000#16 := fun h => hp ((word16_eq_zero b2 b3).1 h)
  rw [tcpDecode_of_header (h := [b0, b1, b2, b3, b4, b5, b6, b7]) hs rfl, tcpHeader_nonzero_protocol hpid, hs]
  rfl

/-- A decode on eight bytes with protocol id 0 and a code outside the eight consumes the first of them. -/
theorem tcpDecode_of_unknown {b0 b1 b4 b5 b6 b7 : Byte} {rest : List Byte} {s : State}
    (hs : s.ibuf = b0 :: b1 :: 0x00 :: 0x00 :: b4 :: b5 :: b6 :: b7 :: rest) (hf : decodeFunctionCode b7 = none) :
    tcpDecode s = errorOutcome 0x01 (b1 :: 0x00 :: 0x00 :: b4 :: b5 :: b6 :: b7 :: rest) s := by
  have hpid : readBe16 [b0, b1, 0x00, 0x00, b4, b5, b6, b7] 2 = 0x0000#16 := word16_zero
  rw [tcpDecode_of_header (h := [b0, b1, 0x00, 0x00, b4, b5, b6, b7]) hs rfl, tcpHeader_unknown hpid hf, hs]
  rfl

/-- Settles O29: both decodes peek the eight bytes and fail at the first check that these do not pass. -/
theorem tcpHeaderErrorSkipsOneByte : Obligations.TcpHeaderErrorSkipsOneByte := by
  constructor
  · intro s o b0 b1 b2 b3 b4 b5 b6 b7 rest hv hb hs hp
    rw [exec_decodeReqTcp_free o hv hb, exec_decodeRspTcp_free o hv hb,
      tcpDecode_of_nonzero_protocol (s := { s with busy := true }) hs hp]
    exact ⟨rfl, rfl⟩
  · intro s o b0 b1 b4 b5 b6 b7 rest hv hb hs hf
    have hnone : decodeFunctionCode b7 = none := (decodeFunctionCode_none_iff b7).2 hf
    rw [exec_decodeReqTcp_free o hv hb, exec_decodeRspTcp_free o hv hb,
      tcpDecode_of_unknown (s := { s with busy := true }) hs hnone]
    exact ⟨rfl, rfl⟩

/-! ## The 16-bit fields of the header (R11, R12, R180) -/

/-- A 16-bit field as the statements name its two bytes, by their bits. -/
theorem be16_eq_extract (v : Half) : be16 v = [v.extractLsb' 8 8, v.extractLsb' 0 8] := by
  rw [be16, hi8_eq_extract, lo8_eq_extract]

/-- A counted 16-bit field as the statements name its two bytes, by quotient and remainder. -/
theorem be16_ofNat (n : Nat) : be16 (BitVec.ofNat 16 n) = [BitVec.ofNat 8 (n / 256), BitVec.ofNat 8 (n % 256)] := by
  have hhi : hi8 (BitVec.ofNat 16 n) = BitVec.ofNat 8 (n / 256) := by
    apply BitVec.eq_of_toNat_eq
    simp [hi8, Nat.shiftRight_eq_div_pow]
    omega
  have hlo : lo8 (BitVec.ofNat 16 n) = BitVec.ofNat 8 (n % 256) := by
    apply BitVec.eq_of_toNat_eq
    simp [lo8]
  rw [be16, hhi, hlo]

/-- The eight header bytes of a frame whose length field holds `n`. -/
theorem mbapHeader_ofNat (tid : Half) (n : Nat) (sid fc : Byte) :
    mbapHeader tid (BitVec.ofNat 16 n) sid fc =
      [tid.extractLsb' 8 8, tid.extractLsb' 0 8, 0x00, 0x00, BitVec.ofNat 8 (n / 256), BitVec.ofNat 8 (n % 256),
        sid, fc] := by
  rw [mbapHeader, be16_eq_extract tid, be16_ofNat]
  rfl

/-! ## ENCODE (R180, R181) -/

/-- ENCODE in a free TCP block does its work from the accepted state. -/
theorem exec_encodeTcp_free {s : State} (o : Operands) (hv : s.variant = .tcp) (hb : s.busy = false) :
    exec (.encodeTcp o) s = .next (tcpEncode o.tid o.sid o.fc o.data { s with busy := true }) :=
  acceptUnder_free hv hb

/-- ENCODE under TCP of a payload that the length field cannot count. -/
theorem tcpEncode_of_too_long {data : List Byte} (h : 65533 < data.length) (tid : Half) (sid fc : Byte) (s : State) :
    tcpEncode tid sid fc data s = errorOutcome 0x04 s.ibuf s := if_pos h

/-- Settles O17: whether the length field can count the payload decides between the frame and InvalidLength. -/
theorem encodeTcpBuildsTheFrame : Obligations.EncodeTcpBuildsTheFrame := by
  constructor
  · intro s o hv hb hl
    rw [exec_encodeTcp_free o hv hb, tcpEncode_of_fits hl, mbapHeader_ofNat]
    rfl
  · intro s o hv hb hl
    rw [exec_encodeTcp_free o hv hb, tcpEncode_of_too_long hl]
    rfl

end Sys2Proof.Machine

/-! Proofs of the statements about errors (60_exceptions): nothing of how the last command ended bears on what the next
one does. -/

namespace Sys2Proof.Machine

/-! ## The stages of a decode

Every stage of a decode reads or peeks the stream and goes on, or ends the command. What holds of each of these parts
and is kept when they are put together holds of the whole decode, by induction on `DecodeStage`. -/

/-- A state function that is built as the stages of a decode are (R63 to R66, R141, R182). -/
inductive DecodeStage : (State → State) → Prop
  | error (e : Status) : DecodeStage (raise e)
  | frame (tid : Half) (sid fc : Byte) (payload raw : List Byte) : DecodeStage (completeFrame tid sid fc payload raw)
  | checksum (bs : List Byte) {f : State → State} (hf : DecodeStage f) : DecodeStage (fun s => f (runChecksum bs s))
  | discard (n : Nat) {f : State → State} (hf : DecodeStage f) : DecodeStage (fun s => f (streamDiscard n s))
  | read (n : Nat) (got : List Byte) (p : List Byte → Progress) {k : List Byte → State → State}
      (hk : ∀ bs, DecodeStage (k bs)) : DecodeStage (fun s => (streamRead n got p s).andThen k)
  | peek (n : Nat) (p : Progress) {k : List Byte → State → State} (hk : ∀ bs, DecodeStage (k bs)) :
      DecodeStage (fun s => (streamPeek n p s).andThen k)

theorem rtuVerify_decodeStage (sid : Byte) (f : FunctionCode) (payload c : List Byte) :
    DecodeStage (rtuVerify sid f payload c) := by
  unfold rtuVerify
  by_cases hc : c = crcWire (sid :: f.code :: payload)
  · simpa only [if_pos hc] using .checksum _ (.frame 0x0000 sid f.code payload (sid :: f.code :: payload ++ c))
  · simpa only [if_neg hc] using .checksum _ (.error .checksumError)

theorem rtuChecksum_decodeStage (dir : Direction) (sid : Byte) (f : FunctionCode) (payload got : List Byte) :
    DecodeStage (rtuChecksum dir sid f payload got) :=
  .read 2 got (.rtuChecksum dir sid f payload) (rtuVerify_decodeStage sid f payload)

theorem rtuData_decodeStage (dir : Direction) (sid : Byte) (f : FunctionCode) (head got : List Byte) :
    DecodeStage (rtuData dir sid f head got) :=
  .read (dataLength (rtuShape dir f) head) got (.rtuData dir sid f head)
    fun d => rtuChecksum_decodeStage dir sid f (head ++ d) []

theorem rtuHead_decodeStage (dir : Direction) (sid : Byte) (f : FunctionCode) (got : List Byte) :
    DecodeStage (rtuHead dir sid f got) :=
  .read (headLength (rtuShape dir f)) got (.rtuHead dir sid f) fun h => rtuData_decodeStage dir sid f h []

theorem rtuSelect_decodeStage (dir : Direction) (sid fc : Byte) : DecodeStage (rtuSelect dir sid fc) := by
  unfold rtuSelect
  cases decodeFunctionCode fc with
  | some f => exact rtuHead_decodeStage dir sid f []
  | none => exact .error .unknownFunctionCode

theorem rtuFunction_decodeStage (dir : Direction) (sid : Byte) : DecodeStage (rtuFunction dir sid) :=
  .read 1 [] (fun _ => .rtuFunction dir sid) fun b => rtuSelect_decodeStage dir sid (byteAt b 0)

theorem rtuDecode_decodeStage (dir : Direction) : DecodeStage (rtuDecode dir) :=
  .read 1 [] (fun _ => .rtuStation dir) fun b => rtuFunction_decodeStage dir (byteAt b 0)

theorem tcpPayload_decodeStage (h got : List Byte) : DecodeStage (tcpPayload h got) :=
  .read (tcpPayloadLength h) got (.tcpPayload h)
    fun p => .frame (readBe16 h 0) (byteAt h 6) (byteAt h 7) p (h ++ p)

theorem tcpLength_decodeStage (h : List Byte) : DecodeStage (tcpLength h) := by
  unfold tcpLength
  by_cases hl : (readBe16 h 4).toNat < 2
  · simpa only [if_pos hl] using .discard 1 (.error .invalidLength)
  · simpa only [if_neg hl] using .discard 8 (tcpPayload_decodeStage h [])

theorem tcpSelect_decodeStage (h : List Byte) : DecodeStage (tcpSelect h) := by
  unfold tcpSelect
  cases decodeFunctionCode (byteAt h 7) with
  | some f => exact tcpLength_decodeStage h
  | none => exact .discard 1 (.error .unknownFunctionCode)

theorem tcpHeader_decodeStage (h : List Byte) : DecodeStage (tcpHeader h) := by
  unfold tcpHeader
  by_cases hp : readBe16 h 2 = 0x0000#16
  · simpa only [if_pos hp] using tcpSelect_decodeStage h
  · simpa only [if_neg hp] using .discard 1 (.error .protocolFlagError)

theorem tcpDecode_decodeStage : DecodeStage tcpDecode := .peek 8 .tcpPeek tcpHeader_decodeStage

/-- Where a decode waits decides the stage it goes on with (R63). -/
theorem resume_decodeStage {p : Progress} (hp : p ≠ .idle) :
    ∃ f, DecodeStage f ∧ ∀ s : State, s.progress = p → resume s = f s := by
  cases p with
  | idle => exact absurd rfl hp
  | rtuStation dir => exact ⟨_, rtuDecode_decodeStage dir, fun s hs => by rw [resume, hs]⟩
  | rtuFunction dir sid => exact ⟨_, rtuFunction_decodeStage dir sid, fun s hs => by rw [resume, hs]⟩
  | rtuHead dir sid f got => exact ⟨_, rtuHead_decodeStage dir sid f got, fun s hs => by rw [resume, hs]⟩
  | rtuData dir sid f head got => exact ⟨_, rtuData_decodeStage dir sid f head got, fun s hs => by rw [resume, hs]⟩
  | rtuChecksum dir sid f payload got =>
    exact ⟨_, rtuChecksum_decodeStage dir sid f payload got, fun s hs => by rw [resume, hs]⟩
  | tcpPeek => exact ⟨_, tcpDecode_decodeStage, fun s hs => by rw [resume, hs]⟩
  | tcpPayload h got => exact ⟨_, tcpPayload_decodeStage h got, fun s hs => by rw [resume, hs]⟩

/-! ## No error is sticky (R245)

How the last command ended stands in four fields of the state. They are written whenever a command ends and read by no
part of one, so from states that differ in them alone a command that ends leaves one and the same state. -/

/-- How the last command ended: `STATUS`, `R_VALID` and the marks of the registers that hold a value (R35, R36, R48). -/
structure Ending where
  status : Byte
  statusHeld : Bool
  rValid : Bool
  held : Held

/-- `s` as it were had the last command ended as `m` says. -/
def setEnding (m : Ending) (s : State) : State :=
  { s with status := m.status, statusHeld := m.statusHeld, rValid := m.rValid, held := m.held }

@[simp] theorem setEnding_ibuf (m : Ending) (s : State) : (setEnding m s).ibuf = s.ibuf := rfl
@[simp] theorem setEnding_srcEnd (m : Ending) (s : State) : (setEnding m s).srcEnd = s.srcEnd := rfl
@[simp] theorem setEnding_srcTimeout (m : Ending) (s : State) : (setEnding m s).srcTimeout = s.srcTimeout := rfl
@[simp] theorem setEnding_progress (m : Ending) (s : State) : (setEnding m s).progress = s.progress := rfl

/-- Where `f` ends the command, it leaves the same state however the last one ended. -/
def ForgetsEnding (f : State → State) : Prop :=
  ∀ (m : Ending) (s : State), (f s).busy = false → f (setEnding m s) = f s

/-- Where `f` answers a state in which the command has ended, it answers that state however the last one ended. -/
def OutcomeForgetsEnding (f : State → Result) : Prop :=
  ∀ (m : Ending) (s t : State), f s = .next t → t.busy = false → f (setEnding m s) = .next t

/-- A wait that ends the command raises, and a raise writes all four fields. -/
theorem await_forgetsEnding (p : Progress) : ForgetsEnding (await p) := by
  intro m s hb
  rw [await_eq p s] at hb
  rw [await_eq, await_eq, setEnding_srcTimeout, setEnding_srcEnd]
  split_ifs at hb ⊢
  · rfl
  · rfl
  · simp at hb

theorem DecodeStage.forgetsEnding {f : State → State} (h : DecodeStage f) : ForgetsEnding f := by
  induction h with
  | error e => exact fun _ _ _ => rfl
  | frame tid sid fc payload raw => exact fun _ _ _ => rfl
  | checksum bs hf ih => exact fun m s hb => ih m (runChecksum bs s) hb
  | discard n hf ih => exact fun m s hb => ih m (streamDiscard n s) hb
  | read n got p hk ih =>
    intro m s hb
    by_cases hn : n ≤ got.length + s.ibuf.length
    · have hm : n ≤ got.length + (setEnding m s).ibuf.length := hn
      simp only [streamRead, if_pos hn, if_pos hm] at hb ⊢
      exact ih _ m { s with ibuf := s.ibuf.drop (n - got.length) } hb
    · have hm : ¬ n ≤ got.length + (setEnding m s).ibuf.length := hn
      simp only [streamRead, if_neg hn, if_neg hm] at hb ⊢
      exact await_forgetsEnding _ m { s with ibuf := [] } hb
  | peek n p hk ih =>
    intro m s hb
    by_cases hn : n ≤ s.ibuf.length
    · have hm : n ≤ (setEnding m s).ibuf.length := hn
      simp only [streamPeek, if_pos hn, if_pos hm] at hb ⊢
      exact ih _ m s hb
    · have hm : ¬ n ≤ (setEnding m s).ibuf.length := hn
      simp only [streamPeek, if_neg hn, if_neg hm] at hb ⊢
      exact await_forgetsEnding p m s hb

theorem resume_forgetsEnding {s : State} (hp : s.progress ≠ .idle) (m : Ending) (hb : (resume s).busy = false) :
    resume (setEnding m s) = resume s := by
  obtain ⟨f, hf, hr⟩ := resume_decodeStage hp
  rw [hr s rfl] at hb ⊢
  rw [hr (setEnding m s) rfl]
  exact hf.forgetsEnding m s hb

theorem accept_forgetsEnding {run : State → State} (h : ForgetsEnding run) : OutcomeForgetsEnding (accept run) := by
  intro m s t hr ht
  obtain ⟨hb, rfl⟩ := accept_next hr
  rw [accept_free (s := setEnding m s) hb]
  exact congrArg Host.Outcome.next (h m { s with busy := true } ht)

theorem acceptUnder_forgetsEnding (v : Variant) {run : State → State} (h : ForgetsEnding run) :
    OutcomeForgetsEnding (acceptUnder v run) := by
  intro m s t hr ht
  obtain ⟨hv, hb, rfl⟩ := acceptUnder_next hr
  rw [acceptUnder_free (s := setEnding m s) hv hb]
  exact congrArg Host.Outcome.next (h m { s with busy := true } ht)

theorem checksumCommand_forgetsEnding (data : List Byte) : ForgetsEnding (checksumCommand data) := fun _ _ _ => rfl

theorem rtuEncode_forgetsEnding (sid fc : Byte) (data : List Byte) : ForgetsEnding (rtuEncode sid fc data) :=
  fun _ _ _ => rfl

/-- Whether the length field can count the payload is no matter of the state. -/
theorem tcpEncode_forgetsEnding (tid : Half) (sid fc : Byte) (data : List Byte) :
    ForgetsEnding (tcpEncode tid sid fc data) := fun _ _ _ => rfl

theorem takeFunctionCode_forgetsEnding (f : FunctionCode) : OutcomeForgetsEnding (takeFunctionCode f) := by
  intro m s t hr ht
  unfold takeFunctionCode at hr ⊢
  rw [setEnding_progress, setEnding_ibuf]
  cases hp : s.progress with
  | rtuFunction dir sid =>
    rw [hp] at hr
    cases hr
    exact congrArg Host.Outcome.next ((rtuHead_decodeStage dir sid f []).forgetsEnding m s ht)
  | tcpPeek =>
    rw [hp] at hr
    dsimp only at hr ⊢
    split at hr
    · next hc =>
      cases hr
      rw [if_pos hc]
      exact congrArg Host.Outcome.next ((tcpLength_decodeStage (s.ibuf.take 8)).forgetsEnding m s ht)
    · cases hr
  | _ => rw [hp] at hr; cases hr

theorem exec_forgetsEnding (i : Instr) : OutcomeForgetsEnding (exec i) := by
  cases i with
  | crc16 o => exact accept_forgetsEnding (checksumCommand_forgetsEnding o.data)
  | encodeRtu o => exact acceptUnder_forgetsEnding .rtu (rtuEncode_forgetsEnding o.sid o.fc o.data)
  | encodeTcp o => exact acceptUnder_forgetsEnding .tcp (tcpEncode_forgetsEnding o.tid o.sid o.fc o.data)
  | decodeReqRtu o => exact acceptUnder_forgetsEnding .rtu (rtuDecode_decodeStage .req).forgetsEnding
  | decodeRspRtu o => exact acceptUnder_forgetsEnding .rtu (rtuDecode_decodeStage .rsp).forgetsEnding
  | decodeReqTcp o => exact acceptUnder_forgetsEnding .tcp tcpDecode_decodeStage.forgetsEnding
  | decodeRspTcp o => exact acceptUnder_forgetsEnding .tcp tcpDecode_decodeStage.forgetsEnding
  | fcReadCoils => exact takeFunctionCode_forgetsEnding .readCoils
  | fcReadDiscreteInputs => exact takeFunctionCode_forgetsEnding .readDiscreteInputs
  | fcReadHoldingRegisters => exact takeFunctionCode_forgetsEnding .readHoldingRegisters
  | fcReadInputRegisters => exact takeFunctionCode_forgetsEnding .readInputRegisters
  | fcWriteSingleCoil => exact takeFunctionCode_forgetsEnding .writeSingleCoil
  | fcWriteSingleRegister => exact takeFunctionCode_forgetsEnding .writeSingleRegister
  | fcWriteMultipleCoils => exact takeFunctionCode_forgetsEnding .writeMultipleCoils
  | fcWriteMultipleRegisters => exact takeFunctionCode_forgetsEnding .writeMultipleRegisters

/-- Settles O42: a command that ends writes all that says how the last one ended, and no command reads it. -/
theorem noErrorIsSticky : Obligations.NoErrorIsSticky := by
  constructor
  · intro i s t st sh v h hr ht
    exact exec_forgetsEnding i ⟨st, sh, v, h⟩ s t hr ht
  · rintro s t st sh v h hp rfl ht
    exact resume_forgetsEnding hp ⟨st, sh, v, h⟩ ht

end Sys2Proof.Machine

/-! Proofs of the statements about reset and hazards (70_reset_and_hazards): the host issues one command at a time. -/

namespace Sys2Proof.Machine

/-! ## The decoder on an encoded command (R91, R92) -/

/-- A command of the variant is encoded as the descriptor of an `op` that the variant decodes to it. -/
theorem encode_command {v : Variant} {i : Instr} (hc : i.isCommand = true) (hv : i.availableIn v = true) :
    ∃ op o, encode i = descriptor op o ∧ o.wellFormed = i.wellFormed ∧ decodeOp v op o = some i := by
  cases i with
  | crc16 o => exact ⟨0x00, o, rfl, rfl, rfl⟩
  | encodeRtu o =>
    obtain rfl := of_decide_eq_true hv
    exact ⟨0x01, o, rfl, rfl, rfl⟩
  | encodeTcp o =>
    obtain rfl := of_decide_eq_true hv
    exact ⟨0x01, o, rfl, rfl, rfl⟩
  | decodeReqRtu o =>
    obtain rfl := of_decide_eq_true hv
    exact ⟨0x02, o, rfl, rfl, rfl⟩
  | decodeReqTcp o =>
    obtain rfl := of_decide_eq_true hv
    exact ⟨0x02, o, rfl, rfl, rfl⟩
  | decodeRspRtu o =>
    obtain rfl := of_decide_eq_true hv
    exact ⟨0x03, o, rfl, rfl, rfl⟩
  | decodeRspTcp o =>
    obtain rfl := of_decide_eq_true hv
    exact ⟨0x03, o, rfl, rfl, rfl⟩
  | _ => cases hc

theorem decode_encode {v : Variant} {i : Instr} (hc : i.isCommand = true) (hv : i.availableIn v = true)
    (hw : i.wellFormed = true) (rest : List Byte) : decode v (encode i ++ rest) = .instr i rest := by
  obtain ⟨op, o, he, hwo, hd⟩ := encode_command hc hv
  rw [he, decode_descriptor v op o rest (hwo.trans hw), hd, decodedAs]

theorem decode_descriptor_reserved (v : Variant) {op : Byte} {o : Operands} (hop : 0x04 ≤ op.toNat)
    (hw : o.wellFormed = true) (rest : List Byte) : decode v (descriptor op o ++ rest) = .reservedOp op rest := by
  rw [decode_descriptor v op o rest hw, decodeOp_reserved hop, decodedAs]

/-! ## One command at a time (R263) -/

theorem issueCommand_of_instr {s : State} {bytes : List Byte} {i : Instr} (h : decode s.variant bytes = .instr i []) :
    issueCommand bytes s = exec i s := by
  rw [issueCommand, h]

/-- Each command of the variant is accepted in the one way that refuses it while BUSY. -/
theorem exec_command_busy {i : Instr} {s : State} (hc : i.isCommand = true) (hv : i.availableIn s.variant = true)
    (hb : s.busy = true) : exec i s = .refused .commandWhileBusy := by
  cases i with
  | crc16 o => exact accept_busy hb
  | encodeRtu o => exact acceptUnder_busy (of_decide_eq_true hv) hb
  | encodeTcp o => exact acceptUnder_busy (of_decide_eq_true hv) hb
  | decodeReqRtu o => exact acceptUnder_busy (of_decide_eq_true hv) hb
  | decodeReqTcp o => exact acceptUnder_busy (of_decide_eq_true hv) hb
  | decodeRspRtu o => exact acceptUnder_busy (of_decide_eq_true hv) hb
  | decodeRspTcp o => exact acceptUnder_busy (of_decide_eq_true hv) hb
  | _ => cases hc

theorem illegalCommand_busy {s : State} (h : s.busy = true) : illegalCommand s = .refused .commandWhileBusy :=
  accept_busy h

/-- Settles O8: the issued bytes decode to the command, or to its reserved `op`, and either is accepted by a test of
BUSY before anything else. -/
theorem commandWhileBusyIsRefused : Obligations.CommandWhileBusyIsRefused := by
  constructor
  · intro s i rest hb hc hw hv hs
    have hd : decode s.variant (encode i) = .instr i [] := by simpa using decode_encode hc hv hw []
    calc step s = issueCommand (encode i) { s with schedule := rest } := step_host hs
      _ = exec i { s with schedule := rest } := issueCommand_of_instr hd
      _ = .refused .commandWhileBusy := exec_command_busy hc hv hb
  · intro s op o rest hb hop hw hs
    have hd : decode s.variant (descriptor op o) = .reservedOp op [] := by
      simpa using decode_descriptor_reserved s.variant hop hw []
    calc step s = issueCommand (descriptor op o) { s with schedule := rest } := step_host hs
      _ = illegalCommand { s with schedule := rest } := issueCommand_of_reservedOp hd
      _ = .refused .commandWhileBusy := illegalCommand_busy hb

end Sys2Proof.Machine

/-! Proofs of the statements about the whole machine (10_state, 60_exceptions): the invariant that every step keeps,
the codes of STATUS, and the one fault. -/

namespace Sys2Proof.Machine

/-! ## The states in which a command ends or waits -/

/-- The frame registers after a valid frame (R40 to R42). -/
theorem frameOutcome_wellFormed {tid : Half} {sid fc : Byte} {payload raw : List Byte} {s : State}
    (h : frameValid s.variant tid sid fc payload raw) (rest : List Byte) :
    frameWellFormed (frameOutcome tid sid fc payload raw rest s) = true := by
  unfold frameWellFormed
  rw [frameOutcome_variant]
  cases hv : s.variant <;> rw [hv] at h <;> obtain ⟨h1, h2⟩ := h
  · simp [h1, h2]
  · simp [h1, h2, mbapHeader]

theorem errorOutcome_inv {e : Status} (he : e ≠ .ok) (rest : List Byte) (s : State) :
    (errorOutcome e.code rest s).Inv where
  progress := rfl
  busy := by simp
  timeout := by simp
  valid := by simp
  legal := e.code_legal
  status := by simpa using mt (Status.code_eq_zero e).1 he
  frame := by simp
  checksum := by simp

theorem frameOutcome_inv {tid : Half} {sid fc : Byte} {payload raw : List Byte} {s : State}
    (h : frameValid s.variant tid sid fc payload raw) (rest : List Byte) :
    (frameOutcome tid sid fc payload raw rest s).Inv where
  progress := rfl
  busy := by simp
  timeout := by simp
  valid := by simp
  legal := by simp
  status := by simp
  frame := fun _ => frameOutcome_wellFormed h rest
  checksum := by simp

theorem completeChecksum_inv (c : Half) (s : State) : (completeChecksum c s).Inv where
  progress := rfl
  busy := by simp
  timeout := by simp
  valid := by simp
  legal := Status.code_legal .ok
  status := by simp [Status.code]
  frame := by simp
  checksum := fun _ => rfl

/-- While a decode waits at a good place, the registers are as a good state has them. -/
theorem waitingOutcome_inv {s : State} (hi : s.Inv) {p : Progress} (hp : p ≠ .idle)
    (hw : progressWellFormed s.variant p = true) (rest : List Byte) : (waitingOutcome p rest s).Inv where
  progress := hw
  busy := by simpa using hp
  timeout := fun _ => rfl
  valid := hi.valid
  legal := hi.legal
  status := hi.status
  frame := hi.frame
  checksum := hi.checksum

/-- The invariant speaks neither of the stream and its end nor of the host's side. -/
theorem State.Inv.with_host_side {s : State} (hi : s.Inv) (turns : List Turn) (ibuf : List Byte) (fin : Bool)
    (copies : List Reading) :
    State.Inv { s with schedule := turns, ibuf := ibuf, srcEnd := fin, copies := copies } :=
  ⟨hi.progress, hi.busy, hi.timeout, hi.valid, hi.legal, hi.status, hi.frame, hi.checksum⟩

/-! ## What every step keeps -/

/-- Where a decode ends or waits, BUSY is written, so its value before is no matter. -/
theorem DecodeOutcome.of_accepted {v : Variant} {good : Prop} {pre : List Byte} {s t : State} {b : Bool}
    (h : DecodeOutcome v good pre { s with busy := b } t) : DecodeOutcome v good pre s t := by
  cases h with
  | error e c taken rest he hi => exact .error e c taken rest he hi
  | frame tid sid fc payload raw c taken rest hi hv => exact .frame tid sid fc payload raw c taken rest hi hv
  | waiting p taken rest hp hi ht he hk hw => exact .waiting p taken rest hp hi ht he hk hw

theorem DecodeOutcome.inv {v : Variant} {pre : List Byte} {s t : State} (h : DecodeOutcome v True pre s t)
    (hv : s.variant = v) (hi : s.Inv) : t.Inv := by
  subst hv
  cases h with
  | error e c taken rest he _ => exact errorOutcome_inv he rest _
  | frame tid sid fc payload raw c taken rest _ hf =>
    obtain ⟨-, hvalid, -⟩ := hf trivial
    exact frameOutcome_inv (s := { s with crc := c }) hvalid rest
  | waiting p taken rest hp _ _ _ _ hw => exact waitingOutcome_inv hi hp (hw trivial) rest

/-- A decode that waits at an RTU place is in an RTU block. -/
theorem State.Inv.variant_of_rtuFunction {s : State} (hi : s.Inv) {dir : Direction} {sid : Byte}
    (hp : s.progress = .rtuFunction dir sid) : s.variant = .rtu := by
  simpa [hp, progressWellFormed] using hi.progress

/-- A decode that waits at the peek is in a TCP block. -/
theorem State.Inv.variant_of_tcpPeek {s : State} (hi : s.Inv) (hp : s.progress = .tcpPeek) : s.variant = .tcp := by
  simpa [hp, progressWellFormed] using hi.progress

theorem ExecOutcome.inv {i : Instr} {s t : State} (h : ExecOutcome s i t) (hi : s.Inv) : t.Inv := by
  cases h with
  | crc16 o hb => exact completeChecksum_inv _ _
  | encodeRtu o hv hb =>
    refine frameOutcome_inv ?_ _
    rw [hv]
    exact ⟨rfl, rfl⟩
  | encodeTcp o hv hb hl =>
    refine frameOutcome_inv ?_ _
    rw [hv]
    exact ⟨hl, rfl⟩
  | encodeTcpTooLong o hv hb hl => exact errorOutcome_inv (e := .invalidLength) (by decide) _ _
  | decodeRtu o _ _ hv _ _ h => exact h.of_accepted.inv hv hi
  | decodeTcp o _ _ hv _ _ h => exact h.of_accepted.inv hv hi
  | functionCodeRtu f _ _ dir sid hp _ h => exact h.inv (hi.variant_of_rtuFunction hp) hi
  | functionCodeTcp f _ _ hp _ h => exact h.inv (hi.variant_of_tcpPeek hp) hi

theorem resume_inv {s : State} (hi : s.Inv) : (resume s).Inv := by
  by_cases hp : s.progress = .idle
  · rwa [resume_idle hp]
  · exact (resume_outcome_of_wellFormed s hp hi.progress).inv rfl hi

theorem reset_inv (v : Variant) (turns : List Turn) (copies : List Reading) :
    State.Inv { State.reset with variant := v, schedule := turns, copies := copies } where
  progress := rfl
  busy := by simp [State.reset]
  timeout := by simp [State.reset]
  valid := by simp [State.reset]
  legal := by simp [State.reset]
  status := by simp [State.reset]
  frame := by simp [State.reset]
  checksum := by simp [State.reset]

theorem StepOutcome.inv {s t : State} (h : StepOutcome s t) (hi : s.Inv) : t.Inv := by
  have hside := hi.with_host_side
  cases h with
  | command i rest _ h => exact h.inv (hside rest s.ibuf s.srcEnd s.copies)
  | illegal rest _ => exact errorOutcome_inv (e := .illegalCommand) (by decide) _ _
  | functionCodeRtu f rest dir sid bs _ _ _ h => exact h.inv (hside rest bs s.srcEnd s.copies)
  | functionCodeTcp f rest _ _ h => exact h.inv (hside rest s.ibuf s.srcEnd s.copies)
  | resumed rest => exact resume_inv (hside rest s.ibuf s.srcEnd s.copies)
  | fed rest bs => exact hside rest (s.ibuf ++ bs) s.srcEnd s.copies
  | ended rest => exact hside rest s.ibuf true s.copies
  | timedOut rest hb =>
    exact ⟨hi.progress, hi.busy, fun _ => hb, hi.valid, hi.legal, hi.status, hi.frame, hi.checksum⟩
  | timedOutIdle rest _ => exact hside rest s.ibuf s.srcEnd s.copies
  | reset rest => exact reset_inv s.variant rest s.copies
  | read rest r v => exact hside rest s.ibuf s.srcEnd (⟨r, v⟩ :: s.copies)

/-- Settles O57: by the cases of a step. -/
theorem stepKeepsTheInvariant : Obligations.StepKeepsTheInvariant := fun _ _ hi h => (step_next h).inv hi

/-- Settles O56: the reset state is the one RESET leaves in an RTU block with nothing to come and nothing read. -/
theorem resetIsAGoodState : Obligations.ResetIsAGoodState := reset_inv Config.buildVariant [] []

/-! ## The codes of STATUS (R231) -/

/-- A decode leaves STATUS alone or writes a legal code. -/
theorem DecodeOutcome.status_cases {v : Variant} {good : Prop} {pre : List Byte} {s t : State}
    (h : DecodeOutcome v good pre s t) : t.status = s.status ∨ t.status.toNat ≤ 7 := by
  cases h with
  | error e => exact .inr e.code_legal
  | frame => exact .inr (by simp)
  | waiting => exact .inl rfl

theorem ExecOutcome.status_cases {i : Instr} {s t : State} (h : ExecOutcome s i t) :
    t.status = s.status ∨ t.status.toNat ≤ 7 := by
  cases h with
  | crc16 => exact .inr (Status.code_legal .ok)
  | encodeRtu => exact .inr (by simp)
  | encodeTcp => exact .inr (by simp)
  | encodeTcpTooLong => exact .inr (Status.code_legal .invalidLength)
  | decodeRtu _ _ _ _ _ _ h => exact h.of_accepted.status_cases
  | decodeTcp _ _ _ _ _ _ h => exact h.of_accepted.status_cases
  | functionCodeRtu _ _ _ _ _ _ _ h => exact h.status_cases
  | functionCodeTcp _ _ _ _ _ h => exact h.status_cases

theorem resume_status_cases (s : State) : (resume s).status = s.status ∨ (resume s).status.toNat ≤ 7 := by
  by_cases hp : s.progress = .idle
  · exact .inl (by rw [resume_idle hp])
  · obtain ⟨_, -, h⟩ := resume_outcome s hp
    exact h.status_cases

theorem StepOutcome.status_cases {s t : State} (h : StepOutcome s t) :
    t.status = s.status ∨ t.status.toNat ≤ 7 := by
  cases h with
  | command _ _ _ h => exact h.status_cases
  | functionCodeRtu _ _ _ _ _ _ _ _ h => exact h.status_cases
  | functionCodeTcp _ _ _ _ h => exact h.status_cases
  | resumed rest => exact resume_status_cases { s with schedule := rest }
  | illegal => exact .inr (Status.code_legal .illegalCommand)
  | reset => exact .inr (Nat.zero_le 7)
  | fed | ended | timedOut | timedOutIdle | read => exact .inl rfl

/-- Settles O54: by the cases of a step. -/
theorem statusIsAlwaysALegalCode : Obligations.StatusIsAlwaysALegalCode :=
  fun _ _ h hne => (step_next h).status_cases.resolve_left hne

/-! ## The one fault (R48) -/

theorem takeFunctionCode_ne_fault (g : FunctionCode) (s : State) (f : Fault) : takeFunctionCode g s ≠ .fault f := by
  unfold takeFunctionCode
  cases s.progress with
  | tcpPeek => dsimp only; split <;> nofun
  | _ => nofun

theorem exec_ne_fault (i : Instr) (s : State) (f : Fault) : exec i s ≠ .fault f := by
  cases i with
  | crc16 => exact accept_ne_fault _ s f
  | encodeRtu | decodeReqRtu | decodeRspRtu => exact acceptUnder_ne_fault .rtu _ s f
  | encodeTcp | decodeReqTcp | decodeRspTcp => exact acceptUnder_ne_fault .tcp _ s f
  | fcReadCoils | fcReadDiscreteInputs | fcReadHoldingRegisters | fcReadInputRegisters | fcWriteSingleCoil |
    fcWriteSingleRegister | fcWriteMultipleCoils | fcWriteMultipleRegisters => exact takeFunctionCode_ne_fault _ s f

theorem engineTurn_ne_fault (s : State) (f : Fault) : engineTurn s ≠ .fault f := by
  unfold engineTurn
  split
  · exact exec_ne_fault _ _ f
  · nofun

theorem issueCommand_ne_fault (bytes : List Byte) (s : State) (f : Fault) : issueCommand bytes s ≠ .fault f := by
  unfold issueCommand
  split
  · exact exec_ne_fault _ s f
  · exact accept_ne_fault _ s f
  all_goals nofun

/-- Of the host's actions the read alone can fault, of a register that holds no value. -/
theorem hostTurn_fault {a : HostAction} {s : State} {f : Fault} (h : hostTurn a s = .fault f) :
    ∃ r, a = .read r ∧ f = .registerHoldsNoValue r ∧ holdsValue r s = false := by
  cases a with
  | issue bytes => exact absurd h (issueCommand_ne_fault bytes s f)
  | feed bs =>
    simp only [hostTurn, hostFeed] at h
    split at h <;> cases h
  | endOfStream | timeout | reset => cases h
  | read r =>
    simp only [hostTurn, hostRead] at h
    split at h
    · cases h
    · next hv =>
      cases h
      exact ⟨r, rfl, rfl, Bool.eq_false_iff.2 hv⟩

theorem step_fault {s : State} {f : Fault} (h : step s = .fault f) :
    ∃ r rest, s.schedule = .host (.read r) :: rest ∧ f = .registerHoldsNoValue r ∧ holdsValue r s = false := by
  unfold step at h
  split at h
  · exact absurd h (engineTurn_ne_fault _ f)
  · exact absurd h (engineTurn_ne_fault _ f)
  · next a rest hs =>
    obtain ⟨r, rfl, hf, hv⟩ := hostTurn_fault h
    exact ⟨r, rest, hs, hf, (holdsValue_schedule r s rest).symm.trans hv⟩

/-- In a good state, where `R_VALID` is 1 the result registers hold a checksum or a frame. -/
theorem State.Inv.held_cases {s : State} (hi : s.Inv) (hv : s.rValid = true) :
    s.held = .checksum ∨ s.held = .frame := by
  have hne := hi.valid.1 hv
  cases h : s.held with
  | nothing => exact absurd h hne
  | checksum => exact .inl rfl
  | frame => exact .inr rfl

/-- Which registers hold no value in a good state, and why (R48). -/
theorem State.Inv.no_value_cases {s : State} (hi : s.Inv) {r : HostReg} (h : holdsValue r s = false) :
    (r = .status ∧ s.statusHeld = false) ∨ (r ∈ resultRegs ∧ s.rValid = false) ∨
      (r ∈ [HostReg.rTid, .rSid, .rFc, .rPayload] ∧ s.held = .checksum) ∨ (r = .rCrc ∧ s.held = .frame) := by
  cases hv : s.rValid with
  | false =>
    cases r with
    | variant | busy | rValid => cases h
    | status => exact .inl ⟨rfl, h⟩
    | rTid | rSid | rFc | rPayload | rRaw | rCrc => exact .inr (.inl ⟨by decide, rfl⟩)
  | true =>
    have hheld := hi.held_cases hv
    cases r with
    | variant | busy | rValid => cases h
    | status => exact .inl ⟨rfl, h⟩
    | rTid | rSid | rFc | rPayload =>
      have hne : s.held ≠ .frame := by simpa [holdsValue, hv] using h
      exact .inr (.inr (.inl ⟨by decide, hheld.resolve_right hne⟩))
    | rRaw =>
      have hnothing : s.held = .nothing := by simpa [holdsValue, hv] using h
      exact absurd hnothing (hi.valid.1 hv)
    | rCrc =>
      have hne : s.held ≠ .checksum := by simpa [holdsValue, hv] using h
      exact .inr (.inr (.inr ⟨rfl, hheld.resolve_left hne⟩))

/-- Settles O53: the one fault is the read's, and the invariant says where a register holds no value. -/
theorem onlyAReadWithoutValueFaults : Obligations.OnlyAReadWithoutValueFaults := by
  refine ⟨exec_ne_fault, fun s f hi h => ?_⟩
  obtain ⟨r, rest, hs, hf, hv⟩ := step_fault h
  exact ⟨r, rest, hs, hf, hi.no_value_cases hv⟩

/-! ## What a read gives (R38, R39, R45) -/

theorem CompletedWith.held_of_ok {w : Held} {t : State} (h : CompletedWith w t) (hs : t.status = 0x00) :
    t.held = w := by rw [h.held, if_pos hs]

/-- `BUSY` as the host reads it (R34). -/
theorem regContents_busy (s : State) : regContents .busy s = .bit (if s.busy = true then 1 else 0) := by
  cases h : s.busy <;> simp [regContents, h]

/-- A frame command that completed with OK left a value in each of the five frame registers. -/
theorem holdsValue_of_frame {t : State} (hv : t.rValid = true) (hh : t.held = .frame) {r : HostReg}
    (hr : r ∈ [HostReg.rTid, .rSid, .rFc, .rPayload, .rRaw]) : holdsValue r t = true := by
  simp only [List.mem_cons, List.not_mem_nil, or_false] at hr
  rcases hr with rfl | rfl | rfl | rfl | rfl <;> simp [holdsValue, hv, hh]

/-- Settles O50: each part comes down to the registers the command wrote. -/
theorem readGivesTheContents : Obligations.ReadGivesTheContents := by
  refine ⟨?_, ?_, ?_⟩
  · intro s t i h hb hs
    have hc : CompletedWith .frame t := by
      rcases h with ⟨hi, h⟩ | ⟨hp, rfl⟩
      · exact writtenBy_of_ne_crc16 hi ▸ .of_exec h hb
      · exact .of_resume hp hb
    have hgives : ∀ r ∈ [HostReg.rTid, .rSid, .rFc, .rPayload, .rRaw], readGives r (regContents r t) t := fun r hr =>
      readGives_of_value (holdsValue_of_frame (hc.rValid.2 hs) (hc.held_of_ok hs) hr)
    exact ⟨hgives .rTid (by decide), hgives .rSid (by decide), hgives .rFc (by decide), hgives .rPayload (by decide),
      hgives .rRaw (by decide)⟩
  · intro s t o h
    obtain ⟨-, rfl⟩ := accept_next h
    exact ⟨readGives_of_value (r := .rCrc) rfl, readGives_of_value (r := .rRaw) rfl⟩
  · intro s
    rw [← regContents_variant, ← regContents_busy, ← regContents_rValid]
    exact ⟨readGives_of_value rfl, readGives_of_value rfl, readGives_of_value rfl⟩

end Sys2Proof.Machine

/-! Proofs of the statements about the encodings and the steps that run an instruction (30_encoding): the decoder
and the encoder agree, what is no command is refused, and a step runs the command issued or the function code met. -/

namespace Sys2Proof.Machine

/-! ## The decoder and the encoder (R91, R92, R95) -/

/-- Settles O2: a command is encoded as the descriptor of the `op` that decodes to it. -/
theorem encodedInstructionDecodesToItself : Obligations.EncodedInstructionDecodesToItself :=
  ⟨fun _ _ rest hc hv hw => decode_encode hc hv hw rest,
    fun f => ⟨f.code, encode_ofFunctionCode f, decodeFunctionCode_code f⟩⟩

/-- What an `op` decodes to is a command of the variant, encoded as the descriptor of that `op`. -/
theorem command_of_decodeOp {v : Variant} {op : Byte} {o : Operands} {i : Instr} (h : decodeOp v op o = some i) :
    encode i = descriptor op o ∧ i.wellFormed = o.wellFormed ∧ i.isCommand = true ∧ i.availableIn v = true := by
  rcases decodeOp_cases v op o with ⟨hd, rfl⟩ | ⟨hd, rfl, rfl⟩ | ⟨hd, rfl, rfl⟩ | ⟨hd, rfl, rfl⟩ | ⟨hd, rfl, rfl⟩ |
    ⟨hd, rfl, rfl⟩ | ⟨hd, rfl, rfl⟩ | ⟨hd, -⟩ <;> rw [hd] at h <;> cases h <;> exact ⟨rfl, rfl, rfl, rfl⟩

theorem decodedAs_eq_instr {op : Byte} {rest rest' : List Byte} {d : Option Instr} {i : Instr}
    (h : decodedAs op rest d = .instr i rest') : d = some i ∧ rest = rest' := by
  cases d with
  | some j => cases h; exact ⟨rfl, rfl⟩
  | none => cases h

/-- Settles O3: bytes that decode begin with a whole descriptor, and its `op` was that of the command. -/
theorem decodedInstructionEncodesToItsBytes : Obligations.DecodedInstructionEncodesToItsBytes := by
  constructor
  · intro v bs i rest h
    rcases decode_cases v bs with ⟨ht, -⟩ | ⟨op, o, tail, hw, hbs, -, hd⟩
    · rw [ht] at h; cases h
    · obtain ⟨hop, rfl⟩ := decodedAs_eq_instr (hd.symm.trans h)
      obtain ⟨henc, hwi, hc, hv⟩ := command_of_decodeOp hop
      exact ⟨henc ▸ hbs, hwi.trans hw, hc, hv⟩
  · intro b f h
    rw [encode_ofFunctionCode, code_of_decodeFunctionCode h]

/-- Settles O1: the decoder run on words written out. -/
theorem wordsDecodeAsTheLayoutSays : Obligations.WordsDecodeAsTheLayoutSays :=
  ⟨by decide, by decide, by decide, by decide, by decide, by decide, by decide, by decide, by decide, by decide⟩

/-! ## A step at an issued command (R90, R91) -/

/-- Settles O4: the host's turn decodes the bytes by the block's variant. -/
theorem stepExecutesIssuedCommand : Obligations.StepExecutesIssuedCommand := by
  intro s bytes i rest hs hd
  rw [step_host hs]
  exact issueCommand_of_instr hd

theorem issueCommand_of_truncated {s : State} {bytes : List Byte} (h : decode s.variant bytes = .truncated) :
    issueCommand bytes s = .refused .malformedDescriptor := by rw [issueCommand, h]

/-- Bytes after a whole descriptor make the issue no command, whatever its `op`. -/
theorem issueCommand_of_trailing {s : State} {bytes rest : List Byte} {op b : Byte} {d : Option Instr}
    (h : decode s.variant bytes = decodedAs op (b :: rest) d) :
    issueCommand bytes s = .refused .malformedDescriptor := by
  rw [issueCommand, h]
  cases d with
  | some i => rfl
  | none => rfl

/-- Settles O9: such bytes end before their descriptor does, or go on after it. -/
theorem malformedDescriptorIsRefused : Obligations.MalformedDescriptorIsRefused := by
  intro s bytes turns hs hbad
  rw [step_host hs]
  rcases decode_cases s.variant bytes with ⟨ht, -⟩ | ⟨op, o, rest, -, -, hlen, hd⟩
  · exact issueCommand_of_truncated ht
  · cases rest with
    | nil => simp only [List.length_nil] at hlen; omega
    | cons b rest => exact issueCommand_of_trailing hd

/-! ## A step at a function code (log entry 11) -/

/-- A decode at its function code has the byte at the head of the stream before it (R141). -/
theorem fetchFunctionCode_rtu {s : State} {dir : Direction} {sid b : Byte} {bs : List Byte} {f : FunctionCode}
    (hp : s.progress = .rtuFunction dir sid) (hs : s.ibuf = b :: bs) (hf : decodeFunctionCode b = some f) :
    fetchFunctionCode s = some (f, { s with ibuf := bs }) := by
  simp only [fetchFunctionCode, hp, hs, hf, Option.map_some]

/-- A decode at its peek has byte 7 of a header with protocol id 0 before it (R182). -/
theorem fetchFunctionCode_tcp {s : State} {f : FunctionCode} (hp : s.progress = .tcpPeek) (h8 : 8 ≤ s.ibuf.length)
    (h0 : readBe16 s.ibuf 2 = 0x0000#16) (hf : decodeFunctionCode (byteAt s.ibuf 7) = some f) :
    fetchFunctionCode s = some (f, s) := by
  simp only [fetchFunctionCode, hp, if_pos (And.intro h8 h0), hf, Option.map_some]

/-- These are the only places where a decode has a function code before it. -/
theorem fetchFunctionCode_cases {s t : State} {f : FunctionCode} (h : fetchFunctionCode s = some (f, t)) :
    (∃ dir sid bs, s.progress = .rtuFunction dir sid ∧ s.ibuf = f.code :: bs ∧ t = { s with ibuf := bs }) ∨
    (s.progress = .tcpPeek ∧ 8 ≤ s.ibuf.length ∧ readBe16 s.ibuf 2 = 0x0000#16 ∧ byteAt s.ibuf 7 = f.code ∧ t = s) := by
  unfold fetchFunctionCode at h
  split at h
  case h_1 dir sid hp =>
    split at h
    · next b bs hs =>
      obtain ⟨g, hg, he⟩ := Option.map_eq_some_iff.1 h
      cases he
      exact .inl ⟨dir, sid, bs, hp, by rw [hs, code_of_decodeFunctionCode hg], rfl⟩
    · cases h
  case h_2 hp =>
    split at h
    · next hc =>
      obtain ⟨g, hg, he⟩ := Option.map_eq_some_iff.1 h
      cases he
      exact .inr ⟨hp, hc.1, hc.2, (code_of_decodeFunctionCode hg).symm, rfl⟩
    · cases h
  all_goals cases h

theorem takeFunctionCode_rtu {f : FunctionCode} {s : State} {dir : Direction} {sid : Byte}
    (hp : s.progress = .rtuFunction dir sid) : takeFunctionCode f s = .next (rtuHead dir sid f [] s) := by
  rw [takeFunctionCode, hp]

theorem takeFunctionCode_tcp {f : FunctionCode} {s : State} (hp : s.progress = .tcpPeek) :
    takeFunctionCode f s =
      if 8 ≤ s.ibuf.length ∧ readBe16 s.ibuf 2 = 0x0000#16 ∧ byteAt s.ibuf 7 = f.code then
        .next (tcpLength (s.ibuf.take 8) s)
      else .refused .functionCodeOutsideFrame := by
  rw [takeFunctionCode, hp]

/-- Where a decode is neither at its function code nor at its peek, there is no function code to take. -/
theorem takeFunctionCode_elsewhere {f : FunctionCode} {s : State} (ht : s.progress ≠ .tcpPeek)
    (hr : ∀ dir sid, s.progress ≠ .rtuFunction dir sid) :
    takeFunctionCode f s = .refused .functionCodeOutsideFrame := by
  unfold takeFunctionCode
  cases hp : s.progress with
  | tcpPeek => exact absurd hp ht
  | rtuFunction dir sid => exact absurd hp (hr dir sid)
  | _ => rfl

theorem acceptUnder_other {v : Variant} {run : State → State} {s : State} (h : s.variant ≠ v) :
    acceptUnder v run s = .refused .notInThisVariant := if_neg h

/-- Settles O10: the variant is looked at first, and of the places of a decode only two have a function code. -/
theorem instructionOutOfPlaceIsRefused : Obligations.InstructionOutOfPlaceIsRefused := by
  refine ⟨?_, ?_, ?_⟩
  · intro s i hc hv
    cases i with
    | crc16 => cases hv
    | encodeRtu | encodeTcp | decodeReqRtu | decodeReqTcp | decodeRspRtu | decodeRspTcp =>
      exact acceptUnder_other (of_decide_eq_false hv)
    | _ => cases hc
  · intro s f ht hr
    rw [exec_ofFunctionCode, takeFunctionCode_elsewhere ht hr]
  · intro s f hp hbad
    have hno : ¬ (8 ≤ s.ibuf.length ∧ readBe16 s.ibuf 2 = 0x0000#16 ∧ byteAt s.ibuf 7 = f.code) := by
      rintro ⟨h8, h0, hf⟩
      rcases hbad with h | h | h
      · omega
      · exact h h0
      · exact h hf
    rw [exec_ofFunctionCode, takeFunctionCode_tcp hp, if_neg hno]

/-- The first eight bytes are read the same in the header as in the stream. -/
theorem byteAt_take {bs : List Byte} {n i : Nat} (h : i < n) : byteAt (bs.take n) i = byteAt bs i := by
  simp [byteAt, List.getD_eq_getElem?_getD, h]

/-- A decode at its function code with one of the eight before it goes on with the payload's shape. -/
theorem rtuFunction_of_code {s : State} {dir : Direction} {sid : Byte} {f : FunctionCode} {bs : List Byte}
    (hs : s.ibuf = f.code :: bs) : rtuFunction dir sid s = rtuHead dir sid f [] { s with ibuf := bs } := by
  rw [rtuFunction_of_byte hs, rtuSelect_code]

/-- A header with protocol id 0 and one of the eight codes lets the decode go on to its length field. -/
theorem tcpHeader_of_code {h : List Byte} {f : FunctionCode} (h0 : readBe16 h 2 = 0x0000#16)
    (hf : byteAt h 7 = f.code) (s : State) : tcpHeader h s = tcpLength h s := by
  rw [tcpHeader, if_pos h0, tcpSelect, hf, decodeFunctionCode_code]

/-- The same at the peek. -/
theorem tcpDecode_of_code {s : State} {f : FunctionCode} (h8 : 8 ≤ s.ibuf.length)
    (h0 : readBe16 s.ibuf 2 = 0x0000#16) (hf : byteAt s.ibuf 7 = f.code) :
    tcpDecode s = tcpLength (s.ibuf.take 8) s := by
  have h0' : readBe16 (s.ibuf.take 8) 2 = 0x0000#16 := by
    rw [readBe16, byteAt_take (by decide), byteAt_take (by decide)]; exact h0
  have hf' : byteAt (s.ibuf.take 8) 7 = f.code := (byteAt_take (by decide)).trans hf
  rw [tcpDecode_of_header (List.take_append_drop 8 s.ibuf).symm (List.length_take_of_le h8), tcpHeader_of_code h0' hf']

/-- Settles O6: at both places the decode that goes on reads the code and does what taking it does. -/
theorem functionCodeGoesOnWithTheDecode : Obligations.FunctionCodeGoesOnWithTheDecode := by
  intro s t f h
  rw [exec_ofFunctionCode]
  rcases fetchFunctionCode_cases h with ⟨dir, sid, bs, hp, hs, rfl⟩ | ⟨hp, h8, h0, hf, rfl⟩
  · have hr : resume s = rtuFunction dir sid s := by rw [resume, hp]
    rw [takeFunctionCode_rtu (s := { s with ibuf := bs }) hp, hr, rtuFunction_of_code hs]
  · have hr : resume t = tcpDecode t := by rw [resume, hp]
    rw [takeFunctionCode_tcp hp, if_pos ⟨h8, h0, hf⟩, hr, tcpDecode_of_code h8 h0 hf]

/-- The engine's turn is going on, whether it takes a function code as an instruction or not. -/
theorem engineTurn_eq_resume (s : State) : engineTurn s = .next (resume s) := by
  unfold engineTurn
  split
  · next f t h => exact functionCodeGoesOnWithTheDecode s t f h
  · rfl

theorem engineTurn_of_fetch {s t : State} {f : FunctionCode} (h : fetchFunctionCode s = some (f, t)) :
    engineTurn s = exec (Instr.ofFunctionCode f) t := by rw [engineTurn, h]

/-- Settles O5: the engine's turn looks at the two places for a function code. -/
theorem stepExecutesFunctionCode : Obligations.StepExecutesFunctionCode := by
  constructor
  · intro s dir sid b bs f rest hn hp hs hf
    rw [step_of_engineNext hn]
    exact engineTurn_of_fetch (fetchFunctionCode_rtu (s := { s with schedule := rest }) hp hs hf)
  · intro s f rest hn hp h8 h0 hf
    rw [step_of_engineNext hn]
    exact engineTurn_of_fetch (fetchFunctionCode_tcp (s := { s with schedule := rest }) hp h8 h0 hf)

/-- Settles O44: the engine's turn is going on in every state. -/
theorem engineStepGoesOnWithTheCommand : Obligations.EngineStepGoesOnWithTheCommand := by
  intro s rest hn
  have h : step s = .next (resume { s with schedule := rest }) :=
    (step_of_engineNext hn).trans (engineTurn_eq_resume _)
  exact ⟨h, fun hp => by rw [h, resume_idle (s := { s with schedule := rest }) hp]⟩

/-- Settles O58: the engine's turn with no command in progress. -/
theorem idleBlockStaysAsItIs : Obligations.IdleBlockStaysAsItIs := by
  intro s hs hp
  rw [step, hs]
  exact (engineTurn_eq_resume s).trans (congrArg Host.Outcome.next (resume_idle hp))

end Sys2Proof.Machine

/-! Proofs of the statements about the checksum (40_checksum): each iteration is a bijection of the register, so the
checksum tells bytes apart. -/

namespace Sys2Proof.Machine

/-! ## A changed byte (R126) -/

theorem crcByte_injective_register (b : Byte) : Function.Injective fun c => crcByte c b := fun _ _ h =>
  (BitVec.xor_left_inj _).1 (crcShifts_injective 8 h)

theorem setWidth_byte_injective : Function.Injective fun b : Byte => b.setWidth 16 := by
  intro x y h
  have h8 := congrArg (fun v : Half => v.setWidth 8) h
  simpa using h8

theorem crcByte_injective_byte (c : Half) : Function.Injective fun b => crcByte c b := fun _ _ h =>
  setWidth_byte_injective ((BitVec.xor_right_inj _).1 (crcShifts_injective 8 h))

theorem crcBytesFrom_injective (bs : List Byte) : Function.Injective fun c => crcBytesFrom c bs := by
  induction bs with
  | nil => exact fun _ _ h => h
  | cons b bs ih => exact fun _ _ h => crcByte_injective_register b (ih h)

/-- Settles O14: the registers differ after the changed byte, and the bytes after it keep them apart. -/
theorem changedByteChangesTheChecksum : Obligations.ChangedByteChangesTheChecksum := by
  intro before after x y hxy h
  rw [crc16_append, crc16_append] at h
  exact hxy (crcByte_injective_byte (crc16 before) (crcBytesFrom_injective after h))

/-! ## The residue (R125, R145) -/

theorem crcShifts_zero (n : Nat) : crcShifts n 0x0000#16 = 0x0000#16 := by
  induction n with
  | zero => rfl
  | succ n ih => exact ih

/-- An iteration undoes a shift to the left by one that loses no bit. -/
theorem crcShift_shiftLeft (b : Byte) {n : Nat} (h : n < 8) :
    crcShift (b.setWidth 16 <<< (n + 1)) = b.setWidth 16 <<< n := by
  have hlow : (b.setWidth 16 <<< (n + 1)).getLsbD 0 = false := by simp
  rw [crcShift, hlow, if_neg Bool.false_ne_true]
  apply BitVec.eq_of_getLsbD_eq
  intro i hi
  have hsub : 1 + i - (n + 1) = i - n := by omega
  simp only [BitVec.getLsbD_ushiftRight, BitVec.getLsbD_shiftLeft, BitVec.getLsbD_setWidth, hsub]
  by_cases htop : 1 + i < 16
  · have hlt : 1 + i < n + 1 ↔ i < n := by omega
    simp only [htop, hi, hlt]
  · simp [BitVec.getLsbD_of_ge b (i - n) (by omega)]

/-- So the 8 iterations bring the high byte down where the low byte is 0. -/
theorem crcShifts_shiftLeft (b : Byte) {n : Nat} (h : n ≤ 8) :
    crcShifts n (b.setWidth 16 <<< n) = b.setWidth 16 := by
  induction n with
  | zero => simp [crcShifts]
  | succ n ih => rw [crcShifts, crcShift_shiftLeft b h, ih (Nat.le_of_succ_le h)]

/-- The two bytes of a 16-bit field share no bit. -/
theorem word16_eq_xor (hi lo : Byte) : word16 hi lo = hi.setWidth 16 <<< 8 ^^^ lo.setWidth 16 := by
  apply BitVec.eq_of_getLsbD_eq
  intro i h
  by_cases h8 : i < 8
  · simp [word16, h8]
  · simp [word16, h8, BitVec.getLsbD_of_ge lo i (by omega)]

/-- After a byte and another the register is 0 exactly when they are its low and its high byte. -/
theorem crcByte_crcByte_eq_zero (v : Half) (c0 c1 : Byte) :
    crcByte (crcByte v c0) c1 = 0x0000#16 ↔ v = word16 c1 c0 := by
  have hzero : ∀ x, crcShifts 8 x = 0x0000#16 ↔ x = 0x0000#16 := fun x => by
    rw [← (crcShifts_injective 8).eq_iff (a := x), crcShifts_zero]
  have hhigh : ∀ x, crcShifts 8 x = c1.setWidth 16 ↔ x = c1.setWidth 16 <<< 8 := fun x => by
    rw [← (crcShifts_injective 8).eq_iff (a := x), crcShifts_shiftLeft c1 (Nat.le_refl 8)]
  calc crcShifts 8 (crcShifts 8 (v ^^^ c0.setWidth 16) ^^^ c1.setWidth 16) = 0x0000#16
    _ ↔ crcShifts 8 (v ^^^ c0.setWidth 16) = c1.setWidth 16 := by rw [hzero, BitVec.xor_eq_zero_iff]
    _ ↔ v ^^^ c0.setWidth 16 = c1.setWidth 16 <<< 8 := hhigh _
    _ ↔ v = word16 c1 c0 := by
      rw [word16_eq_xor]
      constructor
      · intro h; rw [← h, BitVec.xor_assoc, BitVec.xor_self, BitVec.xor_zero]
      · intro h; rw [h, BitVec.xor_assoc, BitVec.xor_self, BitVec.xor_zero]

/-- Settles O13: the two bytes in turn undo the two bytes of the register. -/
theorem residueTestEqualsComparison : Obligations.ResidueTestEqualsComparison := by
  intro body c0 c1
  have h : crc16 (body ++ [c0, c1]) = crcByte (crcByte (crc16 body) c0) c1 := crc16_append body [c0, c1]
  rw [h, crcByte_crcByte_eq_zero, ← lo8_eq_extract, ← hi8_eq_extract]
  constructor
  · intro hv
    rw [hv, lo8_word16, hi8_word16]
    exact ⟨rfl, rfl⟩
  · rintro ⟨rfl, rfl⟩
    exact (word16_hi8_lo8 _).symm

end Sys2Proof.Machine

/-! Proofs of the statements about the RTU decoder (41_rtu_codec) and the function codes inside an RTU frame
(30_encoding): whole frames, beginnings of frames, and the lengths of the frames decoded. -/

namespace Sys2Proof.Machine

/-! ## Whole frames (R141, R145) -/

/-- The end of a decode whose two last bytes are the checksum's. -/
theorem rtuVerify_of_checksum (sid : Byte) (f : FunctionCode) (p : List Byte) (s : State) :
    rtuVerify sid f p (le16 (crc16 (sid :: f.code :: p))) s =
      frameOutcome 0x0000 sid f.code p (sid :: f.code :: p ++ le16 (crc16 (sid :: f.code :: p))) s.ibuf
        { s with crc := crc16 (sid :: f.code :: p) } := by
  rw [rtuVerify_eq, if_pos rfl]

/-- An accepted decode on a frame of its direction. -/
theorem rtuDecode_of_checksum {dir : Direction} {f : FunctionCode} {p rest : List Byte} {sid : Byte} {s : State}
    (hw : wellShaped dir f p = true)
    (hs : s.ibuf = [sid, f.code] ++ p ++ le16 (crc16 ([sid, f.code] ++ p)) ++ rest) :
    rtuDecode dir { s with busy := true } =
      frameOutcome 0x0000 sid f.code p ([sid, f.code] ++ p ++ le16 (crc16 ([sid, f.code] ++ p))) rest
        { s with crc := crc16 ([sid, f.code] ++ p) } := by
  have hverify : rtuDecode dir { s with busy := true } =
      rtuVerify sid f p (le16 (crc16 ([sid, f.code] ++ p))) { s with busy := true, ibuf := rest } :=
    rtuDecode_of_frame hw hs
  exact hverify.trans (rtuVerify_of_checksum sid f p _)

/-- Settles O19: both directions read the frame to its end and find its own checksum. -/
theorem rtuDecodeOfAFrameCompletes : Obligations.RtuDecodeOfAFrameCompletes := by
  constructor
  · intro s o sid f p rest hv hb hw hs
    rw [exec_decodeReqRtu_free o hv hb, rtuDecode_of_checksum hw hs]
  · intro s o sid f p rest hv hb hw hs
    rw [exec_decodeRspRtu_free o hv hb, rtuDecode_of_checksum hw hs]

/-- ENCODE that answered a next state was free to start and did its work. -/
theorem encodeRtu_next {o : Operands} {s t : State} (h : exec (.encodeRtu o) s = .next t) :
    t.variant = .rtu ∧ t.busy = false ∧ t.rRaw = [o.sid, o.fc] ++ o.data ++ le16 (crc16 ([o.sid, o.fc] ++ o.data)) := by
  obtain ⟨hv, -, rfl⟩ := acceptUnder_next h
  exact ⟨hv, rfl, rfl⟩

/-- Settles O39: what ENCODE leaves in `R_RAW` is a frame of each direction the payload is well shaped for. -/
theorem rtuRoundTrip : Obligations.RtuRoundTrip := by
  intro s t o o' f rest hf h
  obtain ⟨hv, hb, hraw⟩ := encodeRtu_next h
  rw [hf] at hraw
  have hs : t.rRaw ++ rest = [o.sid, f.code] ++ o.data ++ le16 (crc16 ([o.sid, f.code] ++ o.data)) ++ rest := by
    rw [hraw]
  obtain ⟨hreq, hrsp⟩ := rtuDecodeOfAFrameCompletes
  constructor
  · intro hw
    exact ⟨_, hreq { t with ibuf := t.rRaw ++ rest } o' o.sid f o.data rest hv hb hw hs, rfl, rfl, rfl, rfl, rfl,
      hf.symm, rfl, hraw.symm⟩
  · intro hw
    exact ⟨_, hrsp { t with ibuf := t.rRaw ++ rest } o' o.sid f o.data rest hv hb hw hs, rfl, rfl, rfl, rfl, rfl,
      hf.symm, rfl, hraw.symm⟩

/-! ## Function codes executed as instructions (R96 to R103, log entry 11) -/

/-- A function code taken where a decode is at it, with a payload of its shape and its checksum in the stream. -/
theorem exec_functionCode_of_payload {dir : Direction} {f : FunctionCode} {p rest : List Byte} {sid : Byte} {s : State}
    (hp : s.progress = .rtuFunction dir sid) (hw : wellShaped dir f p = true)
    (hs : s.ibuf = p ++ le16 (crc16 (sid :: f.code :: p)) ++ rest) :
    exec (Instr.ofFunctionCode f) s =
      .next (frameOutcome 0x0000 sid f.code p (sid :: f.code :: p ++ le16 (crc16 (sid :: f.code :: p))) rest
        { s with crc := crc16 (sid :: f.code :: p) }) := by
  rw [exec_ofFunctionCode, takeFunctionCode_rtu hp, rtuHead_of_payload sid _ _ s hw hs]
  exact congrArg Host.Outcome.next (rtuVerify_of_checksum sid f p _)

theorem wellShaped_of_fixed4 {dir : Direction} {f : FunctionCode} (h : rtuShape dir f = .fixed4) (a b c d : Byte) :
    wellShaped dir f [a, b, c, d] = true := by simp [wellShaped, h]

theorem wellShaped_of_hdr4Len {dir : Direction} {f : FunctionCode} (h : rtuShape dir f = .hdr4Len)
    (a b c d : Byte) {l : Byte} {data : List Byte} (hl : data.length = l.toNat) :
    wellShaped dir f (a :: b :: c :: d :: l :: data) = true := by
  simp [wellShaped, h, byteAt, hl]
  omega

theorem wellShaped_of_len {dir : Direction} {f : FunctionCode} (h : rtuShape dir f = .len) {l : Byte}
    {data : List Byte} (hl : data.length = l.toNat) : wellShaped dir f (l :: data) = true := by
  simp [wellShaped, h, byteAt, hl]
  omega

/-- The row of a function code in the tables of the statements: its instruction and its byte. -/
def functionCodeInstr (f : FunctionCode) : Instr × Byte := (Instr.ofFunctionCode f, f.code)

/-- The four read codes (R96 to R99). -/
def readCodes : List FunctionCode := [.readCoils, .readDiscreteInputs, .readHoldingRegisters, .readInputRegisters]

/-- The two write-single codes (R100, R101). -/
def writeSingleCodes : List FunctionCode := [.writeSingleCoil, .writeSingleRegister]

/-- The two write-multiple codes (R102, R103). -/
def writeMultipleCodes : List FunctionCode := [.writeMultipleCoils, .writeMultipleRegisters]

/-- Settles O25: a read code has the shape FIXED4 in a request and LEN in a response. -/
theorem readCodesSelectTheirShapes : Obligations.ReadCodesSelectTheirShapes := by
  refine ⟨rfl, rfl, rfl, rfl, fun i fc h => ?_⟩
  have hrow : (i, fc) ∈ readCodes.map functionCodeInstr := h
  obtain ⟨f, hf, hi⟩ := List.mem_map.1 hrow
  cases hi
  have hshape : ∀ g ∈ readCodes, rtuShape .req g = .fixed4 ∧ rtuShape .rsp g = .len := by decide
  obtain ⟨hreq, hrsp⟩ := hshape f hf
  exact ⟨fun s sid a b c d rest hp hs => exec_functionCode_of_payload hp (wellShaped_of_fixed4 hreq a b c d) hs,
    fun s sid l d rest hp hl hs => exec_functionCode_of_payload hp (wellShaped_of_len hrsp hl) hs⟩

/-- Settles O26: a write-single code has the shape FIXED4 in both directions. -/
theorem writeSingleCodesSelectTheirShape : Obligations.WriteSingleCodesSelectTheirShape := by
  refine ⟨rfl, rfl, fun i fc h s dir sid a b c d rest hp hs => ?_⟩
  have hrow : (i, fc) ∈ writeSingleCodes.map functionCodeInstr := h
  obtain ⟨f, hf, hi⟩ := List.mem_map.1 hrow
  cases hi
  have hshape : ∀ g ∈ writeSingleCodes, rtuShape .req g = .fixed4 ∧ rtuShape .rsp g = .fixed4 := by decide
  obtain ⟨hreq, hrsp⟩ := hshape f hf
  have hdir : rtuShape dir f = .fixed4 := by
    cases dir with
    | req => exact hreq
    | rsp => exact hrsp
  exact exec_functionCode_of_payload hp (wellShaped_of_fixed4 hdir a b c d) hs

/-- Settles O27: a write-multiple code has the shape HDR4_LEN in a request and FIXED4 in a response. -/
theorem writeMultipleCodesSelectTheirShapes : Obligations.WriteMultipleCodesSelectTheirShapes := by
  refine ⟨rfl, rfl, fun i fc h => ?_⟩
  have hrow : (i, fc) ∈ writeMultipleCodes.map functionCodeInstr := h
  obtain ⟨f, hf, hi⟩ := List.mem_map.1 hrow
  cases hi
  have hshape : ∀ g ∈ writeMultipleCodes, rtuShape .req g = .hdr4Len ∧ rtuShape .rsp g = .fixed4 := by decide
  obtain ⟨hreq, hrsp⟩ := hshape f hf
  exact ⟨fun s sid a b c d l data rest hp hl hs =>
      exec_functionCode_of_payload hp (wellShaped_of_hdr4Len hreq a b c d hl) hs,
    fun s sid a b c d rest hp hs => exec_functionCode_of_payload hp (wellShaped_of_fixed4 hrsp a b c d) hs⟩

/-! ## Beginnings of frames (R63, R64)

A stage that needs some bytes and finds a proper beginning of them takes all there are and is short of the next. -/

/-- On every proper beginning of `stream`, `f` takes all the bytes there are and then waits, or ends for want of
more. -/
def RunsShortOf (stream : List Byte) (f : State → State) : Prop :=
  ∀ (s : State) (missing : List Byte), missing ≠ [] → s.ibuf ++ missing = stream →
    ∃ q, q ≠ .idle ∧ f s = await q { s with ibuf := [] }

/-- Nothing is no proper beginning of nothing. -/
theorem runsShortOf_nil (f : State → State) : RunsShortOf [] f := fun _ _ hm h =>
  absurd (List.append_eq_nil_iff.1 h).2 hm

/-- A stage that reads `bs` of a stream and goes on with the rest. -/
theorem streamRead_runsShortOf {n : Nat} {bs rest : List Byte} {p : List Byte → Progress}
    {k : List Byte → State → State} (hn : bs.length = n) (hp : ∀ got, p got ≠ .idle) (hk : RunsShortOf rest (k bs)) :
    RunsShortOf (bs ++ rest) (fun s => (streamRead n [] p s).andThen k) := by
  intro s missing hm h
  by_cases hle : n ≤ s.ibuf.length
  · obtain ⟨tail, hs, hrest⟩ : ∃ tail, s.ibuf = bs ++ tail ∧ tail ++ missing = rest := by
      rcases List.append_eq_append_iff.1 h with ⟨a, hbs, hmiss⟩ | ⟨a, hs, hrest⟩
      · have ha : a = [] := List.eq_nil_of_length_eq_zero (by simp only [hbs, List.length_append] at hn; omega)
        subst ha
        exact ⟨[], by simpa using hbs.symm, by simpa using hmiss⟩
      · exact ⟨a, hs, hrest.symm⟩
    obtain ⟨q, hq, hk⟩ := hk { s with ibuf := tail } missing hm hrest
    exact ⟨q, hq, by simpa [streamRead_enough (got := []) hs (by simpa using hn), Taken.andThen] using hk⟩
  · exact ⟨p s.ibuf, hp _, by simp only [streamRead_short (got := []) (by simpa using hle), Taken.andThen,
      List.nil_append]⟩

theorem rtuChecksum_runsShortOf (dir : Direction) (sid : Byte) (f : FunctionCode) (p : List Byte) (c0 c1 : Byte) :
    RunsShortOf [c0, c1] (rtuChecksum dir sid f p []) :=
  streamRead_runsShortOf (bs := [c0, c1]) rfl (fun _ => nofun) (runsShortOf_nil _)

theorem rtuHead_runsShortOf {dir : Direction} {f : FunctionCode} {p : List Byte} (hw : wellShaped dir f p = true)
    (sid c0 c1 : Byte) : RunsShortOf (p ++ [c0, c1]) (rtuHead dir sid f []) := by
  obtain ⟨head, d, rfl, hh, hd⟩ := lengths_of_wellShaped hw
  have hdata : RunsShortOf (d ++ [c0, c1]) (rtuData dir sid f head []) :=
    streamRead_runsShortOf hd (fun _ => nofun) (rtuChecksum_runsShortOf dir sid f (head ++ d) c0 c1)
  rw [List.append_assoc]
  exact streamRead_runsShortOf hh (fun _ => nofun) hdata

theorem rtuDecode_runsShortOf {dir : Direction} {f : FunctionCode} {p : List Byte} (hw : wellShaped dir f p = true)
    (sid c0 c1 : Byte) : RunsShortOf ([sid, f.code] ++ p ++ [c0, c1]) (rtuDecode dir) := by
  have hselect : RunsShortOf (p ++ [c0, c1]) (rtuSelect dir sid f.code) := by
    intro s
    rw [rtuSelect_code]
    exact rtuHead_runsShortOf hw sid c0 c1 s
  have hfunction : RunsShortOf (f.code :: (p ++ [c0, c1])) (rtuFunction dir sid) :=
    streamRead_runsShortOf (bs := [f.code]) rfl (fun _ => nofun) hselect
  rw [List.append_assoc]
  exact streamRead_runsShortOf (bs := [sid]) (p := fun _ => .rtuStation dir)
    (k := fun b => rtuFunction dir (byteAt b 0)) rfl (fun _ => nofun) hfunction

/-- How a wait is settled with no TIMEOUT pending: END decides. -/
theorem await_without_timeout {s : State} (ht : s.srcTimeout = false) (q : Progress) :
    await q s = if s.srcEnd = true then errorOutcome 0x05 s.ibuf s else waitingOutcome q s.ibuf s := by
  rw [await_eq, ht, if_neg Bool.false_ne_true]

/-- An accepted decode on a proper beginning of a frame of its direction. -/
theorem rtuDecode_of_beginning {dir : Direction} {f : FunctionCode} {p missing : List Byte} {sid c0 c1 : Byte}
    {s : State} (ht : s.srcTimeout = false) (hw : wellShaped dir f p = true) (hm : missing ≠ [])
    (hs : s.ibuf ++ missing = [sid, f.code] ++ p ++ [c0, c1]) :
    ∃ q, q ≠ .idle ∧ rtuDecode dir { s with busy := true } =
      if s.srcEnd = true then errorOutcome 0x05 [] s else waitingOutcome q [] s := by
  obtain ⟨q, hq, h⟩ := rtuDecode_runsShortOf hw sid c0 c1 { s with busy := true } missing hm hs
  refine ⟨q, hq, ?_⟩
  rw [h]
  exact await_without_timeout (s := { s with busy := true, ibuf := [] }) ht q

/-- Settles O22: every proper beginning of a frame leaves the decode short of a byte. -/
theorem rtuDecodeOfAFrameBeginning : Obligations.RtuDecodeOfAFrameBeginning := by
  constructor
  · intro s o sid c0 c1 f p missing hv hb ht hw hm hs
    obtain ⟨q, hq, h⟩ := rtuDecode_of_beginning ht hw hm hs
    rw [exec_decodeReqRtu_free o hv hb, h]
    split
    · rfl
    · exact ⟨q, hq, rfl⟩
  · intro s o sid c0 c1 f p missing hv hb ht hw hm hs
    obtain ⟨q, hq, h⟩ := rtuDecode_of_beginning ht hw hm hs
    rw [exec_decodeRspRtu_free o hv hb, h]
    split
    · rfl
    · exact ⟨q, hq, rfl⟩

/-! ## The length of a decoded frame (R108) -/

/-- If the command has ended with OK, its function code is one of the eight and its payload has that code's shape. -/
def OkIsShaped (dir : Direction) (t : State) : Prop :=
  t.busy = false → t.status = 0x00 → ∃ f : FunctionCode, t.rFc = f.code ∧ wellShaped dir f t.rPayload = true

theorem raise_okIsShaped {e : Status} (he : e ≠ .ok) (dir : Direction) (s : State) : OkIsShaped dir (raise e s) :=
  fun _ hs => absurd ((Status.code_eq_zero e).1 hs) he

theorem await_okIsShaped (dir : Direction) (p : Progress) (s : State) : OkIsShaped dir (await p s) := by
  rcases await_cases p s with ⟨-, h⟩ | ⟨-, -, h⟩ | ⟨-, -, h⟩ <;> rw [h]
  · exact raise_okIsShaped (e := .transportTimeout) (by decide) dir s
  · exact raise_okIsShaped (e := .streamExhausted) (by decide) dir s
  · exact fun hb => by simp at hb

/-- A stage that reads `n` bytes and goes on with these. -/
theorem streamRead_okIsShaped {dir : Direction} {n : Nat} {p : List Byte → Progress} {k : List Byte → State → State}
    (hk : ∀ bs s, bs.length = n → OkIsShaped dir (k bs s)) (s : State) :
    OkIsShaped dir ((streamRead n [] p s).andThen k) := by
  rcases streamRead_cases n [] p s with ⟨bs, rest, -, hr, hl⟩ | ⟨-, hr⟩ <;> rw [hr]
  · exact hk _ _ (hl (Nat.zero_le n))
  · exact await_okIsShaped dir _ _

theorem rtuVerify_okIsShaped {dir : Direction} {f : FunctionCode} {p : List Byte} (hw : wellShaped dir f p = true)
    (sid : Byte) (c : List Byte) (s : State) : OkIsShaped dir (rtuVerify sid f p c s) := by
  unfold rtuVerify
  split
  · exact fun _ _ => ⟨f, rfl, hw⟩
  · exact raise_okIsShaped (by decide) dir _

theorem rtuChecksum_okIsShaped {dir : Direction} {f : FunctionCode} {p : List Byte} (hw : wellShaped dir f p = true)
    (sid : Byte) (s : State) : OkIsShaped dir (rtuChecksum dir sid f p [] s) :=
  streamRead_okIsShaped (p := .rtuChecksum dir sid f p) (fun c t _ => rtuVerify_okIsShaped hw sid c t) s

theorem rtuData_okIsShaped {dir : Direction} {f : FunctionCode} {head : List Byte}
    (hh : head.length = headLength (rtuShape dir f)) (sid : Byte) (s : State) :
    OkIsShaped dir (rtuData dir sid f head [] s) :=
  streamRead_okIsShaped (p := .rtuData dir sid f head) (k := fun d => rtuChecksum dir sid f (head ++ d) [])
    (fun _ t hd => rtuChecksum_okIsShaped (wellShaped_of_lengths hh hd) sid t) s

theorem rtuHead_okIsShaped (dir : Direction) (sid : Byte) (f : FunctionCode) (s : State) :
    OkIsShaped dir (rtuHead dir sid f [] s) :=
  streamRead_okIsShaped (p := .rtuHead dir sid f) (k := fun h => rtuData dir sid f h [])
    (fun _ t hh => rtuData_okIsShaped hh sid t) s

theorem rtuSelect_okIsShaped (dir : Direction) (sid fc : Byte) (s : State) :
    OkIsShaped dir (rtuSelect dir sid fc s) := by
  unfold rtuSelect
  split
  · exact rtuHead_okIsShaped dir sid _ s
  · exact raise_okIsShaped (by decide) dir s

theorem rtuFunction_okIsShaped (dir : Direction) (sid : Byte) (s : State) : OkIsShaped dir (rtuFunction dir sid s) :=
  streamRead_okIsShaped (p := fun _ => .rtuFunction dir sid) (k := fun b => rtuSelect dir sid (byteAt b 0))
    (fun b t _ => rtuSelect_okIsShaped dir sid (byteAt b 0) t) s

theorem rtuDecode_okIsShaped (dir : Direction) (s : State) : OkIsShaped dir (rtuDecode dir s) :=
  streamRead_okIsShaped (p := fun _ => .rtuStation dir) (k := fun b => rtuFunction dir (byteAt b 0))
    (fun b t _ => rtuFunction_okIsShaped dir (byteAt b 0) t) s

theorem byteAt_append {xs : List Byte} {i : Nat} (h : i < xs.length) (ys : List Byte) :
    byteAt (xs ++ ys) i = byteAt xs i := by
  simp [byteAt, List.getD_eq_getElem?_getD, List.getElem?_append_left h]

/-- The length of an RTU frame whose payload has its code's shape. -/
theorem length_of_wellShaped {dir : Direction} {f : FunctionCode} {p raw : List Byte} {sid : Byte} {v : Half}
    (hw : wellShaped dir f p = true) (hr : raw = sid :: f.code :: p ++ le16 v) :
    (rtuShape dir f = .fixed4 → raw.length = 8) ∧
    (rtuShape dir f = .hdr4Len → raw.length = 9 + (byteAt raw 6).toNat) ∧
    (rtuShape dir f = .len → raw.length = 5 + (byteAt raw 2).toNat) := by
  have hlen : raw.length = 4 + p.length := by simp [hr]; omega
  have hbyte : ∀ i < p.length, byteAt raw (i + 2) = byteAt p i := by
    intro i hi
    rw [hr, byteAt_append (by simpa using hi)]
    rfl
  refine ⟨fun h => ?_, fun h => ?_, fun h => ?_⟩ <;>
    simp only [wellShaped, h, Bool.and_eq_true, decide_eq_true_eq] at hw
  · omega
  · rw [hbyte 4 (by omega)]; omega
  · rw [hbyte 0 (by omega)]; omega

/-- Settles O23: a decode that ends with OK has read a payload of its code's shape, and its frame is valid. -/
theorem rtuFrameLengthFollowsTheShape : Obligations.RtuFrameLengthFollowsTheShape := by
  intro s t o dir i hi h hb hs
  have ht : t = rtuDecode dir { s with busy := true } := by
    rcases hi with ⟨rfl, rfl⟩ | ⟨rfl, rfl⟩
    · obtain ⟨-, -, ht⟩ := acceptUnder_next h
      exact ht
    · obtain ⟨-, -, ht⟩ := acceptUnder_next h
      exact ht
  subst ht
  obtain ⟨f, hf, hw⟩ := rtuDecode_okIsShaped dir _ hb hs
  obtain ⟨-, hraw⟩ := (rtuDecode_outcome dir { s with busy := true }).frameValid trivial hb hs
  rw [hf] at hraw
  exact ⟨f, hf, length_of_wellShaped hw hraw⟩

end Sys2Proof.Machine

/-! Proofs of the statements about the TCP decoder (42_tcp_codec): whole frames, short length fields, beginnings of
frames. -/

namespace Sys2Proof.Machine

/-! ## The fields of a header (R109) -/

@[simp] theorem readBe16_mbapHeader_tid (tid len : Half) (sid fc : Byte) :
    readBe16 (mbapHeader tid len sid fc) 0 = tid := word16_hi8_lo8 tid

@[simp] theorem readBe16_mbapHeader_protocol (tid len : Half) (sid fc : Byte) :
    readBe16 (mbapHeader tid len sid fc) 2 = 0x0000#16 := word16_zero

@[simp] theorem readBe16_mbapHeader_length (tid len : Half) (sid fc : Byte) :
    readBe16 (mbapHeader tid len sid fc) 4 = len := word16_hi8_lo8 len

@[simp] theorem byteAt_mbapHeader_sid (tid len : Half) (sid fc : Byte) :
    byteAt (mbapHeader tid len sid fc) 6 = sid := rfl

@[simp] theorem byteAt_mbapHeader_fc (tid len : Half) (sid fc : Byte) :
    byteAt (mbapHeader tid len sid fc) 7 = fc := rfl

@[simp] theorem mbapHeader_length (tid len : Half) (sid fc : Byte) : (mbapHeader tid len sid fc).length = 8 := rfl

theorem take_mbapHeader (tid len : Half) (sid fc : Byte) (rest : List Byte) :
    (mbapHeader tid len sid fc ++ rest).take 8 = mbapHeader tid len sid fc := rfl

/-- The peek of a header with one of the eight codes leads to the check of its length field. -/
theorem tcpDecode_of_mbapHeader {tid len : Half} {sid : Byte} {f : FunctionCode} {rest : List Byte} {s : State}
    (hs : s.ibuf = mbapHeader tid len sid f.code ++ rest) :
    tcpDecode s = tcpLength (mbapHeader tid len sid f.code) s := by
  rw [tcpDecode_of_header hs rfl, tcpHeader_of_code (readBe16_mbapHeader_protocol ..) (byteAt_mbapHeader_fc ..)]

/-- So does its function code taken at the peek (log entry 11). -/
theorem takeFunctionCode_of_mbapHeader {tid len : Half} {sid : Byte} {f : FunctionCode} {rest : List Byte} {s : State}
    (hp : s.progress = .tcpPeek) (hs : s.ibuf = mbapHeader tid len sid f.code ++ rest) :
    takeFunctionCode f s = .next (tcpLength (mbapHeader tid len sid f.code) s) := by
  have h8 : 8 ≤ s.ibuf.length := by simp [hs]
  have h0 : readBe16 s.ibuf 2 = 0x0000#16 := by rw [hs]; exact word16_zero
  have hf : byteAt s.ibuf 7 = f.code := by rw [hs]; rfl
  rw [takeFunctionCode_tcp hp, if_pos ⟨h8, h0, hf⟩, hs, take_mbapHeader]

/-! ## The decodes at their start (R182) -/

/-- The two decode commands of a TCP block are one. -/
theorem execDecodeTcp_free {o : Operands} {i : Instr} {s : State} (hi : i ∈ [Instr.decodeReqTcp o, .decodeRspTcp o])
    (hv : s.variant = .tcp) (hb : s.busy = false) : exec i s = .next (tcpDecode { s with busy := true }) := by
  simp only [List.mem_cons, List.not_mem_nil, or_false] at hi
  rcases hi with rfl | rfl
  · exact exec_decodeReqTcp_free o hv hb
  · exact exec_decodeRspTcp_free o hv hb

/-! ## Whole frames (R182) -/

/-- A checked header of a payload that its length field counts, with the payload in the stream. -/
theorem tcpLength_of_frame {tid : Half} {sid fc : Byte} {p rest : List Byte} {s : State} (hp : p.length ≤ 65533)
    (hs : s.ibuf = mbapHeader tid (BitVec.ofNat 16 (2 + p.length)) sid fc ++ p ++ rest) :
    tcpLength (mbapHeader tid (BitVec.ofNat 16 (2 + p.length)) sid fc) s =
      frameOutcome tid sid fc p (mbapHeader tid (BitVec.ofNat 16 (2 + p.length)) sid fc ++ p) rest s := by
  have hc : (readBe16 (mbapHeader tid (BitVec.ofNat 16 (2 + p.length)) sid fc) 4).toNat = 2 + p.length := by
    rw [readBe16_mbapHeader_length, BitVec.toNat_ofNat]
    exact Nat.mod_eq_of_lt (by omega)
  rw [tcpLength_of_payload hs rfl hc, readBe16_mbapHeader_tid, byteAt_mbapHeader_sid, byteAt_mbapHeader_fc]

/-- An accepted decode on an MBAP frame. -/
theorem tcpDecode_of_frame {tid : Half} {sid : Byte} {f : FunctionCode} {p rest : List Byte} {s : State}
    (hp : p.length ≤ 65533)
    (hs : s.ibuf = mbapHeader tid (BitVec.ofNat 16 (2 + p.length)) sid f.code ++ p ++ rest) :
    tcpDecode { s with busy := true } =
      frameOutcome tid sid f.code p (mbapHeader tid (BitVec.ofNat 16 (2 + p.length)) sid f.code ++ p) rest s := by
  have hpeek : s.ibuf = mbapHeader tid (BitVec.ofNat 16 (2 + p.length)) sid f.code ++ (p ++ rest) := by
    rw [hs, List.append_assoc]
  exact (tcpDecode_of_mbapHeader (s := { s with busy := true }) hpeek).trans (tcpLength_of_frame hp hs)

/-- Settles O28: the header passes the three checks, and the payload its length field counts is there. -/
theorem tcpDecodeOfAFrameCompletes : Obligations.TcpDecodeOfAFrameCompletes := by
  intro s o tid sid f p rest hp hs
  constructor
  · intro hv hb
    rw [exec_decodeReqTcp_free o hv hb, exec_decodeRspTcp_free o hv hb, tcpDecode_of_frame hp hs]
    exact ⟨rfl, rfl⟩
  · intro hpeek
    have hs' : s.ibuf = mbapHeader tid (BitVec.ofNat 16 (2 + p.length)) sid f.code ++ (p ++ rest) := by
      rw [hs, List.append_assoc]; rfl
    rw [exec_ofFunctionCode, takeFunctionCode_of_mbapHeader hpeek hs', tcpLength_of_frame hp hs]
    rfl

/-- ENCODE of a payload the length field can count left the frame in `R_RAW`. -/
theorem encodeTcp_next {o : Operands} {s t : State} (h : exec (.encodeTcp o) s = .next t) (hl : o.data.length ≤ 65533) :
    t.variant = .tcp ∧ t.busy = false ∧
      t.rRaw = mbapHeader o.tid (BitVec.ofNat 16 (2 + o.data.length)) o.sid o.fc ++ o.data := by
  obtain ⟨hv, -, rfl⟩ := acceptUnder_next h
  rw [tcpEncode_of_fits hl]
  exact ⟨hv, rfl, rfl⟩

/-- A byte of the list of the eight codes is the byte of one of them (R95). -/
theorem exists_code_of_mem {b : Byte} (h : b ∈ ([0x01, 0x02, 0x03, 0x04, 0x05, 0x06, 0x0F, 0x10] : List Byte)) :
    ∃ f : FunctionCode, b = f.code := by
  cases hd : decodeFunctionCode b with
  | none => exact absurd h ((decodeFunctionCode_none_iff b).1 hd)
  | some f => exact ⟨f, (code_of_decodeFunctionCode hd).symm⟩

/-- Settles O40: what ENCODE leaves in `R_RAW` is a frame both decodes read, up to the check of its function code. -/
theorem tcpRoundTrip : Obligations.TcpRoundTrip := by
  intro s t o o' rest i hi h hl
  obtain ⟨hv, hb, hraw⟩ := encodeTcp_next h hl
  have hs : t.rRaw ++ rest =
      mbapHeader o.tid (BitVec.ofNat 16 (2 + o.data.length)) o.sid o.fc ++ o.data ++ rest := by rw [hraw]
  rw [execDecodeTcp_free (s := { t with ibuf := t.rRaw ++ rest }) hi hv hb]
  constructor
  · intro hfc
    obtain ⟨f, hf⟩ := exists_code_of_mem hfc
    rw [hf] at hs hraw
    exact ⟨_, congrArg Host.Outcome.next (tcpDecode_of_frame (s := { t with ibuf := t.rRaw ++ rest }) hl hs), rfl, rfl,
      rfl, rfl, rfl, hf.symm, rfl, hraw.symm⟩
  · intro hfc
    have hnone : decodeFunctionCode o.fc = none := (decodeFunctionCode_none_iff _).2 hfc
    exact ⟨_, congrArg Host.Outcome.next
      (tcpDecode_of_unknown (s := { t with busy := true, ibuf := t.rRaw ++ rest }) hs hnone), rfl, rfl⟩

/-! ## A length field below 2 (R184) -/

theorem tcpLength_of_short_field {h : List Byte} (hc : (readBe16 h 4).toNat < 2) (s : State) :
    tcpLength h s = errorOutcome 0x04 (s.ibuf.drop 1) s := if_pos hc

/-- Settles O30: the header passes the first two checks and fails the third. -/
theorem tcpShortLengthFieldSkipsOneByte : Obligations.TcpShortLengthFieldSkipsOneByte := by
  intro s o b0 b1 b5 b6 f rest hv hb h5 hs
  have hheader : s.ibuf = mbapHeader (word16 b0 b1) (word16 0x00 b5) b6 f.code ++ rest := by
    rw [hs, mbapHeader, be16_word16, be16_word16]
    rfl
  have hshort : (readBe16 (mbapHeader (word16 b0 b1) (word16 0x00 b5) b6 f.code) 4).toNat < 2 := by
    rw [readBe16_mbapHeader_length, word16_toNat]
    simpa using h5
  rw [exec_decodeReqTcp_free o hv hb, exec_decodeRspTcp_free o hv hb,
    tcpDecode_of_mbapHeader (s := { s with busy := true }) hheader, tcpLength_of_short_field hshort, hs]
  exact ⟨rfl, rfl⟩

/-! ## Beginnings of frames (R65, R182) -/

/-- The peek of fewer than eight bytes waits where it is. -/
theorem tcpDecode_of_short {s : State} (h : s.ibuf.length < 8) : tcpDecode s = await .tcpPeek s := by
  rw [tcpDecode, streamPeek, if_neg (Nat.not_le_of_lt h)]

/-- Settles O31: the peek is short of bytes, and END settles the wait. -/
theorem tcpPeekConsumesNothing : Obligations.TcpPeekConsumesNothing := by
  intro s o hv hb ht hlen
  rw [exec_decodeReqTcp_free o hv hb, exec_decodeRspTcp_free o hv hb,
    tcpDecode_of_short (s := { s with busy := true }) hlen, await_without_timeout (s := { s with busy := true }) ht]
  constructor
  · intro he
    rw [if_pos he]
    exact ⟨rfl, rfl⟩
  · intro he
    rw [if_neg (Bool.eq_false_iff.1 he)]
    exact ⟨rfl, rfl⟩

/-- A checked header with part of its payload in the stream: the decode takes it all and waits in the payload. -/
theorem tcpLength_of_short_payload {h got : List Byte} {s : State} (hs : s.ibuf = h ++ got) (hl : h.length = 8)
    (hc : 2 + got.length < (readBe16 h 4).toNat) :
    tcpLength h s = await (.tcpPayload h got) { s with ibuf := [] } := by
  have hn : ¬ (readBe16 h 4).toNat < 2 := by omega
  have hd : streamDiscard 8 s = { s with ibuf := got } := by simp [streamDiscard, hs, ← hl]
  have hshort : ([] : List Byte).length + got.length < tcpPayloadLength h := by
    simp only [tcpPayloadLength, List.length_nil]; omega
  rw [tcpLength, if_neg hn, hd, tcpPayload, streamRead_short (s := { s with ibuf := got }) hshort]
  rfl

/-- Settles O32: the decode waits in the payload, and END settles the wait. -/
theorem tcpDecodeOfAFrameBeginning : Obligations.TcpDecodeOfAFrameBeginning := by
  intro s o tid len sid f got hv hb ht hlen hs
  have hwait : tcpDecode { s with busy := true } =
      await (.tcpPayload (mbapHeader tid len sid f.code) got) { s with busy := true, ibuf := [] } :=
    (tcpDecode_of_mbapHeader (s := { s with busy := true }) hs).trans
      (tcpLength_of_short_payload (s := { s with busy := true }) hs rfl (by rwa [readBe16_mbapHeader_length]))
  rw [exec_decodeReqTcp_free o hv hb, exec_decodeRspTcp_free o hv hb, hwait,
    await_without_timeout (s := { s with busy := true, ibuf := [] }) ht]
  constructor
  · intro he
    rw [if_pos he]
    exact ⟨rfl, rfl⟩
  · intro he
    rw [if_neg (Bool.eq_false_iff.1 he)]
    exact ⟨.tcpPayload (mbapHeader tid len sid f.code) got, nofun, nofun, rfl, rfl⟩

end Sys2Proof.Machine

/-! Proofs of the statements about the decodes of both variants (10_state, 20_memory): what a decode and a function code
executed as an instruction leave unchanged, the frame and the bytes of such a function code, and a decode that waits
being one with the decode that finds all its bytes. -/

namespace Sys2Proof.Machine

/-! ## A function code executed as an instruction (log entry 11) -/

/-- A function code that answers a next state was taken at one of the two places where a decode has it before it. -/
theorem execFunctionCode_cases {f : FunctionCode} {s t : State} (h : exec (Instr.ofFunctionCode f) s = .next t) :
    (∃ dir sid, s.progress = .rtuFunction dir sid ∧ t = rtuHead dir sid f [] s) ∨
    (s.progress = .tcpPeek ∧ 8 ≤ s.ibuf.length ∧ readBe16 s.ibuf 2 = 0x0000#16 ∧ byteAt s.ibuf 7 = f.code ∧
      t = tcpLength (s.ibuf.take 8) s) := by
  rw [exec_ofFunctionCode] at h
  by_cases hr : ∃ dir sid, s.progress = .rtuFunction dir sid
  · obtain ⟨dir, sid, hp⟩ := hr
    rw [takeFunctionCode_rtu hp] at h
    cases h
    exact .inl ⟨dir, sid, hp, rfl⟩
  · by_cases ht : s.progress = .tcpPeek
    · rw [takeFunctionCode_tcp ht] at h
      split at h
      · next hc =>
        cases h
        exact .inr ⟨ht, hc.1, hc.2.1, hc.2.2, rfl⟩
      · cases h
    · rw [takeFunctionCode_elsewhere ht fun dir sid hp => hr ⟨dir, sid, hp⟩] at h
      cases h

/-- How a decode ends that goes on with a function code under RTU: the station id and the code were taken before. -/
theorem rtuHead_outcome_of_code (dir : Direction) (sid : Byte) (f : FunctionCode) (s : State) :
    DecodeOutcome .rtu True [sid, f.code] s (rtuHead dir sid f [] s) :=
  DecodeOutcome.after (bs := []) (rest := s.ibuf) rfl (fun _ => Nat.zero_le _) (rtuHead_outcome dir sid f [] s)

theorem execFunctionCode_rtu {f : FunctionCode} {s t : State} {dir : Direction} {sid : Byte}
    (hp : s.progress = .rtuFunction dir sid) (h : exec (Instr.ofFunctionCode f) s = .next t) :
    DecodeOutcome .rtu True [sid, f.code] s t := by
  rw [exec_ofFunctionCode, takeFunctionCode_rtu hp] at h
  cases h
  exact rtuHead_outcome_of_code dir sid f s

theorem execFunctionCode_tcp {f : FunctionCode} {s t : State} (hp : s.progress = .tcpPeek)
    (h : exec (Instr.ofFunctionCode f) s = .next t) :
    byteAt s.ibuf 7 = f.code ∧ t = tcpDecode s := by
  rcases execFunctionCode_cases h with ⟨dir, sid, hr, -⟩ | ⟨-, h8, h0, hf, rfl⟩
  · rw [hp] at hr; cases hr
  · exact ⟨hf, (tcpDecode_of_code h8 h0 hf).symm⟩

/-- A decode that ends with OK has in `R_RAW` the bytes it took. -/
theorem DecodeOutcome.raw_of_ok {v : Variant} {pre : List Byte} {s t : State} (h : DecodeOutcome v True pre s t)
    (hb : t.busy = false) (hs : t.status = 0x00) : ∃ taken, s.ibuf = taken ++ t.ibuf ∧ t.rRaw = pre ++ taken := by
  cases h with
  | error e c taken rest he hi => exact absurd ((Status.code_eq_zero e).1 hs) he
  | frame tid sid fc payload raw c taken rest hi hv => exact ⟨taken, hi, (hv trivial).1⟩
  | waiting p taken rest hp hi ht he hk hw => simp at hb

/-- Under RTU the frame's second byte is the code that was taken before. -/
theorem DecodeOutcome.rFc_of_rtu_code {sid fc : Byte} {s t : State} (h : DecodeOutcome .rtu True [sid, fc] s t)
    (hb : t.busy = false) (hs : t.status = 0x00) : t.rFc = fc := by
  obtain ⟨-, hraw⟩ := h.frameValid trivial hb hs
  obtain ⟨taken, -, htaken⟩ := h.raw_of_ok hb hs
  rw [hraw] at htaken
  injection htaken with _ htail
  injection htail

/-- Under TCP the frame's byte 7 is that of the stream. -/
theorem DecodeOutcome.rFc_of_tcp {s t : State} (h : DecodeOutcome .tcp True [] s t) (hb : t.busy = false)
    (hs : t.status = 0x00) : t.rFc = byteAt s.ibuf 7 := by
  obtain ⟨-, hraw⟩ := h.frameValid trivial hb hs
  obtain ⟨taken, hi, htaken⟩ := h.raw_of_ok hb hs
  rw [hi, ← List.nil_append taken, ← htaken, hraw]
  rfl

/-- Settles O35: the code is the byte taken, and the frame is valid as that of every decode. -/
theorem functionCodeFrameInRegistersIsValid : Obligations.FunctionCodeFrameInRegistersIsValid := by
  intro s t f hi h hb hs
  rcases execFunctionCode_cases h with ⟨dir, sid, hp, -⟩ | ⟨hp, -⟩
  · have hd := execFunctionCode_rtu hp h
    have hv := hi.variant_of_rtuFunction hp
    obtain ⟨htid, hraw⟩ := hd.frameValid trivial hb hs
    exact ⟨hd.rFc_of_rtu_code hb hs, fun _ => ⟨htid, hraw⟩, fun hv' => absurd (hv.symm.trans hv') nofun⟩
  · obtain ⟨hf, rfl⟩ := execFunctionCode_tcp hp h
    have hd := tcpDecode_outcome s
    have hv := hi.variant_of_tcpPeek hp
    obtain ⟨hlen, hraw⟩ := hd.frameValid trivial hb hs
    exact ⟨(hd.rFc_of_tcp hb hs).trans hf, fun hv' => absurd (hv.symm.trans hv') nofun, fun _ => ⟨by omega, hraw⟩⟩

/-- Settles O37: the bytes are counted as for every decode, and InvalidLength is an error of a header. -/
theorem functionCodeConsumesItsFrame : Obligations.FunctionCodeConsumesItsFrame := by
  constructor
  · intro s t f dir sid hp h
    exact (execFunctionCode_rtu hp h).consumes
  · intro s t f hp h
    obtain ⟨-, rfl⟩ := execFunctionCode_tcp hp h
    obtain ⟨hok, hwait⟩ := (tcpDecode_outcome s).consumes
    refine ⟨hok, hwait, fun hb hs => tcpDecode_header_error hb ?_⟩
    rw [hs]
    decide

/-! ## What a decode leaves unchanged (R45, R74) -/

/-- A decode command or a function code that answers a next state has run a decode from the state it was given. -/
theorem execDecodeOrCode_outcome {o : Operands} {f : FunctionCode} {i : Instr} {s t : State}
    (hi : i ∈ [Instr.decodeReqRtu o, .decodeRspRtu o, .decodeReqTcp o, .decodeRspTcp o, Instr.ofFunctionCode f])
    (h : exec i s = .next t) : ∃ v pre, DecodeOutcome v True pre s t := by
  have hi' : i ∈ [Instr.decodeReqRtu o, .decodeRspRtu o, .decodeReqTcp o, .decodeRspTcp o] ∨
      i = Instr.ofFunctionCode f := by simpa [or_assoc] using hi
  rcases hi' with hi | rfl
  · obtain ⟨v, hd⟩ := execDecode_outcome hi h
    exact ⟨v, [], hd.of_accepted⟩
  · rcases execFunctionCode_cases h with ⟨dir, sid, hp, -⟩ | ⟨hp, -⟩
    · exact ⟨.rtu, _, execFunctionCode_rtu hp h⟩
    · obtain ⟨-, rfl⟩ := execFunctionCode_tcp hp h
      exact ⟨.tcp, [], tcpDecode_outcome s⟩

/-- Settles O38: by the ways a decode ends. -/
theorem decodeFrame : Obligations.DecodeFrame := by
  intro s t o f i hi h
  obtain ⟨v, pre, hd⟩ := execDecodeOrCode_outcome hi h
  cases hd with
  | error e c taken rest he hib =>
    exact ⟨rfl, rfl, rfl, rfl, rfl, ⟨taken, hib⟩, rfl, fun _ => ⟨rfl, rfl, rfl, rfl, rfl⟩, nofun⟩
  | frame tid sid fc payload raw c taken rest hib hv =>
    exact ⟨rfl, rfl, rfl, rfl, rfl, ⟨taken, hib⟩, rfl, fun hne => by simp at hne, nofun⟩
  | waiting p taken rest hp hib ht he hk hw =>
    exact ⟨rfl, rfl, rfl, rfl, rfl, ⟨taken, hib⟩, rfl, fun _ => ⟨rfl, rfl, rfl, rfl, rfl⟩,
      fun _ => ⟨rfl, rfl, rfl, rfl⟩⟩

/-! ## A decode fed in pieces (R63, R64)

A stage that waits has taken all there was and noted it in its place; when more bytes come it goes on from there as it
would have gone on from the start with all the bytes. -/

/-- `s` with its place and BUSY as given. -/
def setPlace (b : Bool) (p : Progress) (s : State) : State := { s with busy := b, progress := p }

/-- `s` with more bytes at the tail of `IBUF`. -/
def feed (b : List Byte) (s : State) : State := { s with ibuf := s.ibuf ++ b }

theorem await_setPlace (p q : Progress) (b : Bool) (s : State) : await p (setPlace b q s) = await p s := by
  rw [await_eq, await_eq]
  rfl

/-- No part of a decode looks at BUSY or at the place the state has: the stage is the place. -/
theorem DecodeStage.ignores_place {f : State → State} (h : DecodeStage f) (b : Bool) (q : Progress) (s : State) :
    f (setPlace b q s) = f s := by
  induction h generalizing s with
  | error e => rfl
  | frame tid sid fc payload raw => rfl
  | checksum bs hf ih => exact ih (runChecksum bs s)
  | discard n hf ih => exact ih (streamDiscard n s)
  | read n got p hk ih =>
    by_cases hn : n ≤ got.length + s.ibuf.length
    · have hm : n ≤ got.length + (setPlace b q s).ibuf.length := hn
      simp only [streamRead, if_pos hn, if_pos hm]
      exact ih _ { s with ibuf := s.ibuf.drop (n - got.length) }
    · have hm : ¬ n ≤ got.length + (setPlace b q s).ibuf.length := hn
      simp only [streamRead, if_neg hn, if_neg hm]
      exact await_setPlace _ q b { s with ibuf := [] }
  | peek n p hk ih =>
    by_cases hn : n ≤ s.ibuf.length
    · have hm : n ≤ (setPlace b q s).ibuf.length := hn
      simp only [streamPeek, if_pos hn, if_pos hm]
      exact ih _ s
    · have hm : ¬ n ≤ (setPlace b q s).ibuf.length := hn
      simp only [streamPeek, if_neg hn, if_neg hm]
      exact await_setPlace p q b s

/-- With no TIMEOUT and no END, where `f` answers a waiting state, going on there when more bytes have come is `f` on
all the bytes. -/
def GoesOn (f : State → State) (s : State) : Prop :=
  s.srcTimeout = false → s.srcEnd = false → (f s).busy = true → ∀ b, resume (feed b (f s)) = f (feed b s)

/-- A stage that has ended the command has nothing to go on with. -/
theorem goesOn_of_ended {f : State → State} {s : State} (h : (f s).busy = false) : GoesOn f s := by
  intro _ _ hb
  rw [h] at hb
  cases hb

theorem await_quiet {s : State} (ht : s.srcTimeout = false) (he : s.srcEnd = false) (p : Progress) :
    await p s = waitingOutcome p s.ibuf s := by
  rw [await_without_timeout ht, he, if_neg Bool.false_ne_true]

/-- A read goes on from the bytes it has taken as from the start with all of them. -/
theorem streamRead_feed {n : Nat} {got : List Byte} {s : State} (p : List Byte → Progress)
    (h : got.length + s.ibuf.length < n) (b : List Byte) :
    streamRead n got p (feed b s) = streamRead n (got ++ s.ibuf) p { s with ibuf := b } := by
  have hn : n - got.length = s.ibuf.length + (n - (got ++ s.ibuf).length) := by
    rw [List.length_append]; omega
  unfold streamRead feed
  simp only [List.length_append, Nat.add_assoc]
  split
  · rw [hn, List.length_append, List.take_length_add_append, List.drop_length_add_append, List.append_assoc]
  · rw [List.append_assoc]

/-- A stage that reads and goes on: `hres` says that its place resumes it from the bytes it has taken. -/
theorem streamRead_goesOn {n : Nat} {got : List Byte} {p : List Byte → Progress} {k : List Byte → State → State}
    (hres : ∀ got' s, got'.length < n → s.progress = p got' → resume s = (streamRead n got' p s).andThen k)
    (hstage : ∀ bs, DecodeStage (k bs)) (hk : ∀ bs s, GoesOn (k bs) s) (s : State) :
    GoesOn (fun s => (streamRead n got p s).andThen k) s := by
  intro ht he hb b
  dsimp only at hb ⊢
  by_cases hn : n ≤ got.length + s.ibuf.length
  · have hle : n - got.length ≤ s.ibuf.length := by omega
    have hm : n ≤ got.length + (feed b s).ibuf.length := by simp only [feed, List.length_append]; omega
    have htake : (feed b s).ibuf.take (n - got.length) = s.ibuf.take (n - got.length) :=
      List.take_append_of_le_length hle
    have hdrop : (feed b s).ibuf.drop (n - got.length) = s.ibuf.drop (n - got.length) ++ b :=
      List.drop_append_of_le_length hle
    rw [streamRead, if_pos hn] at hb ⊢
    rw [streamRead, if_pos hm, htake, hdrop]
    exact hk _ { s with ibuf := s.ibuf.drop (n - got.length) } ht he hb b
  · have hlt : got.length + s.ibuf.length < n := Nat.lt_of_not_le hn
    have hw : streamRead n got p s = .stopped (waitingOutcome (p (got ++ s.ibuf)) [] s) := by
      rw [streamRead_short hlt, await_quiet (s := { s with ibuf := [] }) ht he]
      rfl
    have hplace : feed b (waitingOutcome (p (got ++ s.ibuf)) [] s) =
        setPlace true (p (got ++ s.ibuf)) { s with ibuf := b } := rfl
    rw [hw, Taken.andThen, hplace, hres (got ++ s.ibuf) _ (by rwa [List.length_append]) rfl, streamRead_feed p hlt]
    exact (DecodeStage.read n (got ++ s.ibuf) p hstage).ignores_place true _ { s with ibuf := b }

theorem rtuVerify_goesOn (sid : Byte) (f : FunctionCode) (payload c : List Byte) (s : State) :
    GoesOn (rtuVerify sid f payload c) s := by
  apply goesOn_of_ended
  rw [rtuVerify_eq]
  split <;> rfl

theorem rtuChecksum_goesOn (dir : Direction) (sid : Byte) (f : FunctionCode) (payload got : List Byte) (s : State) :
    GoesOn (rtuChecksum dir sid f payload got) s :=
  streamRead_goesOn (p := .rtuChecksum dir sid f payload) (k := rtuVerify sid f payload)
    (fun _ _ _ hp => by rw [resume, hp]; rfl) (rtuVerify_decodeStage sid f payload) (rtuVerify_goesOn sid f payload) s

theorem rtuData_goesOn (dir : Direction) (sid : Byte) (f : FunctionCode) (head got : List Byte) (s : State) :
    GoesOn (rtuData dir sid f head got) s :=
  streamRead_goesOn (p := .rtuData dir sid f head) (k := fun d => rtuChecksum dir sid f (head ++ d) [])
    (fun _ _ _ hp => by rw [resume, hp]; rfl) (fun d => rtuChecksum_decodeStage dir sid f (head ++ d) [])
    (fun d => rtuChecksum_goesOn dir sid f (head ++ d) []) s

theorem rtuHead_goesOn (dir : Direction) (sid : Byte) (f : FunctionCode) (got : List Byte) (s : State) :
    GoesOn (rtuHead dir sid f got) s :=
  streamRead_goesOn (p := .rtuHead dir sid f) (k := fun h => rtuData dir sid f h [])
    (fun _ _ _ hp => by rw [resume, hp]; rfl) (fun h => rtuData_decodeStage dir sid f h [])
    (fun h => rtuData_goesOn dir sid f h []) s

theorem rtuSelect_goesOn (dir : Direction) (sid fc : Byte) (s : State) : GoesOn (rtuSelect dir sid fc) s := by
  unfold rtuSelect
  cases decodeFunctionCode fc with
  | some f => exact rtuHead_goesOn dir sid f [] s
  | none => exact goesOn_of_ended rfl

theorem rtuFunction_goesOn (dir : Direction) (sid : Byte) (s : State) : GoesOn (rtuFunction dir sid) s :=
  streamRead_goesOn (p := fun _ => .rtuFunction dir sid) (k := fun b => rtuSelect dir sid (byteAt b 0))
    (fun _ _ hl hp => by rw [List.length_eq_zero_iff.1 (Nat.lt_one_iff.1 hl), resume, hp]; rfl)
    (fun b => rtuSelect_decodeStage dir sid (byteAt b 0)) (fun b => rtuSelect_goesOn dir sid (byteAt b 0)) s

theorem rtuDecode_goesOn (dir : Direction) (s : State) : GoesOn (rtuDecode dir) s :=
  streamRead_goesOn (p := fun _ => .rtuStation dir) (k := fun b => rtuFunction dir (byteAt b 0))
    (fun _ _ hl hp => by rw [List.length_eq_zero_iff.1 (Nat.lt_one_iff.1 hl), resume, hp]; rfl)
    (fun b => rtuFunction_decodeStage dir (byteAt b 0)) (fun b => rtuFunction_goesOn dir (byteAt b 0)) s

theorem tcpPayload_goesOn (h got : List Byte) (s : State) : GoesOn (tcpPayload h got) s :=
  streamRead_goesOn (p := .tcpPayload h)
    (k := fun p => completeFrame (readBe16 h 0) (byteAt h 6) (byteAt h 7) p (h ++ p))
    (fun _ _ _ hp => by rw [resume, hp]; rfl) (fun p => .frame (readBe16 h 0) (byteAt h 6) (byteAt h 7) p (h ++ p))
    (fun _ _ => goesOn_of_ended rfl) s

/-- With its eight bytes in the stream a header is consumed, and more bytes come after it. -/
theorem tcpLength_goesOn (h : List Byte) {s : State} (h8 : 8 ≤ s.ibuf.length) : GoesOn (tcpLength h) s := by
  by_cases hc : (readBe16 h 4).toNat < 2
  · exact goesOn_of_ended (by rw [tcpLength_of_short_field hc]; rfl)
  · have hlen : ∀ t, tcpLength h t = tcpPayload h [] (streamDiscard 8 t) := fun t => if_neg hc
    have hdrop : ∀ b, streamDiscard 8 (feed b s) = feed b (streamDiscard 8 s) := fun b => by
      simp only [streamDiscard, feed, List.drop_append_of_le_length h8]
    intro ht he hb b
    rw [hlen] at hb
    rw [hlen, hlen, hdrop]
    exact tcpPayload_goesOn h [] (streamDiscard 8 s) ht he hb b

theorem tcpHeader_goesOn (h : List Byte) {s : State} (h8 : 8 ≤ s.ibuf.length) : GoesOn (tcpHeader h) s := by
  by_cases hp : readBe16 h 2 = 0x0000#16
  · cases hf : decodeFunctionCode (byteAt h 7) with
    | none => exact goesOn_of_ended (by rw [tcpHeader_unknown hp hf]; rfl)
    | some f =>
      have hlen : tcpHeader h = tcpLength h := funext (tcpHeader_of_code hp (code_of_decodeFunctionCode hf).symm)
      rw [hlen]
      exact tcpLength_goesOn h h8
  · exact goesOn_of_ended (by rw [tcpHeader_nonzero_protocol hp]; rfl)

theorem tcpDecode_goesOn (s : State) : GoesOn tcpDecode s := by
  by_cases h8 : 8 ≤ s.ibuf.length
  · obtain ⟨h, rest, hs, hl⟩ : ∃ h rest, s.ibuf = h ++ rest ∧ h.length = 8 :=
      ⟨s.ibuf.take 8, s.ibuf.drop 8, (List.take_append_drop 8 _).symm, List.length_take_of_le h8⟩
    intro ht he hb b
    have hfeed : (feed b s).ibuf = h ++ (rest ++ b) := by rw [feed, hs, List.append_assoc]
    rw [tcpDecode_of_header hs hl] at hb ⊢
    rw [tcpDecode_of_header hfeed hl]
    exact tcpHeader_goesOn h h8 ht he hb b
  · intro ht he _ b
    have hplace : feed b (waitingOutcome .tcpPeek s.ibuf s) = setPlace true .tcpPeek (feed b s) := rfl
    rw [tcpDecode_of_short (Nat.lt_of_not_le h8), await_quiet ht he, hplace]
    exact tcpDecode_decodeStage.ignores_place true .tcpPeek (feed b s)

/-- Going on in two pieces is going on once: the place decides the stage, and with none the block stays as it is. -/
theorem resume_goesOn (s : State) : GoesOn resume s := by
  have stage : ∀ {f : State → State}, GoesOn f s → (∀ t : State, t.progress = s.progress → resume t = f t) →
      GoesOn resume s := by
    intro f hf hr ht he hb b
    rw [hr s rfl] at hb ⊢
    rw [hr (feed b s) rfl]
    exact hf ht he hb b
  cases hp : s.progress with
  | idle =>
    intro _ _ _ b
    rw [resume_idle hp]
  | rtuStation dir => exact stage (rtuDecode_goesOn dir s) fun t h => by rw [resume, h, hp]
  | rtuFunction dir sid => exact stage (rtuFunction_goesOn dir sid s) fun t h => by rw [resume, h, hp]
  | rtuHead dir sid f got => exact stage (rtuHead_goesOn dir sid f got s) fun t h => by rw [resume, h, hp]
  | rtuData dir sid f head got => exact stage (rtuData_goesOn dir sid f head got s) fun t h => by rw [resume, h, hp]
  | rtuChecksum dir sid f payload got =>
    exact stage (rtuChecksum_goesOn dir sid f payload got s) fun t h => by rw [resume, h, hp]
  | tcpPeek => exact stage (tcpDecode_goesOn s) fun t h => by rw [resume, h, hp]
  | tcpPayload h got => exact stage (tcpPayload_goesOn h got s) fun t h => by rw [resume, h, hp]

/-- Settles O45: a decode that waits after the first piece goes on as with both. -/
theorem fedInPiecesIsFedAtOnce : Obligations.FedInPiecesIsFedAtOnce := by
  intro s a b _ ht he hb
  calc resume (feed b (resume (feed a s))) = resume (feed b (feed a s)) := resume_goesOn (feed a s) ht he hb b
    _ = resume (feed (a ++ b) s) := by rw [feed, feed, feed, List.append_assoc]

/-- A command of one variant that waits goes on as it does on all the bytes. -/
theorem acceptUnder_goesOn {v : Variant} {run : State → State} (hrun : ∀ s, GoesOn run s) {s w : State}
    (ht : s.srcTimeout = false) (he : s.srcEnd = false) (h : acceptUnder v run s = .next w) (hw : w.busy = true)
    (b : List Byte) : acceptUnder v run (feed b s) = .next (resume (feed b w)) := by
  obtain ⟨hv, hb, rfl⟩ := acceptUnder_next h
  rw [acceptUnder_free (s := feed b s) hv hb, hrun { s with busy := true } ht he hw b]
  rfl

/-- So does a function code taken where a decode has it before it. -/
theorem execFunctionCode_goesOn {f : FunctionCode} {s w : State} (ht : s.srcTimeout = false) (he : s.srcEnd = false)
    (h : exec (Instr.ofFunctionCode f) s = .next w) (hw : w.busy = true) (b : List Byte) :
    exec (Instr.ofFunctionCode f) (feed b s) = .next (resume (feed b w)) := by
  rw [exec_ofFunctionCode]
  rcases execFunctionCode_cases h with ⟨dir, sid, hp, rfl⟩ | ⟨hp, h8, h0, hf, rfl⟩
  · rw [takeFunctionCode_rtu (s := feed b s) hp, rtuHead_goesOn dir sid f [] s ht he hw b]
  · have hbyte : ∀ i < 8, byteAt (feed b s).ibuf i = byteAt s.ibuf i := fun i hi =>
      byteAt_append (Nat.lt_of_lt_of_le hi h8) b
    have h8' : 8 ≤ (feed b s).ibuf.length := by simp only [feed, List.length_append]; omega
    have h0' : readBe16 (feed b s).ibuf 2 = 0x0000#16 := by
      rw [readBe16, hbyte 2 (by decide), hbyte (2 + 1) (by decide)]; exact h0
    have htake : (feed b s).ibuf.take 8 = s.ibuf.take 8 := List.take_append_of_le_length h8
    rw [takeFunctionCode_tcp (s := feed b s) hp, if_pos ⟨h8', h0', (hbyte 7 (by decide)).trans hf⟩, htake,
      tcpLength_goesOn (s.ibuf.take 8) h8 ht he hw b]

/-- Settles O46: the accepted decode and the taken function code are stages that go on. -/
theorem waitingCommandIsTheSameCommand : Obligations.WaitingCommandIsTheSameCommand := by
  constructor
  · intro s w o i b hi ht he h hw
    simp only [List.mem_cons, List.not_mem_nil, or_false] at hi
    rcases hi with rfl | rfl | rfl | rfl
    · exact acceptUnder_goesOn (rtuDecode_goesOn .req) ht he h hw b
    · exact acceptUnder_goesOn (rtuDecode_goesOn .rsp) ht he h hw b
    · exact acceptUnder_goesOn tcpDecode_goesOn ht he h hw b
    · exact acceptUnder_goesOn tcpDecode_goesOn ht he h hw b
  · intro s w f b _ ht he h hw
    exact execFunctionCode_goesOn ht he h hw b

end Sys2Proof.Machine
